-- ==== Sys2Proof/Word.lean ====
section
/-! DEFINITION. The widths of the machine's values (00_scope.md R5, R9): bytes, 16-bit words, 12-bit addresses, and the
indices of registers and keys. -/

namespace Sys2Proof

/-- A byte: a `V` register, a timer, `SP`, a byte of memory (R5). -/
abbrev Byte := BitVec 8

/-- A 16-bit word: `I`, `PC`, a stack entry, an instruction word (R5). -/
abbrev Word := BitVec 16

/-- The 12-bit field `nnn` (R50). -/
abbrev Addr12 := BitVec 12

/-- The number of a register `V0`..`VF` (R13). -/
abbrev RegIx := Fin 16

/-- The number of a key 0x0..0xF (R27). -/
abbrev KeyIx := Fin 16

/-- `zext_16`: a narrower unsigned value read as a 16-bit word (R9). -/
abbrev zext16 {n : Nat} (v : BitVec n) : Word := v.setWidth 16

end Sys2Proof
end

