-- ==== Sys2Proof/Config.lean ====
section
/-! DEFINITION. What is fixed for a run: the sizes of 00_scope.md R5, the configuration parameters of R6, and the free
values: the bytes of the random oracle of R7 and the turns of the free schedule of R129. -/

namespace Sys2Proof

/-- When `SUB`, `SUBN`, `SHR` and `SHL` read the operands of their result (42_alu.md R84, D4). -/
inductive AluVfRead where
  /-- The result's expression reads the registers after `VF` has been written. -/
  | sequential
  /-- Both operands are read once, before any write. -/
  | latched
  deriving DecidableEq, Repr

/-- Whether a key press from before `LD Vx,K` ends its wait (45_input_timers.md R114, D10). -/
inductive KeyWaitMode where
  | newPressOnly
  | pendingSlot
  deriving DecidableEq, Repr

/-- What reset leaves in the `V` registers, `I` and the stack (10_state.md R26, D6). -/
inductive ResetPolicy where
  | unset
  | zero
  deriving DecidableEq, Repr

/-- The configuration parameters of 00_scope.md R6, fixed for the whole of a run (the ROM is an argument of `State.boot`). -/
structure Config where
  /-- `CLIP_EDGES`: clip sprites at the edge instead of wrapping them. -/
  clipEdges : Bool
  /-- `ALU_VF_READ`. -/
  aluVfRead : AluVfRead
  /-- `KEY_WAIT_MODE`. -/
  keyWaitMode : KeyWaitMode
  /-- `ST_ZERO_WRITE_STOPS_TONE`. -/
  stZeroWriteStopsTone : Bool
  /-- `RESET_POLICY`. -/
  resetPolicy : ResetPolicy
  deriving DecidableEq, Repr

/-- The configuration of `State.reset`: `CLIP_EDGES` at the source's default, the OPEN parameters at the values the spec
prefers, but `RESET_POLICY` at `ZERO`, so that every register holds a value. DESIGN CHOICE, unsafe (log 4). -/
def Config.standard : Config where
  clipEdges := false
  aluVfRead := .sequential
  keyWaitMode := .newPressOnly
  stZeroWriteStopsTone := false
  resetPolicy := .zero

/-- The `n`-th byte of the random oracle: any byte, with no law (R7, 42_alu.md R96, D17). A free value: it has no body, so
no proof can see what it is. DESIGN CHOICE, unsafe only for claims that compare two runs (log 8). -/
opaque Config.randomByte : Nat → Byte

namespace Machine

/-- A turn of one of the three agents (60_exceptions.md R127). -/
inductive Move where
  /-- A turn of the instruction clock. -/
  | clock
  /-- A turn of the timer clock. -/
  | tick
  /-- The host's `KeyEvent(k, pressed)` (R133). -/
  | key (k : KeyIx) (pressed : Bool)
  /-- The host's `Stop` (R136). -/
  | stop
  deriving DecidableEq, Repr

end Machine

/-- Turns that come in the schedule between those that fairness asks for: any turns, with no law (60_exceptions.md R129,
70_reset_and_hazards.md R147). A free value: it has no body, so no proof can see how many ticks come between two steps.
DESIGN CHOICE, unsafe only for claims that compare two runs (log 6). -/
opaque Config.freeTurns : Nat → List Machine.Move

/-- The number of bytes of memory (R5). -/
abbrev memSize : Nat := 4096

/-- The address the ROM is loaded at, which is the entry point (R5, 20_memory.md R42, R43). -/
abbrev romBase : Nat := 0x200

/-- The most bytes of a ROM that are loaded (R5, 20_memory.md R43). -/
abbrev maxRomBytes : Nat := 0xE00

/-- The number of columns of the framebuffer (R5). -/
abbrev screenColumns : Nat := 64

/-- The number of rows of the framebuffer (R5). -/
abbrev screenRows : Nat := 32

/-- The number of instruction steps in one firing of the instruction clock (R5, 40_step.md R66). -/
abbrev stepsPerFiring : Nat := 10

end Sys2Proof
end

