-- ==== Sys2Proof/Syntax.lean ====
section
/-! DEFINITION. The instructions: one constructor for each row of spec/opcode_table.json, in the table's order
(30_encoding.md R53). `x` and `y` are register numbers, `nnn` a 12-bit address, `kk` a byte, `n` a count of rows (R50, R52).
The bits an instruction ignores (`nnn` of `SYS`, `y` of `SHR` and `SHL`, R58) are kept, so that no bit of a word is lost. -/

namespace Sys2Proof

inductive Instr where
  /-- `CLS` -/
  | cls
  /-- `RET` -/
  | ret
  /-- `SYS nnn` -/
  | sys (nnn : Addr12)
  /-- `JP nnn` -/
  | jp (nnn : Addr12)
  /-- `CALL nnn` -/
  | call (nnn : Addr12)
  /-- `SE Vx,kk` -/
  | seVxKk (x : RegIx) (kk : Byte)
  /-- `SNE Vx,kk` -/
  | sneVxKk (x : RegIx) (kk : Byte)
  /-- `SE Vx,Vy` -/
  | seVxVy (x y : RegIx)
  /-- `LD Vx,kk` -/
  | ldVxKk (x : RegIx) (kk : Byte)
  /-- `ADD Vx,kk` -/
  | addVxKk (x : RegIx) (kk : Byte)
  /-- `LD Vx,Vy` -/
  | ldVxVy (x y : RegIx)
  /-- `OR Vx,Vy` -/
  | orVxVy (x y : RegIx)
  /-- `AND Vx,Vy` -/
  | andVxVy (x y : RegIx)
  /-- `XOR Vx,Vy` -/
  | xorVxVy (x y : RegIx)
  /-- `ADD Vx,Vy` -/
  | addVxVy (x y : RegIx)
  /-- `SUB Vx,Vy` -/
  | subVxVy (x y : RegIx)
  /-- `SHR Vx`, with its ignored field `y` -/
  | shrVx (x y : RegIx)
  /-- `SUBN Vx,Vy` -/
  | subnVxVy (x y : RegIx)
  /-- `SHL Vx`, with its ignored field `y` -/
  | shlVx (x y : RegIx)
  /-- `SNE Vx,Vy` -/
  | sneVxVy (x y : RegIx)
  /-- `LD I,nnn` -/
  | ldINnn (nnn : Addr12)
  /-- `JP V0,nnn` -/
  | jpV0Nnn (nnn : Addr12)
  /-- `RND Vx,kk` -/
  | rndVxKk (x : RegIx) (kk : Byte)
  /-- `DRW Vx,Vy,n` -/
  | drwVxVyN (x y : RegIx) (n : Fin 16)
  /-- `SKP Vx` -/
  | skpVx (x : RegIx)
  /-- `SKNP Vx` -/
  | sknpVx (x : RegIx)
  /-- `LD Vx,DT` -/
  | ldVxDt (x : RegIx)
  /-- `LD Vx,K` -/
  | ldVxK (x : RegIx)
  /-- `LD DT,Vx` -/
  | ldDtVx (x : RegIx)
  /-- `LD ST,Vx` -/
  | ldStVx (x : RegIx)
  /-- `ADD I,Vx` -/
  | addIVx (x : RegIx)
  /-- `LD F,Vx` -/
  | ldFVx (x : RegIx)
  /-- `LD B,Vx` -/
  | ldBVx (x : RegIx)
  /-- `LD [I],Vx` -/
  | ldMemVx (x : RegIx)
  /-- `LD Vx,[I]` -/
  | ldVxMem (x : RegIx)
  deriving DecidableEq, Repr

end Sys2Proof
end

