-- ==== Sys2Proof/Decode.lean ====
section
/-! DEFINITION. The decoder and the encoder (30_encoding.md): the fields of a word (R50), the field-usage signatures with
the masks and match values derived from them (R51), the table in priority order (R53, R54), `decode`, `encode`, and the
assembler's spelling (R60). -/

namespace Sys2Proof

/-- The 35 opcodes: the tag that decoding returns before the operands are built (R54). -/
inductive Opcode where
  | cls | ret | sys | jp | call | seVxKk | sneVxKk | seVxVy | ldVxKk | addVxKk | ldVxVy | orVxVy | andVxVy | xorVxVy
  | addVxVy | subVxVy | shrVx | subnVxVy | shlVx | sneVxVy | ldINnn | jpV0Nnn | rndVxKk | drwVxVyN | skpVx | sknpVx
  | ldVxDt | ldVxK | ldDtVx | ldStVx | addIVx | ldFVx | ldBVx | ldMemVx | ldVxMem
  deriving DecidableEq, Repr

/-! ### Fields (R50) -/

/-- The four bits of `w` from bit `lo` up, as a number. -/
def nibble (w : Word) (lo : Nat) : Fin 16 := (w.extractLsb' lo 4).toFin

/-- `nnn = w[11:0]`. -/
def fieldNnn (w : Word) : Addr12 := w.extractLsb' 0 12

/-- `x = w[11:8]`. -/
def fieldX (w : Word) : RegIx := nibble w 8

/-- `y = w[7:4]`. -/
def fieldY (w : Word) : RegIx := nibble w 4

/-- `kk = w[7:0]`. -/
def fieldKk (w : Word) : Byte := w.extractLsb' 0 8

/-- `n = w[3:0]`. -/
def fieldN (w : Word) : Fin 16 := nibble w 0

/-! ### Signatures, masks and match values (R51) -/

/-- A field-usage signature: for each nibble from `w[15:12]` down, its literal digit, or `none` where a field stands. -/
structure Signature where
  d3 : Option (BitVec 4)
  d2 : Option (BitVec 4)
  d1 : Option (BitVec 4)
  d0 : Option (BitVec 4)
  deriving DecidableEq, Repr

/-- Four nibbles, most significant first, as a word. -/
def ofNibbles (a b c d : BitVec 4) : Word := a ++ b ++ c ++ d

/-- `0xF` where the signature has a literal, `0x0` where it has a field. -/
def maskNibble (d : Option (BitVec 4)) : BitVec 4 := if d.isSome then 0xF#4 else 0x0#4

/-- The mask of an opcode, derived from its signature (R51). -/
def Signature.mask (s : Signature) : Word :=
  ofNibbles (maskNibble s.d3) (maskNibble s.d2) (maskNibble s.d1) (maskNibble s.d0)

/-- The match value of an opcode: its literal digits, with 0 in the field nibbles (R51). -/
def Signature.matchValue (s : Signature) : Word :=
  ofNibbles (s.d3.getD 0) (s.d2.getD 0) (s.d1.getD 0) (s.d0.getD 0)

/-- A word matches when `w & mask = match` (R51). -/
def Signature.accepts (s : Signature) (w : Word) : Bool := w &&& s.mask == s.matchValue

/-- The pattern column of the opcode table (R53). -/
def Opcode.signature : Opcode → Signature
  | .cls => ⟨some 0x0, some 0x0, some 0xE, some 0x0⟩
  | .ret => ⟨some 0x0, some 0x0, some 0xE, some 0xE⟩
  | .sys => ⟨some 0x0, none, none, none⟩
  | .jp => ⟨some 0x1, none, none, none⟩
  | .call => ⟨some 0x2, none, none, none⟩
  | .seVxKk => ⟨some 0x3, none, none, none⟩
  | .sneVxKk => ⟨some 0x4, none, none, none⟩
  | .seVxVy => ⟨some 0x5, none, none, some 0x0⟩
  | .ldVxKk => ⟨some 0x6, none, none, none⟩
  | .addVxKk => ⟨some 0x7, none, none, none⟩
  | .ldVxVy => ⟨some 0x8, none, none, some 0x0⟩
  | .orVxVy => ⟨some 0x8, none, none, some 0x1⟩
  | .andVxVy => ⟨some 0x8, none, none, some 0x2⟩
  | .xorVxVy => ⟨some 0x8, none, none, some 0x3⟩
  | .addVxVy => ⟨some 0x8, none, none, some 0x4⟩
  | .subVxVy => ⟨some 0x8, none, none, some 0x5⟩
  | .shrVx => ⟨some 0x8, none, none, some 0x6⟩
  | .subnVxVy => ⟨some 0x8, none, none, some 0x7⟩
  | .shlVx => ⟨some 0x8, none, none, some 0xE⟩
  | .sneVxVy => ⟨some 0x9, none, none, some 0x0⟩
  | .ldINnn => ⟨some 0xA, none, none, none⟩
  | .jpV0Nnn => ⟨some 0xB, none, none, none⟩
  | .rndVxKk => ⟨some 0xC, none, none, none⟩
  | .drwVxVyN => ⟨some 0xD, none, none, none⟩
  | .skpVx => ⟨some 0xE, none, some 0x9, some 0xE⟩
  | .sknpVx => ⟨some 0xE, none, some 0xA, some 0x1⟩
  | .ldVxDt => ⟨some 0xF, none, some 0x0, some 0x7⟩
  | .ldVxK => ⟨some 0xF, none, some 0x0, some 0xA⟩
  | .ldDtVx => ⟨some 0xF, none, some 0x1, some 0x5⟩
  | .ldStVx => ⟨some 0xF, none, some 0x1, some 0x8⟩
  | .addIVx => ⟨some 0xF, none, some 0x1, some 0xE⟩
  | .ldFVx => ⟨some 0xF, none, some 0x2, some 0x9⟩
  | .ldBVx => ⟨some 0xF, none, some 0x3, some 0x3⟩
  | .ldMemVx => ⟨some 0xF, none, some 0x5, some 0x5⟩
  | .ldVxMem => ⟨some 0xF, none, some 0x6, some 0x5⟩

/-- The first rows of the table, in priority order (R53, R54): `CLS` and `RET` stand before `SYS`. -/
def opcodesFlow : List Opcode :=
  [.cls, .ret, .sys, .jp, .call, .seVxKk, .sneVxKk, .seVxVy, .ldVxKk, .addVxKk]

/-- The rows of group 8 (R53). -/
def opcodesAlu : List Opcode :=
  [.ldVxVy, .orVxVy, .andVxVy, .xorVxVy, .addVxVy, .subVxVy, .shrVx, .subnVxVy, .shlVx]

/-- The rows of groups 9 to E (R53). -/
def opcodesMiddle : List Opcode :=
  [.sneVxVy, .ldINnn, .jpV0Nnn, .rndVxKk, .drwVxVyN, .skpVx, .sknpVx]

/-- The rows of group F (R53). -/
def opcodesF : List Opcode :=
  [.ldVxDt, .ldVxK, .ldDtVx, .ldStVx, .addIVx, .ldFVx, .ldBVx, .ldMemVx, .ldVxMem]

/-- The 35 rows of the table in priority order (R53). -/
def opcodes : List Opcode := opcodesFlow ++ opcodesAlu ++ opcodesMiddle ++ opcodesF

/-! ### Decoding (R54) -/

/-- The instruction an opcode and a word's fields make. -/
def Opcode.instr (op : Opcode) (w : Word) : Instr :=
  match op with
  | .cls => .cls
  | .ret => .ret
  | .sys => .sys (fieldNnn w)
  | .jp => .jp (fieldNnn w)
  | .call => .call (fieldNnn w)
  | .seVxKk => .seVxKk (fieldX w) (fieldKk w)
  | .sneVxKk => .sneVxKk (fieldX w) (fieldKk w)
  | .seVxVy => .seVxVy (fieldX w) (fieldY w)
  | .ldVxKk => .ldVxKk (fieldX w) (fieldKk w)
  | .addVxKk => .addVxKk (fieldX w) (fieldKk w)
  | .ldVxVy => .ldVxVy (fieldX w) (fieldY w)
  | .orVxVy => .orVxVy (fieldX w) (fieldY w)
  | .andVxVy => .andVxVy (fieldX w) (fieldY w)
  | .xorVxVy => .xorVxVy (fieldX w) (fieldY w)
  | .addVxVy => .addVxVy (fieldX w) (fieldY w)
  | .subVxVy => .subVxVy (fieldX w) (fieldY w)
  | .shrVx => .shrVx (fieldX w) (fieldY w)
  | .subnVxVy => .subnVxVy (fieldX w) (fieldY w)
  | .shlVx => .shlVx (fieldX w) (fieldY w)
  | .sneVxVy => .sneVxVy (fieldX w) (fieldY w)
  | .ldINnn => .ldINnn (fieldNnn w)
  | .jpV0Nnn => .jpV0Nnn (fieldNnn w)
  | .rndVxKk => .rndVxKk (fieldX w) (fieldKk w)
  | .drwVxVyN => .drwVxVyN (fieldX w) (fieldY w) (fieldN w)
  | .skpVx => .skpVx (fieldX w)
  | .sknpVx => .sknpVx (fieldX w)
  | .ldVxDt => .ldVxDt (fieldX w)
  | .ldVxK => .ldVxK (fieldX w)
  | .ldDtVx => .ldDtVx (fieldX w)
  | .ldStVx => .ldStVx (fieldX w)
  | .addIVx => .addIVx (fieldX w)
  | .ldFVx => .ldFVx (fieldX w)
  | .ldBVx => .ldBVx (fieldX w)
  | .ldMemVx => .ldMemVx (fieldX w)
  | .ldVxMem => .ldVxMem (fieldX w)

/-- The first opcode of the table that the word matches, or none: a decode miss (R54, R57). -/
def lookup (w : Word) : Option Opcode := opcodes.find? (fun op => op.signature.accepts w)

/-- `decode(w)`: total, and `none` exactly for a decode miss (R54, R55). -/
def decode (w : Word) : Option Instr := (lookup w).map (fun op => op.instr w)

/-- Why a sequence of bytes gives no instruction. -/
inductive DecodeReject where
  /-- There are fewer than the two bytes of a word (R49). -/
  | tooShort
  /-- The word matches no opcode: a decode miss, which the machine runs as a no-op (R57). -/
  | noInstruction (w : Word)
  deriving DecidableEq, Repr

/-- The word of two bytes, the high byte first (20_memory.md R38). -/
def wordOfBytes (hi lo : Byte) : Word := hi ++ lo

/-- The high byte of a word: the one at the lower address (20_memory.md R38). -/
def hiByte (w : Word) : Byte := w.extractLsb' 8 8

/-- The low byte of a word. -/
def loByte (w : Word) : Byte := w.extractLsb' 0 8

/-- Decode the first two bytes, and return the rest. -/
def decodeBytes : List Byte → Except DecodeReject (Instr × List Byte)
  | hi :: lo :: rest =>
    match decode (wordOfBytes hi lo) with
    | some i => .ok (i, rest)
    | none => .error (.noInstruction (wordOfBytes hi lo))
  | [_] => .error .tooShort
  | [] => .error .tooShort

/-- The instruction word whose bits, numbered from bit 0 of its one word, are the low `nbits` bits of `w`. -/
def tableWord (nbits w : Nat) : Word := BitVec.ofNat 16 (w % 2 ^ nbits)

/-- What the decoder reads from an instruction whose bits are `w` in the opcode table's numbering: the word is laid out as the
hardware stores it, high byte first, and decoded. -/
def decodeTableWord (nbits w : Nat) : Option Instr :=
  match decodeBytes [hiByte (tableWord nbits w), loByte (tableWord nbits w)] with
  | .ok (i, _) => some i
  | .error _ => none

/-! ### Encoding (R51, R53) -/

/-- The nibble of a register number or a row count. -/
def nibbleBits (x : Fin 16) : BitVec 4 := BitVec.ofFin x

/-- The opcode of an instruction. -/
def Instr.opcode : Instr → Opcode
  | .cls => .cls
  | .ret => .ret
  | .sys _ => .sys
  | .jp _ => .jp
  | .call _ => .call
  | .seVxKk _ _ => .seVxKk
  | .sneVxKk _ _ => .sneVxKk
  | .seVxVy _ _ => .seVxVy
  | .ldVxKk _ _ => .ldVxKk
  | .addVxKk _ _ => .addVxKk
  | .ldVxVy _ _ => .ldVxVy
  | .orVxVy _ _ => .orVxVy
  | .andVxVy _ _ => .andVxVy
  | .xorVxVy _ _ => .xorVxVy
  | .addVxVy _ _ => .addVxVy
  | .subVxVy _ _ => .subVxVy
  | .shrVx _ _ => .shrVx
  | .subnVxVy _ _ => .subnVxVy
  | .shlVx _ _ => .shlVx
  | .sneVxVy _ _ => .sneVxVy
  | .ldINnn _ => .ldINnn
  | .jpV0Nnn _ => .jpV0Nnn
  | .rndVxKk _ _ => .rndVxKk
  | .drwVxVyN _ _ _ => .drwVxVyN
  | .skpVx _ => .skpVx
  | .sknpVx _ => .sknpVx
  | .ldVxDt _ => .ldVxDt
  | .ldVxK _ => .ldVxK
  | .ldDtVx _ => .ldDtVx
  | .ldStVx _ => .ldStVx
  | .addIVx _ => .addIVx
  | .ldFVx _ => .ldFVx
  | .ldBVx _ => .ldBVx
  | .ldMemVx _ => .ldMemVx
  | .ldVxMem _ => .ldVxMem

/-- The word of an instruction: its pattern's literal digits with its operands in the field nibbles (R51, R53). -/
def encode : Instr → Word
  | .cls => 0x00E0#16
  | .ret => 0x00EE#16
  | .sys nnn => 0x0#4 ++ nnn
  | .jp nnn => 0x1#4 ++ nnn
  | .call nnn => 0x2#4 ++ nnn
  | .seVxKk x kk => 0x3#4 ++ nibbleBits x ++ kk
  | .sneVxKk x kk => 0x4#4 ++ nibbleBits x ++ kk
  | .seVxVy x y => 0x5#4 ++ nibbleBits x ++ nibbleBits y ++ 0x0#4
  | .ldVxKk x kk => 0x6#4 ++ nibbleBits x ++ kk
  | .addVxKk x kk => 0x7#4 ++ nibbleBits x ++ kk
  | .ldVxVy x y => 0x8#4 ++ nibbleBits x ++ nibbleBits y ++ 0x0#4
  | .orVxVy x y => 0x8#4 ++ nibbleBits x ++ nibbleBits y ++ 0x1#4
  | .andVxVy x y => 0x8#4 ++ nibbleBits x ++ nibbleBits y ++ 0x2#4
  | .xorVxVy x y => 0x8#4 ++ nibbleBits x ++ nibbleBits y ++ 0x3#4
  | .addVxVy x y => 0x8#4 ++ nibbleBits x ++ nibbleBits y ++ 0x4#4
  | .subVxVy x y => 0x8#4 ++ nibbleBits x ++ nibbleBits y ++ 0x5#4
  | .shrVx x y => 0x8#4 ++ nibbleBits x ++ nibbleBits y ++ 0x6#4
  | .subnVxVy x y => 0x8#4 ++ nibbleBits x ++ nibbleBits y ++ 0x7#4
  | .shlVx x y => 0x8#4 ++ nibbleBits x ++ nibbleBits y ++ 0xE#4
  | .sneVxVy x y => 0x9#4 ++ nibbleBits x ++ nibbleBits y ++ 0x0#4
  | .ldINnn nnn => 0xA#4 ++ nnn
  | .jpV0Nnn nnn => 0xB#4 ++ nnn
  | .rndVxKk x kk => 0xC#4 ++ nibbleBits x ++ kk
  | .drwVxVyN x y n => 0xD#4 ++ nibbleBits x ++ nibbleBits y ++ nibbleBits n
  | .skpVx x => 0xE#4 ++ nibbleBits x ++ 0x9E#8
  | .sknpVx x => 0xE#4 ++ nibbleBits x ++ 0xA1#8
  | .ldVxDt x => 0xF#4 ++ nibbleBits x ++ 0x07#8
  | .ldVxK x => 0xF#4 ++ nibbleBits x ++ 0x0A#8
  | .ldDtVx x => 0xF#4 ++ nibbleBits x ++ 0x15#8
  | .ldStVx x => 0xF#4 ++ nibbleBits x ++ 0x18#8
  | .addIVx x => 0xF#4 ++ nibbleBits x ++ 0x1E#8
  | .ldFVx x => 0xF#4 ++ nibbleBits x ++ 0x29#8
  | .ldBVx x => 0xF#4 ++ nibbleBits x ++ 0x33#8
  | .ldMemVx x => 0xF#4 ++ nibbleBits x ++ 0x55#8
  | .ldVxMem x => 0xF#4 ++ nibbleBits x ++ 0x65#8

/-! ### Assembler spelling (R60) -/

/-- A hexadecimal digit. -/
def hexDigit (d : Fin 16) : String :=
  ["0", "1", "2", "3", "4", "5", "6", "7", "8", "9", "A", "B", "C", "D", "E", "F"].getD d.val "0"

/-- A register's name, `V0`..`VF`. -/
def regName (x : RegIx) : String := "V" ++ hexDigit x

/-- A byte as two hexadecimal digits. -/
def hexByte (b : Byte) : String := "0x" ++ hexDigit (b.extractLsb' 4 4).toFin ++ hexDigit (b.extractLsb' 0 4).toFin

/-- A 12-bit address as three hexadecimal digits. -/
def hexAddr (a : Addr12) : String :=
  "0x" ++ hexDigit (a.extractLsb' 8 4).toFin ++ hexDigit (a.extractLsb' 4 4).toFin ++ hexDigit (a.extractLsb' 0 4).toFin

/-- The spelling of an instruction: mnemonic, then operands, destination first (R60). The ignored `y` is not written. -/
def Instr.render : Instr → String
  | .cls => "CLS"
  | .ret => "RET"
  | .sys nnn => "SYS " ++ hexAddr nnn
  | .jp nnn => "JP " ++ hexAddr nnn
  | .call nnn => "CALL " ++ hexAddr nnn
  | .seVxKk x kk => "SE " ++ regName x ++ "," ++ hexByte kk
  | .sneVxKk x kk => "SNE " ++ regName x ++ "," ++ hexByte kk
  | .seVxVy x y => "SE " ++ regName x ++ "," ++ regName y
  | .ldVxKk x kk => "LD " ++ regName x ++ "," ++ hexByte kk
  | .addVxKk x kk => "ADD " ++ regName x ++ "," ++ hexByte kk
  | .ldVxVy x y => "LD " ++ regName x ++ "," ++ regName y
  | .orVxVy x y => "OR " ++ regName x ++ "," ++ regName y
  | .andVxVy x y => "AND " ++ regName x ++ "," ++ regName y
  | .xorVxVy x y => "XOR " ++ regName x ++ "," ++ regName y
  | .addVxVy x y => "ADD " ++ regName x ++ "," ++ regName y
  | .subVxVy x y => "SUB " ++ regName x ++ "," ++ regName y
  | .shrVx x _ => "SHR " ++ regName x
  | .subnVxVy x y => "SUBN " ++ regName x ++ "," ++ regName y
  | .shlVx x _ => "SHL " ++ regName x
  | .sneVxVy x y => "SNE " ++ regName x ++ "," ++ regName y
  | .ldINnn nnn => "LD I," ++ hexAddr nnn
  | .jpV0Nnn nnn => "JP V0," ++ hexAddr nnn
  | .rndVxKk x kk => "RND " ++ regName x ++ "," ++ hexByte kk
  | .drwVxVyN x y n => "DRW " ++ regName x ++ "," ++ regName y ++ "," ++ hexDigit n
  | .skpVx x => "SKP " ++ regName x
  | .sknpVx x => "SKNP " ++ regName x
  | .ldVxDt x => "LD " ++ regName x ++ ",DT"
  | .ldVxK x => "LD " ++ regName x ++ ",K"
  | .ldDtVx x => "LD DT," ++ regName x
  | .ldStVx x => "LD ST," ++ regName x
  | .addIVx x => "ADD I," ++ regName x
  | .ldFVx x => "LD F," ++ regName x
  | .ldBVx x => "LD B," ++ regName x
  | .ldMemVx x => "LD [I]," ++ regName x
  | .ldVxMem x => "LD " ++ regName x ++ ",[I]"

end Sys2Proof
end

