-- ==== Sys2Proof/Machine/State.lean ====
section
/-! DEFINITION. The machine's state (10_state.md): everything the spec gives the machine, as plain data, with the three fields
of the model's own (`draws`, `schedule`, `round`), and the state after reset (R32, 70_reset_and_hazards.md R141). -/

namespace Sys2Proof.Machine

/-- Memory: the bytes that differ from what an unlisted address reads as, at strictly rising addresses (log 20). -/
abbrev Memory := List Host.Cell

/-- The framebuffer's cells `FB[col][row]`; `true` is "pixel lit" (R25). -/
abbrev Grid := Vector (Vector Bool screenRows) screenColumns

/-- The spec's fault codes (60_exceptions.md R121). A fault of these is a NEXT state, see `raiseFault`. -/
inductive FaultCode where
  | stackIndex
  | unsetRead
  | keyIndex
  deriving DecidableEq, Repr

/-- The phases of the instruction clock (R28). -/
inductive ClockPhase where
  /-- `RUN(k)`: ready to execute step `k` of the firing. -/
  | run (k : Fin stepsPerFiring)
  /-- `WAIT(x, k)`: blocked in `LD Vx,K` at step `k`. -/
  | wait (x : RegIx) (k : Fin stepsPerFiring)
  /-- `BLOCK_END`: the firing's steps are done and the push is next. -/
  | blockEnd
  /-- `FAULTED(code, pc, word)`: stopped for good by a fault. -/
  | faulted (code : FaultCode) (pc : Word) (word : Word)
  /-- `STOPPED`: cancelled by machine stop. -/
  | stopped
  deriving DecidableEq, Repr

/-- The phases of the timer clock (R29). -/
inductive TimerPhase where
  | running
  | stopped
  deriving DecidableEq, Repr

/-- The events the machine sends to the host (R30). -/
inductive Event where
  /-- `Present(grid)`, from a push. -/
  | present (grid : Grid)
  | startTone
  | stopTone
  /-- `FaultReport(code, pc, word)`, from a fault. -/
  | faultReport (code : FaultCode) (pc : Word) (word : Word)
  deriving DecidableEq, Repr

/-- Why a step stops. None of these is the spec's fault, which is a next state (log 9); no run from reset raises the last two. -/
inductive Fault where
  /-- Raised by `step` when no turn is scheduled and neither clock has an enabled step: only the host could move (R127, R136).
  DESIGN CHOICE, safe (log 13). -/
  | noEnabledAgent
  /-- Raised by the completion of a key wait when `PRESS_PENDING` is set and there is no `LAST_KEY`: "never none here", and the
  spec gives no value (45_input_timers.md R115). DESIGN CHOICE, safe (log 12). -/
  | lastKeyMissing
  /-- Raised by `LD Vx,K` outside phase `RUN(k)`, where no handler runs and there is no `k` to wait at (R62, R114). DESIGN
  CHOICE, safe (log 11). -/
  | handlerOutsideRun
  deriving DecidableEq, Repr

/-- Why an instruction has no meaning. -/
inductive Refusal where
  /-- Raised by `exec` for an instruction with no meaning yet; no arm does, every instruction has one. Safe. -/
  | notModelled (mnemonic : String)
  deriving DecidableEq, Repr

/-- The machine's state. -/
structure State where
  /-- `V0`..`VF` (R13); `none` is the spec's "unset" of `RESET_POLICY = UNSET` (R26). -/
  v : Vector (Option Byte) 16
  /-- `I` (R17), a value or unset (R26). -/
  ireg : Option Word
  /-- `PC` (R16). -/
  pc : Word
  /-- `SP` (R18). -/
  sp : Byte
  /-- `stack[0]`..`stack[15]` (R19), each a value or unset (R26). -/
  stack : Vector (Option Word) 16
  /-- `DT` (R20). -/
  dt : Byte
  /-- `ST` (R21). -/
  st : Byte
  /-- `M[0]`..`M[4095]` (R24). -/
  mem : Memory
  /-- `FB` (R25). -/
  fb : Grid
  /-- `DIRTY` (R25). -/
  dirty : Bool
  /-- `KEY[0]`..`KEY[15]` (R27). -/
  keys : Vector Bool 16
  /-- `LAST_KEY`, or none before the first press (R27). -/
  lastKey : Option KeyIx
  /-- `PRESS_PENDING` (R27). -/
  pressPending : Bool
  /-- The instruction clock's phase (R28). -/
  clock : ClockPhase
  /-- The timer clock's phase (R29). -/
  timer : TimerPhase
  /-- The output trace, oldest event first (R30). -/
  trace : List Event
  /-- MODEL's own: how many bytes the random oracle of R7 has given (log 8). -/
  draws : Nat
  /-- MODEL's own: the turns to come, the schedule of R129 (log 5). -/
  schedule : List Move
  /-- MODEL's own: how many rounds of turns the machine has scheduled by itself; each is a free value with a turn of each clock
  in it, so that neither is left out for ever (R129; log 6). -/
  round : Nat
  /-- The configuration of R6, fixed for a run and written by no step (log 3). -/
  config : Config
  deriving DecidableEq, Repr

/-- What reset leaves in a cell of the `V` registers, `I` or the stack: unset, or 0 (R26, R32). -/
def resetCell {n : Nat} : ResetPolicy → Option (BitVec n)
  | .unset => none
  | .zero => some 0

/-- The table of 10_state.md R32 for a configuration, before the ROM is copied: `reset` of R141 with an empty ROM. -/
def State.blank (c : Config) : State where
  v := Vector.replicate 16 (resetCell c.resetPolicy)
  ireg := resetCell c.resetPolicy
  pc := BitVec.ofNat 16 romBase
  sp := 0
  stack := Vector.replicate 16 (resetCell c.resetPolicy)
  dt := 0
  st := 0
  mem := []
  fb := Vector.replicate screenColumns (Vector.replicate screenRows false)
  dirty := false
  keys := Vector.replicate 16 false
  lastKey := none
  pressPending := false
  clock := .run 0
  timer := .running
  trace := []
  draws := 0
  schedule := []
  round := 0
  config := c

/-- The machine right after reset (R32, R141), in the standard configuration (log 4) and with no ROM loaded (log 14): every
register holds a value, 0 where the spec gives none. DESIGN CHOICE for those, unsafe (log 1). -/
def State.reset : State := State.blank Config.standard

end Sys2Proof.Machine
end

