-- ==== Sys2Proof/Machine/Ops.lean ====
section
/-! DEFINITION. The named operations over the state: memory (20_memory.md), registers and stack, one setter per field, taking
a fault (40_step.md R68), the end of an instruction step (R63), and reset with a ROM (70_reset_and_hazards.md R141). -/

namespace Sys2Proof.Machine

/-- What a step answers. -/
abbrev Result := Host.Outcome State Fault Refusal

/-! ### Memory as data (R34 to R37) -/

/-- What an address with no entry reads as: memory is zero-initialised (20_memory.md R42; 10_state.md R32). -/
def Memory.unlisted : Byte := 0

/-- The byte at a listed address, or what an unlisted one reads as. -/
def Memory.byteAt : Memory → Nat → Byte
  | [], _ => Memory.unlisted
  | (a', b') :: m, a => if a = a' then b' else Memory.byteAt m a

/-- A new first entry, unless an unlisted address already reads as that byte. -/
def Memory.consByte (a : Nat) (b : Byte) (m : Memory) : Memory :=
  if b = Memory.unlisted then m else (a, b) :: m

/-- The memory with one byte replaced, in canonical form. -/
def Memory.setByte : Memory → Nat → Byte → Memory
  | [], a, b => Memory.consByte a b []
  | (a', b') :: m, a, b =>
    if a < a' then Memory.consByte a b ((a', b') :: m)
    else if a = a' then Memory.consByte a b m
    else (a', b') :: Memory.setByte m a b

/-- Every address is at least `lo` and below 4096, addresses rise strictly, and no entry holds what an unlisted address reads
as. -/
def Memory.wfFrom : Nat → Memory → Bool
  | _, [] => true
  | lo, (a, b) :: m => decide (lo ≤ a) && decide (a < memSize) && decide (b ≠ Memory.unlisted) && Memory.wfFrom (a + 1) m

/-- The canonical form of memory. -/
def Memory.wf (m : Memory) : Bool := Memory.wfFrom 0 m

/-- `MemRead(a, 1)`: every address is taken mod 4096 (R34, R35). -/
def Memory.read (m : Memory) (a : Nat) : Byte := Memory.byteAt m (a % memSize)

/-- `MemWrite(a, 1, b)` (R36). -/
def Memory.write (m : Memory) (a : Nat) (b : Byte) : Memory := Memory.setByte m (a % memSize) b

/-- Write a sequence of bytes from address `a` up, in order, each address wrapped separately. -/
def Memory.writeRange (m : Memory) (a : Nat) : List Byte → Memory
  | [] => m
  | b :: bs => Memory.writeRange (Memory.write m a b) (a + 1) bs

/-- `readRange(a, a + n)`: `n` bytes, each address wrapped separately (R37). -/
def Memory.readRange (m : Memory) (a : Nat) : Nat → List Byte
  | 0 => []
  | n + 1 => Memory.read m a :: Memory.readRange m (a + 1) n

/-! ### One setter per field -/

/-- `V[x] <- b` (R10). -/
def State.writeV (s : State) (x : RegIx) (b : Byte) : State := { s with v := s.v.set x.val (some b) x.isLt }

/-- `I <- w` (R10). -/
def State.writeI (s : State) (w : Word) : State := { s with ireg := some w }

/-- `PC <- w` (R10). -/
def State.setPc (s : State) (w : Word) : State := { s with pc := w }

/-- `SP <- b` (R10). -/
def State.setSp (s : State) (b : Byte) : State := { s with sp := b }

/-- `stack[j] <- w` (R10). -/
def State.writeStack (s : State) (j : Fin 16) (w : Word) : State := { s with stack := s.stack.set j.val (some w) j.isLt }

/-- `DT <- b`. -/
def State.setDt (s : State) (b : Byte) : State := { s with dt := b }

/-- `ST <- b`. -/
def State.setSt (s : State) (b : Byte) : State := { s with st := b }

/-- Replace memory. -/
def State.setMem (s : State) (m : Memory) : State := { s with mem := m }

/-- Replace the framebuffer's cells. -/
def State.setFb (s : State) (g : Grid) : State := { s with fb := g }

/-- `DIRTY <- b`. -/
def State.setDirty (s : State) (b : Bool) : State := { s with dirty := b }

/-- `KEY[k] <- b`. -/
def State.writeKey (s : State) (k : KeyIx) (b : Bool) : State := { s with keys := s.keys.set k.val b k.isLt }

/-- `LAST_KEY <- k`. -/
def State.setLastKey (s : State) (k : KeyIx) : State := { s with lastKey := some k }

/-- `PRESS_PENDING <- b`. -/
def State.setPressPending (s : State) (b : Bool) : State := { s with pressPending := b }

/-- The instruction clock's phase. -/
def State.setClock (s : State) (p : ClockPhase) : State := { s with clock := p }

/-- The timer clock's phase. -/
def State.setTimer (s : State) (p : TimerPhase) : State := { s with timer := p }

/-- `emit e`: append an event to the output trace (R10, R30). -/
def State.emit (s : State) (e : Event) : State := { s with trace := s.trace ++ [e] }

/-- Count the bytes drawn from the random oracle (log 8). -/
def State.setDraws (s : State) (n : Nat) : State := { s with draws := n }

/-- The turns to come (log 5). -/
def State.setSchedule (s : State) (l : List Move) : State := { s with schedule := l }

/-- The turns to come, and how many rounds of them the machine has scheduled by itself (log 5, 6). -/
def State.setTurns (s : State) (l : List Move) (n : Nat) : State := { s with schedule := l, round := n }

/-! ### Reads -/

/-- `V[x]`: its value, or `none` when unset (R26). -/
def State.readV (s : State) (x : RegIx) : Option Byte := s.v.get x

/-- `stack[j]`: its value, or `none` when unset (R26). -/
def State.readStack (s : State) (j : Fin 16) : Option Word := s.stack.get j

/-- `KEY[k]`. -/
def State.readKey (s : State) (k : KeyIx) : Bool := s.keys.get k

/-- `MemRead(a, 1)` (R35). -/
def State.memRead (s : State) (a : Nat) : Byte := Memory.read s.mem a

/-- `MemWrite(a, 1, b)` (R36). -/
def State.memWrite (s : State) (a : Nat) (b : Byte) : State := s.setMem (Memory.write s.mem a b)

/-- `MemRead(PC, 2)`: the word at `PC`, high byte first, each address wrapped separately (R38). -/
def State.fetchWord (s : State) : Word := wordOfBytes (s.memRead s.pc.toNat) (s.memRead (s.pc.toNat + 1))

/-- `Draw()`: the next byte of the random oracle (R7, R10). -/
def State.drawByte (s : State) : Byte := Config.randomByte s.draws

/-- `TONE`: a `StartTone` not yet followed by a `StopTone` (R30). -/
def toneOn (trace : List Event) : Bool :=
  trace.foldl (fun on e => match e with
    | .startTone => true
    | .stopTone => false
    | .present _ => on
    | .faultReport _ _ _ => on) false

/-! ### Taking a fault (R68, R120) -/

/-- The numeric value of a fault code (R121, D19). -/
def FaultCode.value : FaultCode → Nat
  | .stackIndex => 1
  | .unsetRead => 2
  | .keyIndex => 3

/-- The state after a fault: nothing is written, `FaultReport(code, pc0, w)` is emitted, and the instruction clock is in
`FAULTED(code, pc0, w)` (R68). `w` is the word at `PC`, the one the step fetched: a handler raises before any of its writes.
DEDUCED (log 9). -/
def State.faulted (s : State) (code : FaultCode) : State :=
  (s.emit (.faultReport code s.pc s.fetchWord)).setClock (.faulted code s.pc s.fetchWord)

/-- `raise Fault(code)`: the one operation every faulting instruction takes (R10, R68). -/
def raiseFault (code : FaultCode) (s : State) : Result := .next (s.faulted code)

/-- Read a cell that may be unset: `Fault(UNSET_READ)` if it is, else go on with its value (R26). -/
def needSet {α : Type} (cell : Option α) (s : State) (k : α → Result) : Result :=
  match cell with
  | some a => k a
  | none => raiseFault .unsetRead s

/-! ### The end of an instruction step (R63) -/

/-- The phase after step `k`: `RUN(k + 1)`, or `BLOCK_END` after the last (R63, R66). -/
def nextPhase (k : Fin stepsPerFiring) : ClockPhase :=
  if h : k.val + 1 < stepsPerFiring then .run ⟨k.val + 1, h⟩ else .blockEnd

/-- The final advance: `PC <- trunc16(PC + 2)` and the next phase (R63). -/
def State.advance (s : State) (k : Fin stepsPerFiring) : State := (s.setPc (s.pc + 2)).setClock (nextPhase k)

/-- What a step does after its handler: the advance, unless the handler faulted or blocked, which is when it has left phase
`RUN(k)` (R63). -/
def State.finishStep (s : State) : State :=
  match s.clock with
  | .run k => s.advance k
  | .wait _ _ => s
  | .blockEnd => s
  | .faulted _ _ _ => s
  | .stopped => s

/-- Apply a function to the next state of an outcome. -/
def onNext (f : State → State) : Result → Result
  | .next s => .next (f s)
  | .fault r => .fault r
  | .refused r => .refused r

/-! ### Reset with a ROM, and placing one word -/

/-- `load(rom)`: at most 0xE00 bytes, from 0x200; the rest of a longer ROM is dropped (20_memory.md R43). -/
def Memory.load (m : Memory) (rom : List Byte) : Memory := Memory.writeRange m romBase (rom.take maxRomBytes)

/-- `reset(ROM, config)`: the start state of a run (R141), for every readable ROM (R142). -/
def State.boot (c : Config) (rom : List Byte) : State := (State.blank c).setMem (Memory.load (State.blank c).mem rom)

/-- The phase in which the next turn of the instruction clock is an instruction step. -/
def ClockPhase.toRun : ClockPhase → ClockPhase
  | .run k => .run k
  | .wait _ k => .run k
  | .blockEnd => .run 0
  | .faulted _ _ _ => .run 0
  | .stopped => .run 0

/-- The schedule with the instruction clock's turn next. -/
def clockFirst : List Move → List Move
  | [] => [.clock]
  | .clock :: l => .clock :: l
  | .tick :: l => .clock :: .tick :: l
  | .key k p :: l => .clock :: .key k p :: l
  | .stop :: l => .clock :: .stop :: l

/-- The state with a word at `PC` that the very next step fetches: the two bytes stored, the instruction clock ready and its
turn next (log 14). -/
def State.placeWord (s : State) (w : Word) : State :=
  (((s.memWrite s.pc.toNat (hiByte w)).memWrite (s.pc.toNat + 1) (loByte w)).setClock s.clock.toRun).setSchedule
    (clockFirst s.schedule)

end Sys2Proof.Machine
end

