-- ==== Sys2Proof/Machine/Operands.lean ====
section
/-! DEFINITION. Every operand form of the instructions that is not a plain register or immediate (30_encoding.md R52;
43_index_memory.md): the index of a stack entry or key held in a byte, biased jump targets, the glyph address, the registers
of a block move and the decimal digits. -/

namespace Sys2Proof.Machine

/-- `VF` (R14). -/
def vf : RegIx := 15

/-- A byte as an index of 16 things, a stack entry (R18) or a key (R27); none at 16 or more. -/
def index16 (b : Byte) : Option (Fin 16) := if h : b.toNat < 16 then some ⟨b.toNat, h⟩ else none

/-- What a control transfer to `t` writes to `PC`: the step's advance adds the 2 again (R65). -/
def biased (t : Word) : Word := t - 2

/-- The target of `JP V0,nnn`, not reduced to 12 bits (R82). -/
def jumpSum (nnn : Addr12) (b : Byte) : Word := zext16 nnn + zext16 b

/-- The address of a hex digit's glyph: five bytes each, the whole byte used (R99). -/
def glyphAddress (b : Byte) : Word := 5 * zext16 b

/-- `V0` to `VF` in order. -/
def allRegs : List RegIx := [0, 1, 2, 3, 4, 5, 6, 7, 8, 9, 10, 11, 12, 13, 14, 15]

/-- `V0` to `Vx` in order: the registers of a block move (R15, R101, R102). -/
def regsUpTo (x : RegIx) : List RegIx := allRegs.take (x.val + 1)

/-- The values of some registers in order, or none if one is unset (R101). -/
def State.readVs (s : State) : List RegIx → Option (List Byte)
  | [] => some []
  | r :: rs =>
    match s.readV r, s.readVs rs with
    | some b, some bs => some (b :: bs)
    | _, _ => none

/-- Load some registers in order from the bytes at `a`, `a + 1` and so on (R102). -/
def State.loadVs (s : State) (a : Nat) : List RegIx → State
  | [] => s
  | r :: rs => (s.writeV r (s.memRead a)).loadVs (a + 1) rs

/-- The decimal digits of a byte: hundreds, tens, ones (R100). -/
def decimalDigits (b : Byte) : List Byte :=
  [BitVec.ofNat 8 (b.toNat / 100), BitVec.ofNat 8 (b.toNat / 10 % 10), BitVec.ofNat 8 (b.toNat % 10)]

end Sys2Proof.Machine
end

