-- ==== Sys2Proof/Machine/Flags.lean ====
section
/-! DEFINITION. Every flag computation (42_alu.md R83; 44_display.md R109). `VF` is the only flag (10_state.md R14, R22). -/

namespace Sys2Proof.Machine

/-- A flag as the byte written to `VF`. -/
def flagByte (b : Bool) : Byte := if b then 1 else 0

/-- The carry of an addition: the true sum exceeds 255 (R83, R91). -/
def carryOut (a b : Byte) : Bool := decide (255 < a.toNat + b.toNat)

/-- No borrow in `a - b`: the minuend is greater than or equal to the subtrahend (R83, R92). -/
def noBorrow (a b : Byte) : Bool := decide (b.toNat ≤ a.toNat)

/-- The bit a right shift moves out: the least significant (R94). -/
def shiftedOutRight (a : Byte) : Bool := a.getLsbD 0

/-- The bit a left shift moves out: bit 7 (R95). -/
def shiftedOutLeft (a : Byte) : Bool := a.getLsbD 7

/-- An operand of the result, in a state where `VF` has just been written: under `SEQUENTIAL` the register is read again in
that state, under `LATCHED` the value read before any write is used (R84, D4; log 18). -/
def State.resultOperand (afterFlag : State) (r : RegIx) (latched : Byte) : Byte :=
  match afterFlag.config.aluVfRead with
  | .sequential => (afterFlag.readV r).getD latched
  | .latched => latched

end Sys2Proof.Machine
end

