-- ==== Sys2Proof/Machine/Alu.lean ====
section
/-! DEFINITION. Register arithmetic and logic (42_alu.md). All of it is unsigned and mod 256 (R83). -/

namespace Sys2Proof.Machine

/-- `Vx <- f(Vx, Vy)`, with no flag. -/
def binaryOp (f : Byte → Byte → Byte) (x y : RegIx) (s : State) : Result :=
  needSet (s.readV x) s fun a => needSet (s.readV y) s fun b => .next (s.writeV x (f a b))

/-- `VF` first, then `Vx`, from the operands that `ALU_VF_READ` selects (R84): the shape of `SUB` and `SUBN`. -/
def flaggedBinary (flag : Byte → Byte → Bool) (f : Byte → Byte → Byte) (x y : RegIx) (s : State) : Result :=
  needSet (s.readV x) s fun a => needSet (s.readV y) s fun b =>
    let s1 := s.writeV vf (flagByte (flag a b))
    .next (s1.writeV x (f (s1.resultOperand x a) (s1.resultOperand y b)))

/-- The same shape with one operand: `SHR` and `SHL` (R84). -/
def flaggedUnary (flag : Byte → Bool) (f : Byte → Byte) (x : RegIx) (s : State) : Result :=
  needSet (s.readV x) s fun a =>
    let s1 := s.writeV vf (flagByte (flag a))
    .next (s1.writeV x (f (s1.resultOperand x a)))

/-- `LD Vx,kk` (R85). -/
def execLdVxKk (x : RegIx) (kk : Byte) (s : State) : Result := .next (s.writeV x kk)

/-- `ADD Vx,kk`, without carry (R86). -/
def execAddVxKk (x : RegIx) (kk : Byte) (s : State) : Result :=
  needSet (s.readV x) s fun a => .next (s.writeV x (a + kk))

/-- `LD Vx,Vy`: `Vx` is not read (R87). -/
def execLdVxVy (x y : RegIx) (s : State) : Result :=
  needSet (s.readV y) s fun b => .next (s.writeV x b)

/-- `OR Vx,Vy` (R88). -/
def execOrVxVy (x y : RegIx) (s : State) : Result := binaryOp (fun a b => a ||| b) x y s

/-- `AND Vx,Vy` (R89). -/
def execAndVxVy (x y : RegIx) (s : State) : Result := binaryOp (fun a b => a &&& b) x y s

/-- `XOR Vx,Vy` (R90). -/
def execXorVxVy (x y : RegIx) (s : State) : Result := binaryOp (fun a b => a ^^^ b) x y s

/-- `ADD Vx,Vy`: the sum is read before any write, under both values of `ALU_VF_READ`; `VF` first, then `Vx` (R84, R91). -/
def execAddVxVy (x y : RegIx) (s : State) : Result :=
  needSet (s.readV x) s fun a => needSet (s.readV y) s fun b =>
    .next ((s.writeV vf (flagByte (carryOut a b))).writeV x (a + b))

/-- `SUB Vx,Vy` (R92). -/
def execSubVxVy (x y : RegIx) (s : State) : Result :=
  flaggedBinary (fun a b => noBorrow a b) (fun a b => a - b) x y s

/-- `SUBN Vx,Vy` (R93). -/
def execSubnVxVy (x y : RegIx) (s : State) : Result :=
  flaggedBinary (fun a b => noBorrow b a) (fun a b => b - a) x y s

/-- `SHR Vx`: `y` is ignored and `Vy` is not read (R94). -/
def execShrVx (x _y : RegIx) (s : State) : Result := flaggedUnary shiftedOutRight (fun a => a >>> 1) x s

/-- `SHL Vx`: `y` is ignored and `Vy` is not read (R95). -/
def execShlVx (x _y : RegIx) (s : State) : Result := flaggedUnary shiftedOutLeft (fun a => a <<< 1) x s

/-- `RND Vx,kk`: a byte of the random oracle, ANDed with `kk` (R96; log 8). -/
def execRndVxKk (x : RegIx) (kk : Byte) (s : State) : Result :=
  .next ((s.setDraws (s.draws + 1)).writeV x (s.drawByte &&& kk))

end Sys2Proof.Machine
end

