-- ==== Sys2Proof/Machine/Display.lean ====
section
/-! DEFINITION. The framebuffer engine and its two instructions (44_display.md): `clear`, `drawSprite`, `push`, `CLS`, `DRW`. -/

namespace Sys2Proof.Machine

/-! ### Engine operations -/

/-- `FB[col][row]` of a grid. -/
def Grid.cell (g : Grid) (col : Fin screenColumns) (row : Fin screenRows) : Bool := (g.get col).get row

/-- The grid with one cell negated. -/
def Grid.toggle (g : Grid) (col : Fin screenColumns) (row : Fin screenRows) : Grid :=
  g.set col.val ((g.get col).set row.val (!(Grid.cell g col row)) row.isLt) col.isLt

/-- The grid with every cell unlit. -/
def Grid.unlit : Grid := Vector.replicate screenColumns (Vector.replicate screenRows false)

/-- What `drawSprite` holds while it runs: the grid, and its two flags (R104). -/
structure Draw where
  grid : Grid
  collision : Bool
  processed : Bool
  deriving DecidableEq, Repr

/-- Bit `j` of a sprite row, most significant first (R104). -/
def spriteBit (row : Byte) (j : Nat) : Bool := row.getLsbD (7 - j)

/-- A bit outside the grid, which clipping skips (R104). -/
def offGrid (cx cy : Nat) : Bool := decide (screenColumns ≤ cx) || decide (screenRows ≤ cy)

/-- One bit of a sprite at candidate coordinates (R104): skipped if clipped, else wrapped, processed, and XORed in. -/
def drawBit (clip : Bool) (cx cy : Nat) (bit : Bool) (d : Draw) : Draw :=
  if clip && offGrid cx cy then d
  else
    let col := Fin.ofNat screenColumns cx
    let row := Fin.ofNat screenRows cy
    { grid := if bit then Grid.toggle d.grid col row else d.grid
      collision := d.collision || (bit && Grid.cell d.grid col row)
      processed := true }

/-- The columns of a sprite row, left to right. -/
def spriteColumns : List Nat := [0, 1, 2, 3, 4, 5, 6, 7]

/-- One row of a sprite (R104). -/
def drawRow (clip : Bool) (x0 cy : Nat) (row : Byte) (d : Draw) : Draw :=
  spriteColumns.foldl (fun d j => drawBit clip (x0 + j) cy (spriteBit row j) d) d

/-- The rows of a sprite, top to bottom (R104). -/
def drawRows (clip : Bool) (x0 : Nat) : Nat → List Byte → Draw → Draw
  | _, [], d => d
  | cy, row :: rows, d => drawRows clip x0 (cy + 1) rows (drawRow clip x0 cy row d)

/-- `drawSprite(x0, y0, rows, clip)` on a grid: the grid after it, the collision flag, and whether any bit was processed
(R104). -/
def drawSprite (g : Grid) (x0 y0 : Byte) (rows : List Byte) (clip : Bool) : Draw :=
  drawRows clip x0.toNat y0.toNat rows { grid := g, collision := false, processed := false }

/-- `clear()`: `DIRTY` is set even if every cell was unlit (R103). -/
def State.clearScreen (s : State) : State := (s.setFb Grid.unlit).setDirty true

/-- `push()`: emit a copy of the grid if dirty, and clear `DIRTY` (R106). -/
def State.push (s : State) : State := if s.dirty then (s.emit (.present s.fb)).setDirty false else s

/-! ### Instructions -/

/-- `CLS` (R108). -/
def execCls (s : State) : Result := .next s.clearScreen

/-- `DRW Vx,Vy,n`: the coordinates are read before `VF` is written, and `VF` is written even for `n = 0` (R109). -/
def execDrwVxVyN (x y : RegIx) (n : Fin 16) (s : State) : Result :=
  needSet (s.readV x) s fun x0 => needSet (s.readV y) s fun y0 => needSet s.ireg s fun base =>
    let d := drawSprite s.fb x0 y0 (Memory.readRange s.mem base.toNat n.val) s.config.clipEdges
    .next (((s.setFb d.grid).setDirty (s.dirty || d.processed)).writeV vf (flagByte d.collision))

end Sys2Proof.Machine
end

