-- ==== Sys2Proof/Machine/Flow.lean ====
section
/-! DEFINITION. Control flow (41_flow.md). Each definition is the handler of its rule: it runs with `PC` at its own word, and
`State.finishStep` adds the 2 (R63). -/

namespace Sys2Proof.Machine

/-- A skip, when the condition holds: `PC <- trunc16(PC + 2)` (R72). -/
def skipIf (c : Bool) (s : State) : Result := .next (if c then s.setPc (s.pc + 2) else s)

/-- A control transfer to `t` (R65). -/
def jumpTo (t : Word) (s : State) : State := s.setPc (biased t)

/-- `SYS nnn`: no operation (R74). -/
def execSys (_nnn : Addr12) (s : State) : Result := .next s

/-- `RET`: `STACK_INDEX` is checked before the entry is read; the entry is not cleared (R75). -/
def execRet (s : State) : Result :=
  match index16 s.sp with
  | none => raiseFault .stackIndex s
  | some j => needSet (s.readStack j) s fun t => .next ((s.setPc t).setSp (s.sp - 1))

/-- `JP nnn` (R76). -/
def execJp (nnn : Addr12) (s : State) : Result := .next (jumpTo (zext16 nnn) s)

/-- `CALL nnn`: the entry at the incremented `SP` is given the address of this `CALL` (R77). -/
def execCall (nnn : Addr12) (s : State) : Result :=
  match index16 (s.sp + 1) with
  | none => raiseFault .stackIndex s
  | some j => .next (jumpTo (zext16 nnn) ((s.setSp (s.sp + 1)).writeStack j s.pc))

/-- `SE Vx,kk` (R78). -/
def execSeVxKk (x : RegIx) (kk : Byte) (s : State) : Result :=
  needSet (s.readV x) s fun a => skipIf (a == kk) s

/-- `SNE Vx,kk` (R79). -/
def execSneVxKk (x : RegIx) (kk : Byte) (s : State) : Result :=
  needSet (s.readV x) s fun a => skipIf (a != kk) s

/-- `SE Vx,Vy` (R80). -/
def execSeVxVy (x y : RegIx) (s : State) : Result :=
  needSet (s.readV x) s fun a => needSet (s.readV y) s fun b => skipIf (a == b) s

/-- `SNE Vx,Vy` (R81). -/
def execSneVxVy (x y : RegIx) (s : State) : Result :=
  needSet (s.readV x) s fun a => needSet (s.readV y) s fun b => skipIf (a != b) s

/-- `JP V0,nnn` (R82). -/
def execJpV0Nnn (nnn : Addr12) (s : State) : Result :=
  needSet (s.readV 0) s fun b => .next (jumpTo (jumpSum nnn b) s)

end Sys2Proof.Machine
end

