-- ==== Sys2Proof/Machine/IndexMemory.lean ====
section
/-! DEFINITION. The index register and memory (43_index_memory.md). No instruction here changes `I` before or after an access
(00_scope.md R4 (b)), and every address wraps (R34). -/

namespace Sys2Proof.Machine

/-- `LD I,nnn` (R97). -/
def execLdINnn (nnn : Addr12) (s : State) : Result := .next (s.writeI (zext16 nnn))

/-- `ADD I,Vx`: 16 bits, no flag (R98). -/
def execAddIVx (x : RegIx) (s : State) : Result :=
  needSet s.ireg s fun i => needSet (s.readV x) s fun b => .next (s.writeI (i + zext16 b))

/-- `LD F,Vx` (R99). -/
def execLdFVx (x : RegIx) (s : State) : Result :=
  needSet (s.readV x) s fun b => .next (s.writeI (glyphAddress b))

/-- `LD B,Vx`: both reads come before the first write (R100). -/
def execLdBVx (x : RegIx) (s : State) : Result :=
  needSet (s.readV x) s fun b => needSet s.ireg s fun base =>
    .next (s.setMem (Memory.writeRange s.mem base.toNat (decimalDigits b)))

/-- `LD [I],Vx`: all reads are checked before the first write (R101). -/
def execLdMemVx (x : RegIx) (s : State) : Result :=
  needSet s.ireg s fun base => needSet (s.readVs (regsUpTo x)) s fun bs =>
    .next (s.setMem (Memory.writeRange s.mem base.toNat bs))

/-- `LD Vx,[I]` (R102). -/
def execLdVxMem (x : RegIx) (s : State) : Result :=
  needSet s.ireg s fun base => .next (s.loadVs base.toNat (regsUpTo x))

end Sys2Proof.Machine
end

