-- ==== Sys2Proof/Machine/InputTimers.lean ====
section
/-! DEFINITION. Key input and timer instructions (45_input_timers.md). -/

namespace Sys2Proof.Machine

/-- `isPressed(v)`, then a skip on what `want` says of it: an index of 16 or more raises `KEY_INDEX` (R110, D9). -/
def skipOnKey (want : Bool → Bool) (b : Byte) (s : State) : Result :=
  match index16 b with
  | none => raiseFault .keyIndex s
  | some k => skipIf (want (s.readKey k)) s

/-- `SKP Vx`: `UNSET_READ` is checked before `KEY_INDEX` (R112). -/
def execSkpVx (x : RegIx) (s : State) : Result :=
  needSet (s.readV x) s fun b => skipOnKey (fun down => down) b s

/-- `SKNP Vx` (R113). -/
def execSknpVx (x : RegIx) (s : State) : Result :=
  needSet (s.readV x) s fun b => skipOnKey (fun down => !down) b s

/-- What the start of a key wait does to `PRESS_PENDING` (R114, D10). -/
def State.startWait (s : State) : State :=
  match s.config.keyWaitMode with
  | .newPressOnly => s.setPressPending false
  | .pendingSlot => s

/-- `LD Vx,K`, start step: push, and wait in `WAIT(x, k)`; `PC` keeps its value (R114). The completion is
`State.completeWait`. Outside `RUN(k)` no handler runs (log 11). -/
def execLdVxK (x : RegIx) (s : State) : Result :=
  match s.clock with
  | .run k => .next (s.push.startWait.setClock (.wait x k))
  | .wait _ _ => .fault .handlerOutsideRun
  | .blockEnd => .fault .handlerOutsideRun
  | .faulted _ _ _ => .fault .handlerOutsideRun
  | .stopped => .fault .handlerOutsideRun

/-- `LD Vx,DT` (R116). -/
def execLdVxDt (x : RegIx) (s : State) : Result := .next (s.writeV x s.dt)

/-- `LD DT,Vx` (R117). -/
def execLdDtVx (x : RegIx) (s : State) : Result :=
  needSet (s.readV x) s fun b => .next (s.setDt b)

/-- The tone event of writing `v` over `old` to `ST` (R118, D12, D30). -/
def toneEvent (c : Config) (old v : Byte) : Option Event :=
  if v ≠ 0 then some .startTone
  else if c.stZeroWriteStopsTone && old != 0 then some .stopTone
  else none

/-- Emit an event, if there is one. -/
def State.emitOption (s : State) : Option Event → State
  | some e => s.emit e
  | none => s

/-- `LD ST,Vx` (R118). -/
def execLdStVx (x : RegIx) (s : State) : Result :=
  needSet (s.readV x) s fun b => .next ((s.setSt b).emitOption (toneEvent s.config s.st b))

end Sys2Proof.Machine
end

