-- ==== Sys2Proof/Machine/Agents.lean ====
section
/-! DEFINITION. The steps of the three agents (60_exceptions.md R127): the instruction clock's instruction step, key-wait
completion and block end, the timer clock's tick, and the host's key events and stop; which of them are enabled, and whose
turn is next. -/

namespace Sys2Proof.Machine

/-! ### Instruction clock -/

/-- The instruction step of phase `RUN(k)` (40_step.md R63): fetch, decode, run the handler, advance. A decode miss has no
handler (R64). -/
def instructionStep (s : State) : Result :=
  match decode s.fetchWord with
  | some i => onNext State.finishStep (exec i s)
  | none => .next s.finishStep

/-- The completion step of `LD Vx,K` in phase `WAIT(x, k)`, taken when `PRESS_PENDING` is set (45_input_timers.md R115): the
key loaded is `LAST_KEY` as it stands now (D31). -/
def State.completeWait (s : State) (x : RegIx) (k : Fin stepsPerFiring) : Result :=
  match s.lastKey with
  | some key => .next (((s.writeV x (BitVec.ofNat 8 key.val)).setPressPending false).advance k)
  | none => .fault .lastKeyMissing

/-- The block-end step: push, then the next firing (40_step.md R67). -/
def State.endBlock (s : State) : State := s.push.setClock (.run 0)

/-- The turn of the instruction clock. In a phase with no enabled step the turn passes (R127; log 7). -/
def clockTurn (s : State) : Result :=
  match s.clock with
  | .run _ => instructionStep s
  | .wait x k => if s.pressPending then s.completeWait x k else .next s
  | .blockEnd => .next s.endBlock
  | .faulted _ _ _ => .next s
  | .stopped => .next s

/-! ### Timer clock -/

/-- A timer decremented by one, but not below 0 (R130). -/
def countDown (b : Byte) : Byte := if b = 0 then 0 else b - 1

/-- `tick()`: `StopTone` exactly when the tick takes `ST` to 0 (R130). -/
def State.tick (s : State) : State :=
  ((s.setDt (countDown s.dt)).setSt (countDown s.st)).emitOption (if s.st = 1 then some .stopTone else none)

/-- The turn of the timer clock. In phase `STOPPED` the turn passes (R127; log 7). -/
def timerTurn (s : State) : State :=
  match s.timer with
  | .running => s.tick
  | .stopped => s

/-! ### Host -/

/-- `keyEvent(k, pressed)`: a release changes only `KEY[k]` (R133). -/
def State.keyEvent (s : State) (k : KeyIx) (pressed : Bool) : State :=
  if pressed then ((s.writeKey k true).setLastKey k).setPressPending true else s.writeKey k false

/-- What `Stop` makes of the instruction clock's phase: `FAULTED` stays (40_step.md R69). -/
def ClockPhase.afterStop : ClockPhase → ClockPhase
  | .run _ => .stopped
  | .wait _ _ => .stopped
  | .blockEnd => .stopped
  | .faulted code pc word => .faulted code pc word
  | .stopped => .stopped

/-- `stop()` (R136). -/
def State.stop (s : State) : State := (s.setClock s.clock.afterStop).setTimer .stopped

/-! ### Turns -/

/-- The turn of one agent, as one atomic step (R127, R128). -/
def act (m : Move) (s : State) : Result :=
  match m with
  | .clock => clockTurn s
  | .tick => .next (timerTurn s)
  | .key k pressed => .next (s.keyEvent k pressed)
  | .stop => .next s.stop

/-- The instruction clock has an enabled step (R127). -/
def State.clockEnabled (s : State) : Bool :=
  match s.clock with
  | .run _ => true
  | .wait _ _ => s.pressPending
  | .blockEnd => true
  | .faulted _ _ _ => false
  | .stopped => false

/-- The timer clock has an enabled step (R127). -/
def State.timerEnabled (s : State) : Bool :=
  match s.timer with
  | .running => true
  | .stopped => false

/-- The agent of a move has an enabled step; the host always has (R127). -/
def State.enabled (s : State) : Move → Bool
  | .clock => s.clockEnabled
  | .tick => s.timerEnabled
  | .key _ _ => true
  | .stop => true

/-- The `n`-th run of free turns: any turns but a stop, which comes from the host alone, in `schedule` (R136,
R137; log 6). -/
def freeTurns (n : Nat) : List Move := (Config.freeTurns n).filter (fun m => m != .stop)

/-- The round that the machine schedules by itself: free turns, a turn of the instruction clock, free turns, and a tick. How many
of each come is free, and both clocks get a turn in every round (weak fairness, R129; log 6). -/
def State.fairRound (s : State) : List Move :=
  freeTurns (2 * s.round) ++ .clock :: (freeTurns (2 * s.round + 1) ++ [.tick])

/-- The turns to come: the schedule (log 5), or the next round when the schedule is empty and a clock has an enabled step. With
none enabled, only the host could move (log 13). -/
def State.turns (s : State) : List Move :=
  match s.schedule with
  | m :: l => m :: l
  | [] => if s.clockEnabled || s.timerEnabled then s.fairRound else []

/-- How many rounds the machine has scheduled by itself once the next turn is taken. -/
def State.nextRound (s : State) : Nat :=
  match s.schedule with
  | _ :: _ => s.round
  | [] => s.round + 1

/-- The turn that comes next. -/
def State.nextMove (s : State) : Option Move := s.turns.head?

/-- The state with the next turn taken from the turns to come. -/
def State.popTurn (s : State) : State := s.setTurns s.turns.tail s.nextRound

end Sys2Proof.Machine
end

