-- ==== Sys2Proof/Machine/Step.lean ====
section
/-! DEFINITION. One step of the machine: one atomic turn of the agent that comes next (60_exceptions.md R127 to R129), and
the placing of one instruction word where the next step fetches it. -/

namespace Sys2Proof.Machine

/-- One step: the next agent's turn. With no turn scheduled and no clock enabled, only the host could move (log 13). -/
def step (s : State) : Host.Outcome State Fault Refusal :=
  match s.nextMove with
  | some m => act m s.popTurn
  | none => .fault .noEnabledAgent

/-- The state with an instruction's word, numbered as spec/opcode_table.json numbers it, stored where the next step fetches
(log 14). -/
def State.withFetchWord (s : State) (nbits w : Nat) : State := s.placeWord (tableWord nbits w)

end Sys2Proof.Machine
end

