-- ==== Sys2Proof/Safety.lean ====
section
/-! DEFINITION. What claims about runs are stated in: the end of a run (60_exceptions.md R140), the launch premises
(70_reset_and_hazards.md R143), the well-formedness of a state, and runs under a weakly fair schedule (R129). -/

namespace Sys2Proof.Machine

/-- The run has ended well: the instruction clock is ready, and the word at `PC`, which is below 0x1000, is a jump to itself
(R140). -/
def State.ended (s : State) : Bool :=
  match s.clock with
  | .run _ => decide (s.pc.toNat < memSize) && s.fetchWord == 0x1000 + s.pc
  | .wait _ _ => false
  | .blockEnd => false
  | .faulted _ _ _ => false
  | .stopped => false

/-- The host has ended the run (R140). -/
def State.hostStopped (s : State) : Bool := s.clock == .stopped

/-- `NoFault`, at one state: the instruction clock is not in `FAULTED` (R143). -/
def State.noFault (s : State) : Bool :=
  match s.clock with
  | .run _ => true
  | .wait _ _ => true
  | .blockEnd => true
  | .faulted _ _ _ => false
  | .stopped => true

/-- `Clean` (R143). -/
def State.clean (s : State) : Bool := s.trace.isEmpty && !s.dirty && !s.pressPending && !toneOn s.trace

/-- `Launch(ROM, config)` (R143). -/
def State.launchedFrom (s : State) (rom : List Byte) (c : Config) : Prop := s = State.boot c rom

/-- Every `V` register, `I` and stack entry holds a value (R26). -/
def State.allSet (s : State) : Bool :=
  s.v.toList.all Option.isSome && s.ireg.isSome && s.stack.toList.all Option.isSome

/-- Under `RESET_POLICY = ZERO` no cell is ever unset (R26). -/
def State.policyKept (s : State) : Bool :=
  match s.config.resetPolicy with
  | .zero => s.allSet
  | .unset => true

/-- The reachable values of `SP` are 0..15 and 255 (R121). -/
def State.spLegal (s : State) : Bool := decide (s.sp.toNat < 16) || s.sp == 255

/-- A pending press has a last key: "never none here" (R115). -/
def State.pressHasKey (s : State) : Bool := !s.pressPending || s.lastKey.isSome

/-- The timer clock stops only by machine stop, which stops the instruction clock unless a fault already has (R29, R136). -/
def State.stopTogether (s : State) : Bool :=
  match s.timer, s.clock with
  | .running, .stopped => false
  | .running, _ => true
  | .stopped, .stopped => true
  | .stopped, .faulted _ _ _ => true
  | .stopped, _ => false

/-- A faulted instruction clock has reported its fault, and stands at the faulting word (R68). -/
def State.faultReported (s : State) : Bool :=
  match s.clock with
  | .faulted code pc word => s.trace.contains (.faultReport code pc word) && s.pc == pc
  | .run _ => true
  | .wait _ _ => true
  | .blockEnd => true
  | .stopped => true

/-- A run: the state after each turn, each turn one of an enabled agent (R127, R129). -/
structure Run where
  state : Nat → State
  move : Nat → Move
  enabled : ∀ n, (state n).enabled (move n) = true
  steps : ∀ n, act (move n) (state n) = .next (state (n + 1))

/-- Weak fairness of the two clocks: one whose step stays enabled is eventually scheduled (R129). Host moves are liberties. -/
def Run.weaklyFair (r : Run) : Prop :=
  ∀ m, (m = .clock ∨ m = .tick) → ∀ n, (∀ j, n ≤ j → (r.state j).enabled m = true) → ∃ j, n ≤ j ∧ r.move j = m

/-- An endless run of the machine's own steps, under the turns its state schedules (log 5, 6). -/
def stepsForever (r : Nat → State) : Prop := ∀ n, step (r n) = .next (r (n + 1))

/-! ### What statements about instructions say -/

/-- The word `w` at `PC` is the one the next step runs: the instruction clock is in `RUN(k)`, its turn is next, and `PC` holds
the address of `w` (R62, R63). -/
def State.atWord (s : State) (k : Fin stepsPerFiring) (w : Word) : Prop :=
  s.clock = .run k ∧ s.nextMove = some .clock ∧ s.fetchWord = w

/-- Instruction `i`, whose word is `w`, completes: its handler takes `s` to `t`, and a step that finds `w` at `PC` ends in `t`
with the final advance `PC <- PC + 2` and the next phase (R63). The turn taken, and the round it may begin, are the model's own
bookkeeping (log 5, 6). -/
def Completes (i : Instr) (w : Word) (s t : State) : Prop :=
  exec i s = .next t ∧
  ∀ k, s.atWord k w → step s = .next { t with pc := t.pc + 2, clock := nextPhase k,
                                              schedule := s.turns.tail, round := s.nextRound }

/-- Instruction `i`, whose word is `w`, raises `code`: it writes nothing, emits the report, and the instruction clock is
faulted at this word (R68). -/
def Raises (i : Instr) (w : Word) (s : State) (code : FaultCode) : Prop :=
  exec i s = .next { s with clock := .faulted code s.pc s.fetchWord,
                            trace := s.trace ++ [.faultReport code s.pc s.fetchWord] } ∧
  ∀ k, s.atWord k w → step s = .next { s with clock := .faulted code s.pc w,
                                              trace := s.trace ++ [.faultReport code s.pc w],
                                              schedule := s.turns.tail, round := s.nextRound }

/-- The `V` registers an instruction reads (R15, and the operands of each rule of 41_flow.md to 45_input_timers.md). -/
def readsV : Instr → List RegIx
  | .cls | .ret | .sys _ | .jp _ | .call _ | .ldVxKk _ _ | .ldINnn _ | .rndVxKk _ _ | .ldVxDt _ | .ldVxK _ | .ldVxMem _ => []
  | .seVxKk x _ | .sneVxKk x _ | .addVxKk x _ | .shrVx x _ | .shlVx x _ | .skpVx x | .sknpVx x | .ldDtVx x | .ldStVx x
  | .addIVx x | .ldFVx x | .ldBVx x => [x]
  | .ldVxVy _ y => [y]
  | .seVxVy x y | .orVxVy x y | .andVxVy x y | .xorVxVy x y | .addVxVy x y | .subVxVy x y | .subnVxVy x y | .sneVxVy x y
  | .drwVxVyN x y _ => [x, y]
  | .jpV0Nnn _ => [0]
  | .ldMemVx x => (List.finRange 16).filter (fun r => r ≤ x)

/-- An instruction reads `I` (R17). -/
def readsI : Instr → Bool
  | .addIVx _ | .drwVxVyN _ _ _ | .ldBVx _ | .ldMemVx _ | .ldVxMem _ => true
  | .cls | .ret | .sys _ | .jp _ | .call _ | .seVxKk _ _ | .sneVxKk _ _ | .seVxVy _ _ | .ldVxKk _ _ | .addVxKk _ _
  | .ldVxVy _ _ | .orVxVy _ _ | .andVxVy _ _ | .xorVxVy _ _ | .addVxVy _ _ | .subVxVy _ _ | .shrVx _ _ | .subnVxVy _ _
  | .shlVx _ _ | .sneVxVy _ _ | .ldINnn _ | .jpV0Nnn _ | .rndVxKk _ _ | .skpVx _ | .sknpVx _ | .ldVxDt _ | .ldVxK _
  | .ldDtVx _ | .ldStVx _ | .ldFVx _ => false

/-- An instruction reads an unset register (R26). -/
def readsUnset (i : Instr) (s : State) : Prop :=
  (∃ r, r ∈ readsV i ∧ s.readV r = none) ∨ (readsI i = true ∧ s.ireg = none)

/-- The causes of each fault code (60_exceptions.md R121), the first in pseudocode order winning (R122). -/
def FaultCause (i : Instr) (s : State) : FaultCode → Prop
  | .stackIndex => (i = .ret ∧ 16 ≤ s.sp.toNat) ∨ (∃ nnn, i = .call nnn ∧ 16 ≤ (s.sp.toNat + 1) % 256)
  | .unsetRead => readsUnset i s ∨ (i = .ret ∧ ∃ j : Fin 16, j.val = s.sp.toNat ∧ s.readStack j = none)
  | .keyIndex => ∃ x b, (i = .skpVx x ∨ i = .sknpVx x) ∧ s.readV x = some b ∧ 16 ≤ b.toNat

/-- The `V` registers an instruction writes: its named destination, the block of `LD Vx,[I]`, and `VF` where it is a flag
(10_state.md R14, R15). -/
def writesV (i : Instr) (r : RegIx) : Bool :=
  match i with
  | .ldVxKk x _ | .addVxKk x _ | .ldVxVy x _ | .orVxVy x _ | .andVxVy x _ | .xorVxVy x _ | .rndVxKk x _ | .ldVxDt x =>
    r == x
  | .addVxVy x _ | .subVxVy x _ | .shrVx x _ | .subnVxVy x _ | .shlVx x _ => r == x || r == 15
  | .drwVxVyN _ _ _ => r == 15
  | .ldVxMem x => decide (r ≤ x)
  | .cls | .ret | .sys _ | .jp _ | .call _ | .seVxKk _ _ | .sneVxKk _ _ | .seVxVy _ _ | .sneVxVy _ _ | .ldINnn _
  | .jpV0Nnn _ | .skpVx _ | .sknpVx _ | .ldVxK _ | .ldDtVx _ | .ldStVx _ | .addIVx _ | .ldFVx _ | .ldBVx _
  | .ldMemVx _ => false

/-- An instruction's handler writes `PC`: the transfers and the skips (41_flow.md R72, R73). -/
def writesPc : Instr → Bool
  | .ret | .jp _ | .call _ | .jpV0Nnn _ | .seVxKk _ _ | .sneVxKk _ _ | .seVxVy _ _ | .sneVxVy _ _ | .skpVx _ | .sknpVx _ =>
    true
  | .cls | .sys _ | .ldVxKk _ _ | .addVxKk _ _ | .ldVxVy _ _ | .orVxVy _ _ | .andVxVy _ _ | .xorVxVy _ _ | .addVxVy _ _
  | .subVxVy _ _ | .shrVx _ _ | .subnVxVy _ _ | .shlVx _ _ | .ldINnn _ | .rndVxKk _ _ | .drwVxVyN _ _ _ | .ldVxDt _
  | .ldVxK _ | .ldDtVx _ | .ldStVx _ | .addIVx _ | .ldFVx _ | .ldBVx _ | .ldMemVx _ | .ldVxMem _ => false

/-- A set bit of a sprite, drawn at `(x0, y0)`, lands on the cell (44_display.md R104): bit `j` of row `i` has candidate
coordinates `(x0 + j, y0 + i)`, which clipping drops when they are off the grid, and which otherwise wrap. -/
def SpriteHits (clip : Bool) (x0 y0 : Byte) (rows : List Byte) (col : Fin screenColumns) (row : Fin screenRows) : Prop :=
  ∃ i j, ∃ b : Byte, j < 8 ∧ rows[i]? = some b ∧ b.getLsbD (7 - j) = true ∧
    (clip = true → x0.toNat + j < 64 ∧ y0.toNat + i < 32) ∧
    (x0.toNat + j) % 64 = col.val ∧ (y0.toNat + i) % 32 = row.val

/-- Some bit of a sprite is processed: it is not skipped (44_display.md R104). -/
def SpriteProcessed (clip : Bool) (x0 y0 : Byte) (rows : List Byte) : Prop :=
  ∃ i j, j < 8 ∧ i < rows.length ∧ (clip = true → x0.toNat + j < 64 ∧ y0.toNat + i < 32)

/-- The invariant of the machine: memory is in canonical form, and the states are the ones the spec calls reachable (R26, R68,
R115, R121, R136). -/
def State.inv (s : State) : Bool :=
  Memory.wf s.mem && s.policyKept && s.spLegal && s.pressHasKey && s.stopTogether && s.faultReported

end Sys2Proof.Machine
end

