-- ==== Sys2Proof/Certificates/Slice0/Obligations.lean ====
section
/-! DEFINITION. The statements for the provers, from the numbered rules of spec/. `Completes` and `Raises` (Safety.lean) say of
an instruction what its handler does and what the whole step does when its word stands at `PC`. -/

open Sys2Proof Sys2Proof.Machine

/-! ### Encoding -/

/-- Decoding the word of a well-formed instruction gives it back, for every operand (30_encoding.md R50, R51, R54). -/
def Obligations.DecodeEncodeRoundTrip : Prop :=
  ∀ i : Instr, i.wellFormed = true → decode (encode i) = some i

/-- A word that decodes is the word of what it decodes to, so no bit of a word is dropped (R50, R54, R58). -/
def Obligations.EncodeDecodeRoundTrip : Prop :=
  ∀ (w : Word) (i : Instr), decode w = some i → i.wellFormed = true ∧ encode i = w

/-- R54: the first row, in row order, whose mask and match accept the word, with the word's fields; none if there is none;
`00E0` and `00EE` are `CLS` and `RET`, every other `0nnn` is `SYS`. That `SYS` has a row is the spec's own decision D2 (log
16). -/
def Obligations.DecodeTakesFirstMatchingRow : Prop :=
  (∀ (w : Word) (i : Instr), decode w = some i ↔
    ∃ (n : Nat) (op : Opcode), opcodes[n]? = some op ∧ w &&& op.signature.mask = op.signature.matchValue ∧ i = op.instr w ∧
      ∀ (m : Nat) (op' : Opcode), m < n → opcodes[m]? = some op' →
        w &&& op'.signature.mask ≠ op'.signature.matchValue) ∧
  (∀ w : Word, decode w = none ↔ ∀ op, op ∈ opcodes → w &&& op.signature.mask ≠ op.signature.matchValue) ∧
  decode 0x00E0#16 = some .cls ∧ decode 0x00EE#16 = some .ret ∧
  (∀ nnn : Addr12, nnn ≠ 0x0E0#12 → nnn ≠ 0x0EE#12 → decode (0x0#4 ++ nnn) = some (.sys nnn))

/-- No word is accepted by two of the 34 rows other than `SYS`, and `SYS` overlaps only `00E0` and `00EE` (R55). -/
def Obligations.OnlySysOverlapsOtherRows : Prop :=
  (∀ (w : Word) (op op' : Opcode), op ≠ .sys → op' ≠ .sys → op.signature.accepts w = true →
    op'.signature.accepts w = true → op = op') ∧
  (∀ (w : Word) (op : Opcode), op ≠ .sys → op.signature.accepts w = true → Opcode.sys.signature.accepts w = true →
    w = 0x00E0#16 ∨ w = 0x00EE#16)

/-- The decode misses are the words of the table of R57. -/
def Obligations.DecodeMissesAreTheListedWords : Prop :=
  ∀ w : Word, decode w = none ↔
    (w.toNat / 4096 = 5 ∧ w.toNat % 16 ≠ 0) ∨
    (w.toNat / 4096 = 8 ∧ w.toNat % 16 ∈ [8, 9, 0xA, 0xB, 0xC, 0xD, 0xF]) ∨
    (w.toNat / 4096 = 9 ∧ w.toNat % 16 ≠ 0) ∨
    (w.toNat / 4096 = 0xE ∧ w.toNat % 256 ∉ [0x9E, 0xA1]) ∨
    (w.toNat / 4096 = 0xF ∧ w.toNat % 256 ∉ [0x07, 0x0A, 0x15, 0x18, 0x1E, 0x29, 0x33, 0x55, 0x65])

/-- Words written out from R53 decode to their instructions; the first three are the source's own bytes. -/
def Obligations.WordsOfTheTableDecode : Prop :=
  decode 0x6005#16 = some (.ldVxKk 0 5) ∧ decode 0xA000#16 = some (.ldINnn 0) ∧ decode 0xD005#16 = some (.drwVxVyN 0 0 5) ∧
  decode 0x8AB7#16 = some (.subnVxVy 0xA 0xB) ∧ decode 0xBABC#16 = some (.jpV0Nnn 0xABC) ∧
  decode 0xEAA1#16 = some (.sknpVx 0xA) ∧ decode 0xFA55#16 = some (.ldMemVx 0xA) ∧ decode 0x5AB1#16 = none

/-! ### The instruction step and the instruction clock -/

/-- R63, R64: in `RUN(k)`, on the instruction clock's turn, a step runs the handler of the decoded word, and then advances
`PC` by 2 and the phase if the handler left `RUN(k)` as it was; a handler that faulted or blocked ends the step; a decode miss
only advances. -/
def Obligations.StepRunsDecodedInstruction : Prop :=
  ∀ (s : State) (k : Fin 10), s.clock = .run k → s.nextMove = some .clock →
    (∀ i t, decode s.fetchWord = some i → exec i s.popTurn = .next t →
      step s = .next (if t.clock = .run k then
        { t with pc := t.pc + 2, clock := if h : k.val + 1 < 10 then .run ⟨k.val + 1, h⟩ else .blockEnd } else t)) ∧
    (decode s.fetchWord = none →
      step s = .next { s.popTurn with pc := s.pc + 2, clock := if h : k.val + 1 < 10 then .run ⟨k.val + 1, h⟩ else .blockEnd })

/-- A scheduled turn is the one taken, and is taken from the schedule; with none scheduled and a clock enabled, the machine goes
on as if its next round were scheduled, which holds a turn of each clock between turns that are free. The model's convention:
logs 5 and 6. -/
def Obligations.ScheduledTurnIsTaken : Prop :=
  (∀ (s : State) (m : Move) (l : List Move), s.schedule = m :: l → step s = act m { s with schedule := l }) ∧
  (∀ s : State, s.schedule = [] → s.clockEnabled = true ∨ s.timerEnabled = true → ∃ l l' : List Move,
    .stop ∉ l ∧ .stop ∉ l' ∧ step s = step { s with schedule := l ++ .clock :: (l' ++ [.tick]), round := s.round + 1 })

/-- R67, R106: the block end pushes and starts the next firing; a push emits the grid and clears `DIRTY` when it is set, and
changes nothing when it is clear: the spec's own decision D15 (log 16). -/
def Obligations.BlockEndPushes : Prop :=
  (∀ s : State, s.dirty = true → s.push = { s with trace := s.trace ++ [.present s.fb], dirty := false }) ∧
  (∀ s : State, s.dirty = false → s.push = s) ∧
  (∀ s : State, s.clock = .blockEnd → s.nextMove = some .clock →
    step s = .next { s.push with clock := .run 0, schedule := s.turns.tail, round := s.nextRound })

/-- The transitions between the phases of the instruction clock (R28, R66, R67, R69, R114, R115): no other agent but a stop
changes the phase. That a turn of the clock with no enabled step (`WAIT` without a press, `FAULTED`, `STOPPED`) passes and
leaves the state as it is, is the model's choice: log 7. -/
def Obligations.ClockPhaseTransitions : Prop :=
  (∀ s t : State, act .clock s = .next t →
    match s.clock with
    | .run k => t.clock = nextPhase k ∨ (∃ x, decode s.fetchWord = some (.ldVxK x) ∧ t.clock = .wait x k) ∨
        (∃ code, t.clock = .faulted code s.pc s.fetchWord)
    | .wait _ k => if s.pressPending then t.clock = nextPhase k else t = s
    | .blockEnd => t.clock = .run 0
    | .faulted _ _ _ => t = s
    | .stopped => t = s) ∧
  (∀ s t : State, act .tick s = .next t → t.clock = s.clock) ∧
  (∀ (s t : State) (k : KeyIx) (p : Bool), act (.key k p) s = .next t → t.clock = s.clock) ∧
  (∀ s t : State, act .stop s = .next t → t.clock = .stopped ∨ (t.clock = s.clock ∧ ∃ c p w, s.clock = .faulted c p w))

/-! ### Faults -/

/-- The causes of each fault code, over every instruction in `RUN(k)` (R121, R122): an instruction ends faulted with a code
exactly when that code's cause holds. The codes and their order are the spec's own decisions D5, D6, D9 and D19 (log 16), and
that an unset cell faults whatever the policy is the model's reading (log 2). -/
def Obligations.FaultCodesHaveTheirCauses : Prop :=
  ∀ (i : Instr) (s : State) (k : Fin 10) (code : FaultCode), s.clock = .run k →
    ((∃ t p w, exec i s = .next t ∧ t.clock = .faulted code p w) ↔ FaultCause i s code)

/-- R68: a faulting instruction has no effect but its report and the phase `FAULTED(code, pc0, w)`, and in that phase no turn
of any agent changes the phase, a register, memory, the framebuffer or `DIRTY`, while the timer clock and the host go on: the
spec's own decision D18 (log 16). -/
def Obligations.FaultHasNoEffectAndIsFinal : Prop :=
  (∀ (i : Instr) (s t : State) (k : Fin 10) (code : FaultCode) (p w : Word), s.clock = .run k → exec i s = .next t →
    t.clock = .faulted code p w → p = s.pc ∧ w = s.fetchWord ∧
      t = { s with clock := .faulted code s.pc s.fetchWord, trace := s.trace ++ [.faultReport code s.pc s.fetchWord] }) ∧
  (∀ (m : Move) (s t : State) (code : FaultCode) (p w : Word), s.clock = .faulted code p w → act m s = .next t →
    s.clockEnabled = false ∧ t.clock = s.clock ∧ t.v = s.v ∧ t.ireg = s.ireg ∧ t.pc = s.pc ∧ t.sp = s.sp ∧
      t.stack = s.stack ∧ t.mem = s.mem ∧ t.fb = s.fb ∧ t.dirty = s.dirty) ∧
  (∀ (s : State) (code : FaultCode) (p w : Word), s.clock = .faulted code p w → s.timer = .running →
    s.timerEnabled = true ∧ act .tick s = .next s.tick ∧
      ∀ (k : KeyIx) (pressed : Bool), s.enabled (.key k pressed) = true ∧ act (.key k pressed) s = .next (s.keyEvent k pressed))

/-- Every instruction's handler answers a next state in `RUN(k)`, and outside it every one but that of `LD Vx,K` does
(60_exceptions.md R119: no instruction is illegal). That `LD Vx,K` stops outside `RUN(k)` is the model's choice: log 11. -/
def Obligations.EveryInstructionAnswers : Prop :=
  (∀ (i : Instr) (s : State) (k : Fin 10), s.clock = .run k → ∃ t, exec i s = .next t) ∧
  (∀ (i : Instr) (s : State), (∀ x, i ≠ .ldVxK x) → ∃ t, exec i s = .next t) ∧
  (∀ (x : RegIx) (s : State), (∀ k, s.clock ≠ .run k) → exec (.ldVxK x) s = .fault .handlerOutsideRun)

/-! ### Control flow -/

/-- R74: `SYS nnn` does nothing: the spec's own decision D2 (log 16). -/
def Obligations.SysDoesNothing : Prop :=
  ∀ (s : State) (nnn : Addr12), nnn ≠ 0x0E0#12 → nnn ≠ 0x0EE#12 → Completes (.sys nnn) (0x0#4 ++ nnn) s s

/-- R76, R82: a jump sets `PC` to its target less 2, so the step ends at the target; the sum of `JP V0,nnn` is not reduced to
12 bits. -/
def Obligations.JumpsReachTheirTargets : Prop :=
  (∀ (s : State) (nnn : Addr12), Completes (.jp nnn) (0x1#4 ++ nnn) s { s with pc := nnn.setWidth 16 - 2 }) ∧
  (∀ (s : State) (nnn : Addr12) (b : Byte), s.readV 0 = some b →
    Completes (.jpV0Nnn nnn) (0xB#4 ++ nnn) s { s with pc := BitVec.ofNat 16 (nnn.toNat + b.toNat) - 2 }) ∧
  (∀ (s : State) (nnn : Addr12), s.readV 0 = none → Raises (.jpV0Nnn nnn) (0xB#4 ++ nnn) s .unsetRead)

/-- R77: `CALL` stores its own address in the entry at the incremented `SP` and jumps; it faults when that index is 16 or
more, and from `SP = 255` it writes entry 0. The fault is the spec's own decision D5 (log 16). -/
def Obligations.CallPushesItsAddress : Prop :=
  (∀ (s : State) (nnn : Addr12) (h : (s.sp.toNat + 1) % 256 < 16),
    Completes (.call nnn) (0x2#4 ++ nnn) s
      { s with sp := s.sp + 1, stack := s.stack.set ((s.sp.toNat + 1) % 256) (some s.pc), pc := nnn.setWidth 16 - 2 }) ∧
  (∀ (s : State) (nnn : Addr12), 16 ≤ (s.sp.toNat + 1) % 256 → Raises (.call nnn) (0x2#4 ++ nnn) s .stackIndex)

/-- R75: `RET` takes `PC` from the entry at `SP`, which it does not clear, and decrements `SP`; `STACK_INDEX` comes before
`UNSET_READ`. The faults are the spec's own decisions D5 and D6 (log 16). -/
def Obligations.RetPopsTheAddress : Prop :=
  (∀ (s : State) (h : s.sp.toNat < 16) (t : Word), s.stack[s.sp.toNat] = some t →
    Completes .ret 0x00EE#16 s { s with pc := t, sp := s.sp - 1 }) ∧
  (∀ (s : State) (h : s.sp.toNat < 16), s.stack[s.sp.toNat] = none → Raises .ret 0x00EE#16 s .unsetRead) ∧
  (∀ s : State, 16 ≤ s.sp.toNat → Raises .ret 0x00EE#16 s .stackIndex)

/-- R72, R78, R79: the skips on an immediate. -/
def Obligations.SkipsOnImmediate : Prop :=
  (∀ (s : State) (x : RegIx) (kk a : Byte), s.readV x = some a →
    Completes (.seVxKk x kk) (0x3#4 ++ nibbleBits x ++ kk) s { s with pc := if a = kk then s.pc + 2 else s.pc } ∧
    Completes (.sneVxKk x kk) (0x4#4 ++ nibbleBits x ++ kk) s { s with pc := if a = kk then s.pc else s.pc + 2 }) ∧
  (∀ (s : State) (x : RegIx) (kk : Byte), s.readV x = none →
    Raises (.seVxKk x kk) (0x3#4 ++ nibbleBits x ++ kk) s .unsetRead ∧
    Raises (.sneVxKk x kk) (0x4#4 ++ nibbleBits x ++ kk) s .unsetRead)

/-- R72, R80, R81: the skips on two registers. -/
def Obligations.SkipsOnRegisters : Prop :=
  (∀ (s : State) (x y : RegIx) (a b : Byte), s.readV x = some a → s.readV y = some b →
    Completes (.seVxVy x y) (0x5#4 ++ nibbleBits x ++ nibbleBits y ++ 0x0#4) s
      { s with pc := if a = b then s.pc + 2 else s.pc } ∧
    Completes (.sneVxVy x y) (0x9#4 ++ nibbleBits x ++ nibbleBits y ++ 0x0#4) s
      { s with pc := if a = b then s.pc else s.pc + 2 }) ∧
  (∀ (s : State) (x y : RegIx), s.readV x = none ∨ s.readV y = none →
    Raises (.seVxVy x y) (0x5#4 ++ nibbleBits x ++ nibbleBits y ++ 0x0#4) s .unsetRead ∧
    Raises (.sneVxVy x y) (0x9#4 ++ nibbleBits x ++ nibbleBits y ++ 0x0#4) s .unsetRead)

/-- A `CALL` to a `RET`, run in turns of the instruction clock, resumes at the word after the `CALL`, with `SP`, `V`, `I` and
memory as they were (41_flow.md R75, R77; the source's property W6). When the `CALL` is step 9, the block end comes between
the two. -/
def Obligations.CallThenRetResumesAfterTheCall : Prop :=
  ∀ (s : State) (k : Fin 10) (nnn : Addr12), s.clock = .run k → s.fetchWord = 0x2#4 ++ nnn → (s.sp.toNat + 1) % 256 < 16 →
    s.memRead nnn.toNat = 0x00#8 → s.memRead (nnn.toNat + 1) = 0xEE#8 →
    ∃ t u, act .clock s = .next t ∧ t.pc = nnn.setWidth 16 ∧
      (k.val < 9 → act .clock t = .next u) ∧
      (k.val = 9 → ∃ b, t.clock = .blockEnd ∧ act .clock t = .next b ∧ act .clock b = .next u) ∧
      u.pc = s.pc + 2 ∧ u.sp = s.sp ∧ u.v = s.v ∧ u.ireg = s.ireg ∧ u.mem = s.mem

/-! ### Arithmetic and logic -/

/-- R85, R87: the loads of a register; `LD Vx,Vy` does not read `Vx`. -/
def Obligations.LoadsWriteOneRegister : Prop :=
  (∀ (s : State) (x : RegIx) (kk : Byte),
    Completes (.ldVxKk x kk) (0x6#4 ++ nibbleBits x ++ kk) s { s with v := s.v.set x (some kk) }) ∧
  (∀ (s : State) (x y : RegIx) (b : Byte), s.readV y = some b →
    Completes (.ldVxVy x y) (0x8#4 ++ nibbleBits x ++ nibbleBits y ++ 0x0#4) s { s with v := s.v.set x (some b) }) ∧
  (∀ (s : State) (x y : RegIx), s.readV y = none →
    Raises (.ldVxVy x y) (0x8#4 ++ nibbleBits x ++ nibbleBits y ++ 0x0#4) s .unsetRead)

/-- R86: `ADD Vx,kk` adds mod 256 and writes no flag. -/
def Obligations.AddImmediateHasNoCarry : Prop :=
  (∀ (s : State) (x : RegIx) (kk a : Byte), s.readV x = some a →
    Completes (.addVxKk x kk) (0x7#4 ++ nibbleBits x ++ kk) s
      { s with v := s.v.set x (some (BitVec.ofNat 8 (a.toNat + kk.toNat))) }) ∧
  (∀ (s : State) (x : RegIx) (kk : Byte), s.readV x = none →
    Raises (.addVxKk x kk) (0x7#4 ++ nibbleBits x ++ kk) s .unsetRead)

/-- R88, R89, R90: the bitwise operations write one register and no flag. -/
def Obligations.BitwiseOperationsLeaveVF : Prop :=
  (∀ (s : State) (x y : RegIx) (a b : Byte), s.readV x = some a → s.readV y = some b →
    Completes (.orVxVy x y) (0x8#4 ++ nibbleBits x ++ nibbleBits y ++ 0x1#4) s { s with v := s.v.set x (some (a ||| b)) } ∧
    Completes (.andVxVy x y) (0x8#4 ++ nibbleBits x ++ nibbleBits y ++ 0x2#4) s { s with v := s.v.set x (some (a &&& b)) } ∧
    Completes (.xorVxVy x y) (0x8#4 ++ nibbleBits x ++ nibbleBits y ++ 0x3#4) s { s with v := s.v.set x (some (a ^^^ b)) }) ∧
  (∀ (s : State) (x y : RegIx), s.readV x = none ∨ s.readV y = none →
    Raises (.orVxVy x y) (0x8#4 ++ nibbleBits x ++ nibbleBits y ++ 0x1#4) s .unsetRead ∧
    Raises (.andVxVy x y) (0x8#4 ++ nibbleBits x ++ nibbleBits y ++ 0x2#4) s .unsetRead ∧
    Raises (.xorVxVy x y) (0x8#4 ++ nibbleBits x ++ nibbleBits y ++ 0x3#4) s .unsetRead)

/-- R91: `ADD Vx,Vy` writes the carry to `VF` and then the sum to `Vx`, so `VF` ends as the sum when `x = F`. -/
def Obligations.AddRegistersSetsCarry : Prop :=
  (∀ (s : State) (x y : RegIx) (a b : Byte), s.readV x = some a → s.readV y = some b →
    Completes (.addVxVy x y) (0x8#4 ++ nibbleBits x ++ nibbleBits y ++ 0x4#4) s
      { s with v := (s.v.set 15 (some (if a.toNat + b.toNat > 255 then 1 else 0))).set x
                      (some (BitVec.ofNat 8 (a.toNat + b.toNat))) }) ∧
  (∀ (s : State) (x y : RegIx), s.readV x = none ∨ s.readV y = none →
    Raises (.addVxVy x y) (0x8#4 ++ nibbleBits x ++ nibbleBits y ++ 0x4#4) s .unsetRead)

/-- R84, R92, R93: `SUB` and `SUBN` write no-borrow to `VF` and then the difference to `Vx`, from the operands read before
any write under `LATCHED`, and read again after the `VF` write under `SEQUENTIAL`: the spec's own decision D4 (logs 16, 18). -/
def Obligations.SubtractionsSetNoBorrow : Prop :=
  (∀ (s : State) (x y : RegIx) (a b f : Byte), s.readV x = some a → s.readV y = some b →
    f = (if a.toNat ≥ b.toNat then 1 else 0) →
    (s.config.aluVfRead = .sequential →
      Completes (.subVxVy x y) (0x8#4 ++ nibbleBits x ++ nibbleBits y ++ 0x5#4) s
        { s with v := (s.v.set 15 (some f)).set x (some ((if x = 15 then f else a) - (if y = 15 then f else b))) }) ∧
    (s.config.aluVfRead = .latched →
      Completes (.subVxVy x y) (0x8#4 ++ nibbleBits x ++ nibbleBits y ++ 0x5#4) s
        { s with v := (s.v.set 15 (some f)).set x (some (a - b)) })) ∧
  (∀ (s : State) (x y : RegIx) (a b f : Byte), s.readV x = some a → s.readV y = some b →
    f = (if b.toNat ≥ a.toNat then 1 else 0) →
    (s.config.aluVfRead = .sequential →
      Completes (.subnVxVy x y) (0x8#4 ++ nibbleBits x ++ nibbleBits y ++ 0x7#4) s
        { s with v := (s.v.set 15 (some f)).set x (some ((if y = 15 then f else b) - (if x = 15 then f else a))) }) ∧
    (s.config.aluVfRead = .latched →
      Completes (.subnVxVy x y) (0x8#4 ++ nibbleBits x ++ nibbleBits y ++ 0x7#4) s
        { s with v := (s.v.set 15 (some f)).set x (some (b - a)) })) ∧
  (∀ (s : State) (x y : RegIx), s.readV x = none ∨ s.readV y = none →
    Raises (.subVxVy x y) (0x8#4 ++ nibbleBits x ++ nibbleBits y ++ 0x5#4) s .unsetRead ∧
    Raises (.subnVxVy x y) (0x8#4 ++ nibbleBits x ++ nibbleBits y ++ 0x7#4) s .unsetRead)

/-- R84, R94, R95: the shifts move `Vx` by one and write the bit shifted out to `VF`, whatever `y` and `Vy` are. The two
orders are the spec's own decision D4 (logs 16, 18). -/
def Obligations.ShiftsSetTheBitMovedOut : Prop :=
  (∀ (s : State) (x y : RegIx) (a f : Byte), s.readV x = some a → f = a &&& 1 →
    (s.config.aluVfRead = .sequential →
      Completes (.shrVx x y) (0x8#4 ++ nibbleBits x ++ nibbleBits y ++ 0x6#4) s
        { s with v := (s.v.set 15 (some f)).set x (some ((if x = 15 then f else a) >>> 1)) }) ∧
    (s.config.aluVfRead = .latched →
      Completes (.shrVx x y) (0x8#4 ++ nibbleBits x ++ nibbleBits y ++ 0x6#4) s
        { s with v := (s.v.set 15 (some f)).set x (some (a >>> 1)) })) ∧
  (∀ (s : State) (x y : RegIx) (a f : Byte), s.readV x = some a → f = (a >>> 7) &&& 1 →
    (s.config.aluVfRead = .sequential →
      Completes (.shlVx x y) (0x8#4 ++ nibbleBits x ++ nibbleBits y ++ 0xE#4) s
        { s with v := (s.v.set 15 (some f)).set x (some ((if x = 15 then f else a) <<< 1)) }) ∧
    (s.config.aluVfRead = .latched →
      Completes (.shlVx x y) (0x8#4 ++ nibbleBits x ++ nibbleBits y ++ 0xE#4) s
        { s with v := (s.v.set 15 (some f)).set x (some (a <<< 1)) })) ∧
  (∀ (s : State) (x y : RegIx), s.readV x = none →
    Raises (.shrVx x y) (0x8#4 ++ nibbleBits x ++ nibbleBits y ++ 0x6#4) s .unsetRead ∧
    Raises (.shlVx x y) (0x8#4 ++ nibbleBits x ++ nibbleBits y ++ 0xE#4) s .unsetRead)

/-- R96: `RND` writes some byte ANDed with `kk`, and nothing else; which byte the oracle gives is free (the spec's own decision
D17, log 16). The counter `draws` is the model's own bookkeeping: log 8. -/
def Obligations.RandomByteIsMasked : Prop :=
  ∀ (s : State) (x : RegIx) (kk : Byte), ∃ r : Byte,
    Completes (.rndVxKk x kk) (0xC#4 ++ nibbleBits x ++ kk) s
      { s with v := s.v.set x (some (r &&& kk)), draws := s.draws + 1 }

/-! ### Index register and memory -/

/-- R97, R98, R99: the writes of `I`; `ADD I,Vx` is 16 bits wide and sets no flag, `LD F,Vx` uses the whole byte. -/
def Obligations.IndexRegisterIsWritten : Prop :=
  (∀ (s : State) (nnn : Addr12), Completes (.ldINnn nnn) (0xA#4 ++ nnn) s { s with ireg := some (nnn.setWidth 16) }) ∧
  (∀ (s : State) (x : RegIx) (i : Word) (b : Byte), s.ireg = some i → s.readV x = some b →
    Completes (.addIVx x) (0xF#4 ++ nibbleBits x ++ 0x1E#8) s { s with ireg := some (BitVec.ofNat 16 (i.toNat + b.toNat)) }) ∧
  (∀ (s : State) (x : RegIx), s.ireg = none ∨ s.readV x = none →
    Raises (.addIVx x) (0xF#4 ++ nibbleBits x ++ 0x1E#8) s .unsetRead) ∧
  (∀ (s : State) (x : RegIx) (b : Byte), s.readV x = some b →
    Completes (.ldFVx x) (0xF#4 ++ nibbleBits x ++ 0x29#8) s { s with ireg := some (BitVec.ofNat 16 (5 * b.toNat)) }) ∧
  (∀ (s : State) (x : RegIx), s.readV x = none → Raises (.ldFVx x) (0xF#4 ++ nibbleBits x ++ 0x29#8) s .unsetRead)

/-- R100: `LD B,Vx` stores the decimal digits at `I`, `I + 1` and `I + 2`, each wrapped, and no other byte. -/
def Obligations.DecimalDigitsAreStored : Prop :=
  (∀ (s : State) (x : RegIx) (i : Word) (b : Byte), Memory.wf s.mem = true → s.ireg = some i → s.readV x = some b →
    ∃ m, Completes (.ldBVx x) (0xF#4 ++ nibbleBits x ++ 0x33#8) s { s with mem := m } ∧
      Memory.read m i.toNat = BitVec.ofNat 8 (b.toNat / 100) ∧
      Memory.read m (i.toNat + 1) = BitVec.ofNat 8 (b.toNat / 10 % 10) ∧
      Memory.read m (i.toNat + 2) = BitVec.ofNat 8 (b.toNat % 10) ∧
      ∀ a, (∀ k, k < 3 → a % 4096 ≠ (i.toNat + k) % 4096) → Memory.read m a = s.memRead a) ∧
  (∀ (s : State) (x : RegIx), s.ireg = none ∨ s.readV x = none →
    Raises (.ldBVx x) (0xF#4 ++ nibbleBits x ++ 0x33#8) s .unsetRead)

/-- R101: `LD [I],Vx` stores `V0` to `Vx` from `I` up, each address wrapped, and no other byte; `I` is unchanged. -/
def Obligations.RegistersAreStored : Prop :=
  (∀ (s : State) (x : RegIx) (i : Word), Memory.wf s.mem = true → s.ireg = some i →
    (∀ r : RegIx, r ≤ x → s.readV r ≠ none) →
    ∃ m, Completes (.ldMemVx x) (0xF#4 ++ nibbleBits x ++ 0x55#8) s { s with mem := m } ∧
      (∀ r : RegIx, r ≤ x → s.readV r = some (Memory.read m (i.toNat + r.val))) ∧
      ∀ a, (∀ k, k ≤ x.val → a % 4096 ≠ (i.toNat + k) % 4096) → Memory.read m a = s.memRead a) ∧
  (∀ (s : State) (x r : RegIx), s.ireg = none ∨ (r ≤ x ∧ s.readV r = none) →
    Raises (.ldMemVx x) (0xF#4 ++ nibbleBits x ++ 0x55#8) s .unsetRead)

/-- R102: `LD Vx,[I]` loads `V0` to `Vx` from `I` up, each address wrapped, and no other register; `I` is unchanged. -/
def Obligations.RegistersAreLoaded : Prop :=
  (∀ (s : State) (x : RegIx) (i : Word), s.ireg = some i →
    ∃ v, Completes (.ldVxMem x) (0xF#4 ++ nibbleBits x ++ 0x65#8) s { s with v := v } ∧
      ∀ r : RegIx, v.get r = if r ≤ x then some (s.memRead (i.toNat + r.val)) else s.readV r) ∧
  (∀ (s : State) (x : RegIx), s.ireg = none → Raises (.ldVxMem x) (0xF#4 ++ nibbleBits x ++ 0x65#8) s .unsetRead)

/-- R36: a write sets one byte, read back at every address congruent to it mod 4096, and changes nothing else; and it keeps
memory in its canonical form, which is the model's choice: log 20. -/
def Obligations.MemoryWriteSetsOneByte : Prop :=
  ∀ (s : State) (a c : Nat) (b : Byte), Memory.wf s.mem = true →
    (s.memWrite a b).memRead c = (if c % 4096 = a % 4096 then b else s.memRead c) ∧
    s.memWrite a b = { s with mem := (s.memWrite a b).mem } ∧ Memory.wf (s.memWrite a b).mem = true

/-- R37: `readRange` gives `n` bytes, each address wrapped separately. -/
def Obligations.ReadRangeWrapsEachAddress : Prop :=
  ∀ (m : Memory) (a n : Nat), (Memory.readRange m a n).length = n ∧
    ∀ k, k < n → (Memory.readRange m a n)[k]? = some (Memory.read m ((a + k) % 4096))

/-- R38: the fetched word is the byte at `PC` and the byte after it, high byte first, each address wrapped; reducing `PC + 1`
to 16 bits first changes nothing. -/
def Obligations.FetchIsBigEndian : Prop :=
  ∀ s : State, s.fetchWord.toNat = (s.memRead s.pc.toNat).toNat * 256 + (s.memRead (s.pc.toNat + 1)).toNat ∧
    s.memRead (s.pc.toNat + 1) = s.memRead (s.pc + 1).toNat

/-- A store into the next word is what the next step fetches (20_memory.md R47), for both instructions that store, `LD [I],Vx`
and `LD B,Vx`, from every `I`: each byte stored to `PC + 2` or `PC + 3`, mod 4096, is that byte of the next word fetched. -/
def Obligations.StoredWordIsFetchedNext : Prop :=
  (∀ (s : State) (k : Fin 10) (x : RegIx) (i : Word), s.atWord k (0xF#4 ++ nibbleBits x ++ 0x55#8) →
    Memory.wf s.mem = true → s.ireg = some i → (∀ r : RegIx, r ≤ x → s.readV r ≠ none) →
    ∃ t, step s = .next t ∧ t.pc = s.pc + 2 ∧ ∀ (r : RegIx) (b : Byte), r ≤ x → s.readV r = some b →
      ((i.toNat + r.val) % 4096 = (s.pc.toNat + 2) % 4096 → hiByte t.fetchWord = b) ∧
      ((i.toNat + r.val) % 4096 = (s.pc.toNat + 3) % 4096 → loByte t.fetchWord = b)) ∧
  (∀ (s : State) (k : Fin 10) (x : RegIx) (i : Word) (v : Byte), s.atWord k (0xF#4 ++ nibbleBits x ++ 0x33#8) →
    Memory.wf s.mem = true → s.ireg = some i → s.readV x = some v →
    ∃ t, step s = .next t ∧ t.pc = s.pc + 2 ∧ ∀ (j d : Nat), [v.toNat / 100, v.toNat / 10 % 10, v.toNat % 10][j]? = some d →
      ((i.toNat + j) % 4096 = (s.pc.toNat + 2) % 4096 → hiByte t.fetchWord = BitVec.ofNat 8 d) ∧
      ((i.toNat + j) % 4096 = (s.pc.toNat + 3) % 4096 → loByte t.fetchWord = BitVec.ofNat 8 d))

/-- R43: the ROM's first 0xE00 bytes are copied from 0x200; every other byte is zero, those below 0x200 too (R32, R42; the
spec's own decision D21, log 16). -/
def Obligations.RomIsLoadedFromTheEntryPoint : Prop :=
  ∀ (c : Config) (rom : List Byte) (a : Nat), a < 4096 →
    (State.boot c rom).memRead a =
      if 0x200 ≤ a ∧ a - 0x200 < min rom.length 0xE00 then rom.getD (a - 0x200) 0 else 0

/-! ### Reset -/

/-- R32, R141: what reset leaves, for every ROM and configuration: the table of R32, which rests on the spec's own decisions
D6, D7, D8 and D11 (log 16). -/
def Obligations.ResetLeavesTheTable : Prop :=
  ∀ (c : Config) (rom : List Byte), let s := State.boot c rom
    (∀ r : RegIx, s.readV r = if c.resetPolicy = .unset then none else some 0) ∧
    s.ireg = (if c.resetPolicy = .unset then none else some 0) ∧ s.pc = 0x0200#16 ∧ s.sp = 0 ∧
    (∀ j : Fin 16, s.readStack j = if c.resetPolicy = .unset then none else some 0) ∧ s.dt = 0 ∧ s.st = 0 ∧
    (∀ a, a < 4096 → s.memRead a =
      if 0x200 ≤ a ∧ a - 0x200 < min rom.length 0xE00 then rom.getD (a - 0x200) 0 else 0) ∧
    (∀ col row, Grid.cell s.fb col row = false) ∧ s.dirty = false ∧ (∀ k : KeyIx, s.readKey k = false) ∧
    s.lastKey = none ∧ s.pressPending = false ∧ s.clock = .run 0 ∧ s.timer = .running ∧ s.trace = [] ∧
    toneOn s.trace = false ∧ s.config = c

/-! ### Display -/

/-- R103, R108: `CLS` unlights every cell and sets `DIRTY`, even on a clear grid; `VF` is not written. -/
def Obligations.ClsUnlightsEveryCell : Prop :=
  ∀ s : State, ∃ g, (∀ col row, Grid.cell g col row = false) ∧
    Completes .cls 0x00E0#16 s { s with fb := g, dirty := true }

/-- R109: `DRW` draws the `n` bytes at `I` at the coordinates read before `VF` is written, then writes the collision to `VF`. -/
def Obligations.DrwDrawsAndSetsCollision : Prop :=
  (∀ (s : State) (x y : RegIx) (n : Fin 16) (x0 y0 : Byte) (i : Word), s.readV x = some x0 → s.readV y = some y0 →
    s.ireg = some i →
    let d := drawSprite s.fb x0 y0 ((List.range n.val).map fun k => s.memRead (i.toNat + k)) s.config.clipEdges
    Completes (.drwVxVyN x y n) (0xD#4 ++ nibbleBits x ++ nibbleBits y ++ nibbleBits n) s
      { s with fb := d.grid, dirty := s.dirty || d.processed, v := s.v.set 15 (some (if d.collision then 1 else 0)) }) ∧
  (∀ (s : State) (x y : RegIx) (n : Fin 16), s.readV x = none ∨ s.readV y = none ∨ s.ireg = none →
    Raises (.drwVxVyN x y n) (0xD#4 ++ nibbleBits x ++ nibbleBits y ++ nibbleBits n) s .unsetRead)

/-- `drawSprite` cell by cell (44_display.md R104): a cell is negated exactly when a set bit lands on it; there is a collision
exactly when one lands on a lit cell; a bit is processed exactly when it is not clipped. -/
def Obligations.DrawSpriteIsPointwiseXor : Prop :=
  ∀ (g : Grid) (x0 y0 : Byte) (rows : List Byte) (clip : Bool), rows.length ≤ 15 →
    (∀ col row, SpriteHits clip x0 y0 rows col row →
      Grid.cell (drawSprite g x0 y0 rows clip).grid col row = !(Grid.cell g col row)) ∧
    (∀ col row, ¬ SpriteHits clip x0 y0 rows col row →
      Grid.cell (drawSprite g x0 y0 rows clip).grid col row = Grid.cell g col row) ∧
    ((drawSprite g x0 y0 rows clip).collision = true ↔
      ∃ col row, SpriteHits clip x0 y0 rows col row ∧ Grid.cell g col row = true) ∧
    ((drawSprite g x0 y0 rows clip).processed = true ↔ SpriteProcessed clip x0 y0 rows)

/-- Drawing the same sprite twice at one place restores the grid, and the second call reports a collision exactly when the
first set a cell (44_display.md R105). -/
def Obligations.DrawingTwiceRestoresTheGrid : Prop :=
  ∀ (g : Grid) (x0 y0 : Byte) (rows : List Byte) (clip : Bool), rows.length ≤ 15 →
    (drawSprite (drawSprite g x0 y0 rows clip).grid x0 y0 rows clip).grid = g ∧
    ((drawSprite (drawSprite g x0 y0 rows clip).grid x0 y0 rows clip).collision = true ↔
      ∃ col row, Grid.cell g col row = false ∧ Grid.cell (drawSprite g x0 y0 rows clip).grid col row = true)

/-- R107: a frame is presented by a block end and by the start of `LD Vx,K`, and by no other turn of any agent. -/
def Obligations.FramesArePushedInTwoPlaces : Prop :=
  (∀ (m : Move) (s t : State) (g : Grid), act m s = .next t → t.trace = s.trace ++ [.present g] →
    m = .clock ∧ (s.clock = .blockEnd ∨ ∃ k x, s.clock = .run k ∧ decode s.fetchWord = some (.ldVxK x))) ∧
  (∀ s : State, s.dirty = true →
    (s.clock = .blockEnd ∨ ∃ k x, s.clock = .run k ∧ decode s.fetchWord = some (.ldVxK x)) →
    ∃ t, act .clock s = .next t ∧ t.trace = s.trace ++ [.present s.fb] ∧ t.dirty = false)

/-! ### Key input and timers -/

/-- R110, R112, R113: the skips on a key; an index of 16 or more faults, after an unset register: the spec's own decision D9
(log 16). -/
def Obligations.SkipsOnKeys : Prop :=
  (∀ (s : State) (x : RegIx) (b : Byte) (h : b.toNat < 16), s.readV x = some b →
    Completes (.skpVx x) (0xE#4 ++ nibbleBits x ++ 0x9E#8) s
      { s with pc := if s.keys[b.toNat] = true then s.pc + 2 else s.pc } ∧
    Completes (.sknpVx x) (0xE#4 ++ nibbleBits x ++ 0xA1#8) s
      { s with pc := if s.keys[b.toNat] = true then s.pc else s.pc + 2 }) ∧
  (∀ (s : State) (x : RegIx) (b : Byte), s.readV x = some b → 16 ≤ b.toNat →
    Raises (.skpVx x) (0xE#4 ++ nibbleBits x ++ 0x9E#8) s .keyIndex ∧
    Raises (.sknpVx x) (0xE#4 ++ nibbleBits x ++ 0xA1#8) s .keyIndex) ∧
  (∀ (s : State) (x : RegIx), s.readV x = none →
    Raises (.skpVx x) (0xE#4 ++ nibbleBits x ++ 0x9E#8) s .unsetRead ∧
    Raises (.sknpVx x) (0xE#4 ++ nibbleBits x ++ 0xA1#8) s .unsetRead)

/-- R114: the start of `LD Vx,K` pushes, clears `PRESS_PENDING` under `NEW_PRESS_ONLY`, and waits at its own word: the spec's
own decision D10 (log 16). -/
def Obligations.KeyWaitStarts : Prop :=
  ∀ (s t : State) (k : Fin 10) (x : RegIx), s.clock = .run k →
    t = { s with trace := if s.dirty then s.trace ++ [.present s.fb] else s.trace, dirty := false,
                 pressPending := if s.config.keyWaitMode = .newPressOnly then false else s.pressPending,
                 clock := .wait x k } →
    exec (.ldVxK x) s = .next t ∧
    (s.atWord k (0xF#4 ++ nibbleBits x ++ 0x0A#8) → step s = .next { t with schedule := s.turns.tail, round := s.nextRound })

/-- R115: in `WAIT(x, k)` the completion is enabled exactly when `PRESS_PENDING` is set; it loads the last key, clears
`PRESS_PENDING` and finishes the step: the spec's own decisions D10 and D31 (log 16). Without a press the clock's turn passes:
the model's choice, log 7. -/
def Obligations.KeyWaitCompletes : Prop :=
  (∀ (s : State) (x : RegIx) (k : Fin 10), s.clock = .wait x k → (s.clockEnabled = true ↔ s.pressPending = true)) ∧
  (∀ (s : State) (x : RegIx) (k : Fin 10) (key : KeyIx), s.clock = .wait x k → s.pressPending = true →
    s.lastKey = some key → s.nextMove = some .clock →
    step s = .next { s with v := s.v.set x (some (BitVec.ofNat 8 key.val)), pressPending := false, pc := s.pc + 2,
                            clock := nextPhase k, schedule := s.turns.tail, round := s.nextRound }) ∧
  (∀ (s : State) (x : RegIx) (k : Fin 10), s.clock = .wait x k → s.pressPending = false → act .clock s = .next s)

/-- R116, R117: the delay timer is read into a register and set from one. -/
def Obligations.DelayTimerIsReadAndSet : Prop :=
  (∀ (s : State) (x : RegIx),
    Completes (.ldVxDt x) (0xF#4 ++ nibbleBits x ++ 0x07#8) s { s with v := s.v.set x (some s.dt) }) ∧
  (∀ (s : State) (x : RegIx) (b : Byte), s.readV x = some b →
    Completes (.ldDtVx x) (0xF#4 ++ nibbleBits x ++ 0x15#8) s { s with dt := b }) ∧
  (∀ (s : State) (x : RegIx), s.readV x = none → Raises (.ldDtVx x) (0xF#4 ++ nibbleBits x ++ 0x15#8) s .unsetRead)

/-- R118: every positive write to `ST` starts the tone, and a write of zero over a positive `ST` stops it only if
`ST_ZERO_WRITE_STOPS_TONE` is set: the spec's own decisions D12 and D30 (log 16). -/
def Obligations.SoundTimerIsSetAndToned : Prop :=
  (∀ (s : State) (x : RegIx) (b : Byte), s.readV x = some b →
    Completes (.ldStVx x) (0xF#4 ++ nibbleBits x ++ 0x18#8) s
      { s with st := b, trace := s.trace ++ (if b ≠ 0 then [.startTone]
        else if s.config.stZeroWriteStopsTone = true ∧ s.st ≠ 0 then [.stopTone] else []) }) ∧
  (∀ (s : State) (x : RegIx), s.readV x = none → Raises (.ldStVx x) (0xF#4 ++ nibbleBits x ++ 0x18#8) s .unsetRead)

/-! ### The other agents -/

/-- R130: a tick decrements each timer that is above zero, and emits `StopTone` when `ST` reaches zero, and does nothing
else, and is enabled in every phase of the instruction clock; a stopped timer clock has no enabled step. -/
def Obligations.TickDecrementsTimers : Prop :=
  (∀ s : State, s.timer = .running → s.enabled .tick = true ∧
    act .tick s = .next { s with dt := BitVec.ofNat 8 (s.dt.toNat - 1), st := BitVec.ofNat 8 (s.st.toNat - 1),
                                 trace := s.trace ++ (if s.st.toNat = 1 then [.stopTone] else []) }) ∧
  (∀ s : State, s.timer = .stopped → s.enabled .tick = false)

/-- `n` ticks take each timer down by `n`, not below zero, and emit one `StopTone` if they take `ST` from a positive value to
zero, and none else (60_exceptions.md R131). -/
def Obligations.TicksCountDownToZero : Prop :=
  ∀ (n : Nat) (s : State),
    State.tick^[n] s = { s with dt := BitVec.ofNat 8 (s.dt.toNat - n), st := BitVec.ofNat 8 (s.st.toNat - n),
                                trace := s.trace ++ (if 0 < s.st.toNat ∧ s.st.toNat ≤ n then [.stopTone] else []) }

/-- R133: a press sets the key's bit, the last key and the pending press, a key already down too; a release clears only the
bit; both are allowed in every phase. `PRESS_PENDING` is the spec's own decision D10 (log 16). -/
def Obligations.KeyEventsChangeTheLatch : Prop :=
  ∀ (s : State) (k : KeyIx),
    act (.key k true) s = .next { s with keys := s.keys.set k true, lastKey := some k, pressPending := true } ∧
    act (.key k false) s = .next { s with keys := s.keys.set k false } ∧
    s.enabled (.key k true) = true ∧ s.enabled (.key k false) = true

/-- R69, R136: stop ends both clocks and changes nothing else; a fault stays; it is always enabled; a second stop changes
nothing; after it no turn emits an event or changes a clock: the spec's own decision D20 (log 16). -/
def Obligations.StopEndsBothClocks : Prop :=
  (∀ s t : State, act .stop s = .next t →
    t = { s with clock := t.clock, timer := .stopped } ∧ act .stop t = .next t ∧
    ((∃ c p w, s.clock = .faulted c p w ∧ t.clock = s.clock) ∨
      ((∀ c p w, s.clock ≠ .faulted c p w) ∧ t.clock = .stopped))) ∧
  (∀ s : State, s.enabled .stop = true ∧ ∃ t, act .stop s = .next t) ∧
  (∀ (m : Move) (s t : State), s.timer = .stopped → s.clockEnabled = false → (∀ x k, s.clock ≠ .wait x k) →
    act m s = .next t → t.trace = s.trace ∧ t.timer = .stopped ∧ t.clock = s.clock ∧ t.clockEnabled = false)

/-- What each agent may change (60_exceptions.md R127): the timer clock the timers and the trace, the host the latch or the
phases, the instruction clock never the keys, the last key, the timer clock's phase, the configuration or the schedule. -/
def Obligations.AgentsKeepToTheirState : Prop :=
  (∀ s t : State, act .tick s = .next t → t = { s with dt := t.dt, st := t.st, trace := t.trace }) ∧
  (∀ (s t : State) (k : KeyIx) (p : Bool), act (.key k p) s = .next t →
    t = { s with keys := t.keys, lastKey := t.lastKey, pressPending := t.pressPending }) ∧
  (∀ s t : State, act .stop s = .next t → t = { s with clock := t.clock, timer := t.timer }) ∧
  (∀ s t : State, act .clock s = .next t → t.keys = s.keys ∧ t.lastKey = s.lastKey ∧ t.timer = s.timer ∧
    t.config = s.config ∧ t.schedule = s.schedule ∧ t.round = s.round)

/-! ### Frames over all instructions -/

/-- An instruction changes no `V` register but those it writes (10_state.md R14, R15): its destination, the block of
`LD Vx,[I]`, and `VF` in the six that set a flag. -/
def Obligations.OnlyWrittenRegistersChange : Prop :=
  ∀ (i : Instr) (s t : State) (r : RegIx), exec i s = .next t → writesV i r = false → t.readV r = s.readV r

/-- Which instructions write each special register, memory, the framebuffer and the latch (10_state.md R16 to R21, R25, R27),
with every byte of memory unchanged by an instruction that stores nothing. -/
def Obligations.OnlyWritersChangeSpecialState : Prop :=
  ∀ (i : Instr) (s t : State), exec i s = .next t →
    (writesPc i = false → t.pc = s.pc) ∧
    ((∀ a, i ≠ .ldINnn a) → (∀ x, i ≠ .addIVx x) → (∀ x, i ≠ .ldFVx x) → t.ireg = s.ireg) ∧
    ((∀ a, i ≠ .call a) → i ≠ .ret → t.sp = s.sp) ∧ ((∀ a, i ≠ .call a) → t.stack = s.stack) ∧
    ((∀ x, i ≠ .ldDtVx x) → t.dt = s.dt) ∧ ((∀ x, i ≠ .ldStVx x) → t.st = s.st) ∧
    ((∀ x, i ≠ .ldBVx x) → (∀ x, i ≠ .ldMemVx x) → ∀ a, t.memRead a = s.memRead a) ∧
    (i ≠ .cls → (∀ x y n, i ≠ .drwVxVyN x y n) → t.fb = s.fb ∧ ((∀ x, i ≠ .ldVxK x) → t.dirty = s.dirty)) ∧
    ((∀ x, i ≠ .ldVxK x) → t.pressPending = s.pressPending) ∧ ((∀ x kk, i ≠ .rndVxKk x kk) → t.draws = s.draws) ∧
    t.keys = s.keys ∧ t.lastKey = s.lastKey ∧ t.timer = s.timer ∧ t.config = s.config ∧ t.schedule = s.schedule ∧
    t.round = s.round

/-- The trace only grows, by at most one event a turn (10_state.md R30). -/
def Obligations.TraceGrowsByAtMostOneEvent : Prop :=
  ∀ (m : Move) (s t : State), act m s = .next t → ∃ l, t.trace = s.trace ++ l ∧ l.length ≤ 1

/-! ### Invariants and runs -/

/-- The invariant holds after reset, for every ROM and configuration. -/
def Obligations.InvariantHoldsAtReset : Prop :=
  State.reset.inv = true ∧ ∀ (c : Config) (rom : List Byte), (State.boot c rom).inv = true

/-- Every step keeps the invariant: memory stays canonical; under `ZERO` no register, `I` or stack entry is unset (R26); `SP`
is 0..15 or 255 (R121); a pending press has a last key (R115); the timer clock stops only with the instruction clock (R29);
and a faulted clock has reported its fault and stands at its word (R68). -/
def Obligations.EveryStepKeepsTheInvariant : Prop :=
  ∀ s t : State, s.inv = true → step s = .next t → t.inv = true

/-- In a state that meets the invariant, a step stops only when no turn is scheduled and neither clock has an enabled step.
That it then stops is the model's choice: log 13. -/
def Obligations.StepStopsOnlyWithNoAgentEnabled : Prop :=
  ∀ s : State, s.inv = true → (∃ t, step s = .next t) ∨
    (step s = .fault .noEnabledAgent ∧ s.schedule = [] ∧ s.clockEnabled = false ∧ s.timerEnabled = false)

/-- Weak fairness (60_exceptions.md R129, the spec's own decision D14, log 16). In a weakly fair run without a stop, a pending
press is always consumed: the wait completes with the last key in `Vx`. And every endless run of the machine's own steps gives
each of the two clocks a turn again and again, so it is fair. That fairness is said of infinite runs, and how the machine
schedules itself, are the model's choices: logs 19 and 6. -/
def Obligations.PendingPressIsEventuallyConsumed : Prop :=
  (∀ (r : Run) (n : Nat) (x : RegIx) (k : Fin 10), r.weaklyFair → (r.state n).clock = .wait x k →
    (r.state n).pressPending = true → (∀ j, n ≤ j → r.move j ≠ .stop) →
    ∃ j key, n ≤ j ∧ (r.state j).clock = .wait x k ∧ (r.state j).lastKey = some key ∧
      (r.state (j + 1)).readV x = some (BitVec.ofNat 8 key.val) ∧ (r.state (j + 1)).clock = nextPhase k) ∧
  (∀ r : Nat → State, stepsForever r → ∀ n m, m = .clock ∨ m = .tick → ∃ j, n ≤ j ∧ (r j).nextMove = some m)

/-- At the end of a run (R140) the instruction clock runs the jump to itself again. A step in `RUN(k)` changes nothing but the
phase, and the end is an end in every `RUN` phase; the block end after step 9 emits the final frame if `DIRTY` is set, clears
`DIRTY`, and leaves an end again. That this is the end of a run is the spec's own decision D27 (log 16). -/
def Obligations.EndedRunsStayEnded : Prop :=
  ∀ (s : State) (k : Fin 10), s.ended = true → s.clock = .run k →
    act .clock s = .next { s with clock := nextPhase k } ∧
    (∀ j : Fin 10, { s with clock := .run j : State }.ended = true) ∧
    ∃ t, act .clock { s with clock := .blockEnd } = .next t ∧ t.ended = true ∧
      t = { s with clock := .run 0, dirty := false, trace := if s.dirty then s.trace ++ [.present s.fb] else s.trace }
end

