-- ==== Sys2Proof/Laws/Decode.lean ====
section
/-! SUPPORT. Words by their nibbles: when a signature accepts a word, the opcode a word matches, and the fields of a word, told
nibble by nibble (30_encoding.md R50, R51, R54). -/

namespace Sys2Proof

/-- Concatenation as arithmetic (R9). -/
theorem toNat_append_add {m n : Nat} (x : BitVec m) (y : BitVec n) : (x ++ y).toNat = x.toNat * 2 ^ n + y.toNat := by
  rw [BitVec.toNat_append, ← Nat.shiftLeft_add_eq_or_of_lt y.isLt, Nat.shiftLeft_eq]

/-- A nibble meets its place in a signature: it is the literal, or a field stands there. -/
def nibbleMeets (d : Option (BitVec 4)) (n : BitVec 4) : Bool :=
  match d with
  | some l => n == l
  | none => true

theorem and_maskNibble (d : Option (BitVec 4)) (n : BitVec 4) :
    decide (n &&& maskNibble d = d.getD 0) = nibbleMeets d n := by
  cases d with
  | none => simp [maskNibble, nibbleMeets]
  | some l =>
    have : n &&& 0xF#4 = n := BitVec.and_allOnes
    simp only [maskNibble, Option.isSome_some, if_true, this, Option.getD_some, nibbleMeets, beq_eq_decide]

theorem toNat_ofNibbles (a b c d : BitVec 4) :
    (ofNibbles a b c d).toNat = a.toNat * 4096 + b.toNat * 256 + c.toNat * 16 + d.toNat := by
  have hb := b.isLt; have hc := c.isLt; have hd := d.isLt
  simp only [ofNibbles, toNat_append_add]
  omega

theorem ofNibbles_and (a b c d a' b' c' d' : BitVec 4) :
    ofNibbles a b c d &&& ofNibbles a' b' c' d' = ofNibbles (a &&& a') (b &&& b') (c &&& c') (d &&& d') := by
  have h1 := BitVec.and_append (x₁ := a ++ b ++ c) (x₂ := a' ++ b' ++ c') (y₁ := d) (y₂ := d')
  have h2 := BitVec.and_append (x₁ := a ++ b) (x₂ := a' ++ b') (y₁ := c) (y₂ := c')
  have h3 := BitVec.and_append (x₁ := a) (x₂ := a') (y₁ := b) (y₂ := b')
  exact h1.trans (congrArg (· ++ (d &&& d')) (h2.trans (congrArg (· ++ (c &&& c')) h3)))

theorem ofNibbles_inj (a b c d a' b' c' d' : BitVec 4) :
    ofNibbles a b c d = ofNibbles a' b' c' d' ↔ a = a' ∧ b = b' ∧ c = c' ∧ d = d' := by
  rw [← BitVec.toNat_inj, toNat_ofNibbles, toNat_ofNibbles]
  simp only [← BitVec.toNat_inj]
  have := a.isLt; have := b.isLt; have := c.isLt; have := d.isLt
  have := a'.isLt; have := b'.isLt; have := c'.isLt; have := d'.isLt
  omega

/-- A signature accepts a word exactly when each nibble meets its place (R51). -/
theorem Signature.accepts_ofNibbles (s : Signature) (a b c d : BitVec 4) :
    s.accepts (ofNibbles a b c d) =
      (nibbleMeets s.d3 a && nibbleMeets s.d2 b && nibbleMeets s.d1 c && nibbleMeets s.d0 d) := by
  unfold Signature.accepts Signature.mask Signature.matchValue
  rw [ofNibbles_and, beq_eq_decide, ← and_maskNibble, ← and_maskNibble, ← and_maskNibble, ← and_maskNibble]
  simp only [ofNibbles_inj, Bool.decide_and, Bool.and_assoc]

/-! ### Fields of a word told by its nibbles (R50) -/

theorem fieldNnn_ofNibbles (a b c d : BitVec 4) : fieldNnn (ofNibbles a b c d) = b ++ c ++ d := by
  have hb := b.isLt; have hc := c.isLt; have hd := d.isLt
  apply BitVec.eq_of_toNat_eq
  simp only [fieldNnn, BitVec.extractLsb'_toNat, toNat_ofNibbles, toNat_append_add, Nat.shiftRight_zero]
  omega

theorem fieldKk_ofNibbles (a b c d : BitVec 4) : fieldKk (ofNibbles a b c d) = c ++ d := by
  have hb := b.isLt; have hc := c.isLt; have hd := d.isLt
  apply BitVec.eq_of_toNat_eq
  simp only [fieldKk, BitVec.extractLsb'_toNat, toNat_ofNibbles, toNat_append_add, Nat.shiftRight_zero]
  omega

theorem fieldX_ofNibbles (a b c d : BitVec 4) : fieldX (ofNibbles a b c d) = b.toFin := by
  have hb := b.isLt; have hc := c.isLt; have hd := d.isLt
  apply Fin.ext
  simp only [fieldX, nibble, BitVec.val_toFin, BitVec.extractLsb'_toNat, toNat_ofNibbles, Nat.shiftRight_eq_div_pow]
  omega

theorem fieldY_ofNibbles (a b c d : BitVec 4) : fieldY (ofNibbles a b c d) = c.toFin := by
  have hb := b.isLt; have hc := c.isLt; have hd := d.isLt
  apply Fin.ext
  simp only [fieldY, nibble, BitVec.val_toFin, BitVec.extractLsb'_toNat, toNat_ofNibbles, Nat.shiftRight_eq_div_pow]
  omega

theorem fieldN_ofNibbles (a b c d : BitVec 4) : fieldN (ofNibbles a b c d) = d.toFin := by
  have hb := b.isLt; have hc := c.isLt; have hd := d.isLt
  apply Fin.ext
  simp only [fieldN, nibble, BitVec.val_toFin, BitVec.extractLsb'_toNat, toNat_ofNibbles, Nat.shiftRight_eq_div_pow]
  omega

/-- The nibbles of a 12-bit address. -/
theorem Addr12.nibbles (v : Addr12) : ∃ b c d : BitVec 4, v = b ++ c ++ d :=
  ⟨v.extractLsb' 8 4, v.extractLsb' 4 4, v.extractLsb' 0 4, by
    apply BitVec.eq_of_toNat_eq
    have hv := v.isLt
    simp only [toNat_append_add, BitVec.extractLsb'_toNat, Nat.shiftRight_eq_div_pow]
    omega⟩

/-- The nibbles of a byte. -/
theorem Byte.nibbles (v : Byte) : ∃ c d : BitVec 4, v = c ++ d :=
  ⟨v.extractLsb' 4 4, v.extractLsb' 0 4, by
    apply BitVec.eq_of_toNat_eq
    have hv := v.isLt
    simp only [toNat_append_add, BitVec.extractLsb'_toNat, Nat.shiftRight_eq_div_pow]
    omega⟩


theorem append_nnn_nibbles (a b c d : BitVec 4) : (a ++ (b ++ c ++ d) : Word) = ofNibbles a b c d := by
  apply BitVec.eq_of_toNat_eq
  rw [toNat_ofNibbles, toNat_append_add, toNat_append_add, toNat_append_add]
  omega

theorem append_kk_nibbles (a b c d : BitVec 4) : (a ++ b ++ (c ++ d) : Word) = ofNibbles a b c d := by
  apply BitVec.eq_of_toNat_eq
  rw [toNat_ofNibbles, toNat_append_add, toNat_append_add, toNat_append_add]
  omega

/-- The literal low byte of a group E or F pattern, by its nibbles. -/
theorem append_lit_nibbles (a b : BitVec 4) (v : Byte) :
    (a ++ b ++ v : Word) = ofNibbles a b (v.extractLsb' 4 4) (v.extractLsb' 0 4) := by
  obtain ⟨c, d, h⟩ := Byte.nibbles v
  have hc : v.extractLsb' 4 4 = c := by subst h; exact BitVec.extractLsb'_append_eq_left
  have hd : v.extractLsb' 0 4 = d := by subst h; exact BitVec.extractLsb'_append_eq_right
  rw [hc, hd, h, append_kk_nibbles]

/-- The opcode a word matches, told by its nibbles: the first row whose literals they meet (R54). -/
theorem lookup_ofNibbles (a b c d : BitVec 4) :
    lookup (ofNibbles a b c d) = opcodes.find? (fun op => nibbleMeets op.signature.d3 a && nibbleMeets op.signature.d2 b &&
      nibbleMeets op.signature.d1 c && nibbleMeets op.signature.d0 d) := by
  simp only [lookup, Signature.accepts_ofNibbles]

end Sys2Proof
end

