-- ==== Sys2Proof/Laws/Memory.lean ====
section
/-! SUPPORT. The laws of memory: a read after a write (20_memory.md R36), and that every memory operation keeps the canonical
form. -/

namespace Sys2Proof.Machine

/-! ### Reading -/

/-- A listed address that is below every entry reads as unlisted. -/
theorem Memory.byteAt_of_lt_wfFrom : ∀ (m : Memory) (lo a : Nat), Memory.wfFrom lo m = true → a < lo →
    Memory.byteAt m a = Memory.unlisted
  | [], _, _, _, _ => rfl
  | (a', b') :: m, lo, a, h, hlt => by
    simp only [Memory.wfFrom, Bool.and_eq_true, decide_eq_true_eq] at h
    have hne : a ≠ a' := by omega
    simp only [Memory.byteAt, if_neg hne]
    exact Memory.byteAt_of_lt_wfFrom m (a' + 1) a h.2 (by omega)

/-- Reading after `consByte`, in a memory whose entries all lie above the new address. -/
theorem Memory.byteAt_consByte (m : Memory) (a c : Nat) (b : Byte) (h : Memory.wfFrom (a + 1) m = true) :
    Memory.byteAt (Memory.consByte a b m) c = if c = a then b else Memory.byteAt m c := by
  unfold Memory.consByte
  split
  · next hb =>
    split
    · next hc => subst hc; rw [Memory.byteAt_of_lt_wfFrom m (c + 1) c h (by omega), hb]
    · rfl
  · simp only [Memory.byteAt]

/-- A canonical memory stays so when its lower bound is lowered. -/
theorem Memory.wfFrom_mono (m : Memory) (lo lo' : Nat) (hl : lo' ≤ lo) (h : Memory.wfFrom lo m = true) :
    Memory.wfFrom lo' m = true := by
  cases m with
  | nil => rfl
  | cons e m =>
    obtain ⟨a, b⟩ := e
    simp only [Memory.wfFrom, Bool.and_eq_true, decide_eq_true_eq] at h ⊢
    exact ⟨⟨⟨by omega, h.1.1.2⟩, h.1.2⟩, h.2⟩

/-- The one law of `setByte`: the new byte at its address, the old bytes everywhere else. -/
theorem Memory.byteAt_setByte : ∀ (m : Memory) (lo a c : Nat) (b : Byte), Memory.wfFrom lo m = true →
    Memory.byteAt (Memory.setByte m a b) c = if c = a then b else Memory.byteAt m c
  | [], _, a, c, b, _ => Memory.byteAt_consByte [] a c b rfl
  | (a', b') :: m, lo, a, c, b, h => by
    have h0 := h
    simp only [Memory.wfFrom, Bool.and_eq_true, decide_eq_true_eq] at h
    simp only [Memory.setByte]
    split
    · next hlt =>
      refine Memory.byteAt_consByte _ a c b ?_
      simp only [Memory.wfFrom, Bool.and_eq_true, decide_eq_true_eq]
      exact ⟨⟨⟨by omega, h.1.1.2⟩, h.1.2⟩, h.2⟩
    · split
      · next heq =>
        subst heq
        rw [Memory.byteAt_consByte m a c b h.2]
        simp only [Memory.byteAt]
        split <;> rfl
      · next hne =>
        simp only [Memory.byteAt]
        rw [Memory.byteAt_setByte m (a' + 1) a c b h.2]
        by_cases hc : c = a'
        · have : c ≠ a := fun e => hne (e ▸ hc)
          rw [if_pos hc, if_neg this]; simp [hc]
        · rw [if_neg hc, if_neg hc]

/-! ### The canonical form -/

theorem Memory.wfFrom_consByte (m : Memory) (lo a : Nat) (b : Byte) (hlo : lo ≤ a) (ha : a < memSize)
    (h : Memory.wfFrom (a + 1) m = true) : Memory.wfFrom lo (Memory.consByte a b m) = true := by
  unfold Memory.consByte
  split
  · exact Memory.wfFrom_mono m (a + 1) lo (by omega) h
  · next hb =>
    simp only [Memory.wfFrom, Bool.and_eq_true, decide_eq_true_eq]
    exact ⟨⟨⟨hlo, ha⟩, hb⟩, h⟩

theorem Memory.wfFrom_setByte : ∀ (m : Memory) (lo a : Nat) (b : Byte), lo ≤ a → a < memSize →
    Memory.wfFrom lo m = true → Memory.wfFrom lo (Memory.setByte m a b) = true
  | [], lo, a, b, hlo, ha, _ => Memory.wfFrom_consByte [] lo a b hlo ha rfl
  | (a', b') :: m, lo, a, b, hlo, ha, h => by
    simp only [Memory.wfFrom, Bool.and_eq_true, decide_eq_true_eq] at h
    simp only [Memory.setByte]
    split
    · next hlt =>
      refine Memory.wfFrom_consByte _ lo a b hlo ha ?_
      simp only [Memory.wfFrom, Bool.and_eq_true, decide_eq_true_eq]
      exact ⟨⟨⟨by omega, h.1.1.2⟩, h.1.2⟩, h.2⟩
    · split
      · next heq => subst heq; exact Memory.wfFrom_consByte m lo a b hlo ha h.2
      · next hge hne =>
        simp only [Memory.wfFrom, Bool.and_eq_true, decide_eq_true_eq]
        exact ⟨⟨⟨h.1.1.1, h.1.1.2⟩, h.1.2⟩, Memory.wfFrom_setByte m (a' + 1) a b (by omega) ha h.2⟩

theorem Memory.wf_write (m : Memory) (a : Nat) (b : Byte) (h : Memory.wf m = true) :
    Memory.wf (Memory.write m a b) = true :=
  Memory.wfFrom_setByte m 0 _ b (Nat.zero_le _) (Nat.mod_lt _ (by decide)) h

theorem Memory.wf_writeRange : ∀ (bs : List Byte) (m : Memory) (a : Nat), Memory.wf m = true →
    Memory.wf (Memory.writeRange m a bs) = true
  | [], _, _, h => h
  | b :: bs, m, a, h => Memory.wf_writeRange bs _ (a + 1) (Memory.wf_write m a b h)

theorem Memory.wf_load (m : Memory) (rom : List Byte) (h : Memory.wf m = true) : Memory.wf (Memory.load m rom) = true :=
  Memory.wf_writeRange _ m romBase h

theorem State.reset_mem_wf : Memory.wf State.reset.mem = true := rfl

/-! ### Reading after a write -/

/-- A byte reads as written at every address congruent to it mod 4096, and every other byte is unchanged (R36). -/
theorem Memory.read_write (m : Memory) (a c : Nat) (b : Byte) (h : Memory.wf m = true) :
    Memory.read (Memory.write m a b) c = if c % memSize = a % memSize then b else Memory.read m c :=
  Memory.byteAt_setByte m 0 _ _ b h

/-- A byte outside the written range is unchanged. -/
theorem Memory.read_writeRange_outside : ∀ (bs : List Byte) (m : Memory) (a c : Nat), Memory.wf m = true →
    (∀ k, k < bs.length → c % memSize ≠ (a + k) % memSize) →
    Memory.read (Memory.writeRange m a bs) c = Memory.read m c
  | [], _, _, _, _, _ => rfl
  | b :: bs, m, a, c, h, hout => by
    rw [Memory.writeRange, Memory.read_writeRange_outside bs _ (a + 1) c (Memory.wf_write m a b h)
      (fun k hk => by simpa [Nat.add_assoc, Nat.add_comm 1 k] using hout (k + 1) (by simpa using hk)),
      Memory.read_write m a c b h, if_neg (by simpa using hout 0 (by simp))]

theorem Memory.length_readRange : ∀ (n : Nat) (m : Memory) (a : Nat), (Memory.readRange m a n).length = n
  | 0, _, _ => rfl
  | n + 1, m, a => by simp [Memory.readRange, Memory.length_readRange n]

end Sys2Proof.Machine
end

