-- ==== Sys2Proof/Laws/State.lean ====
section
/-! SUPPORT. One lemma per field and setter: the field it writes holds the new value, every other field is unchanged. All by
rfl. With the reads of registers, stack entries and keys after a write. -/

namespace Sys2Proof.Machine

variable (s : State)

/-! ### writeV -/

@[simp] theorem State.writeV_v (x : RegIx) (b : Byte) : (s.writeV x b).v = s.v.set x.val (some b) x.isLt := rfl
@[simp] theorem State.writeV_ireg (x : RegIx) (b : Byte) : (s.writeV x b).ireg = s.ireg := rfl
@[simp] theorem State.writeV_pc (x : RegIx) (b : Byte) : (s.writeV x b).pc = s.pc := rfl
@[simp] theorem State.writeV_sp (x : RegIx) (b : Byte) : (s.writeV x b).sp = s.sp := rfl
@[simp] theorem State.writeV_stack (x : RegIx) (b : Byte) : (s.writeV x b).stack = s.stack := rfl
@[simp] theorem State.writeV_dt (x : RegIx) (b : Byte) : (s.writeV x b).dt = s.dt := rfl
@[simp] theorem State.writeV_st (x : RegIx) (b : Byte) : (s.writeV x b).st = s.st := rfl
@[simp] theorem State.writeV_mem (x : RegIx) (b : Byte) : (s.writeV x b).mem = s.mem := rfl
@[simp] theorem State.writeV_fb (x : RegIx) (b : Byte) : (s.writeV x b).fb = s.fb := rfl
@[simp] theorem State.writeV_dirty (x : RegIx) (b : Byte) : (s.writeV x b).dirty = s.dirty := rfl
@[simp] theorem State.writeV_keys (x : RegIx) (b : Byte) : (s.writeV x b).keys = s.keys := rfl
@[simp] theorem State.writeV_lastKey (x : RegIx) (b : Byte) : (s.writeV x b).lastKey = s.lastKey := rfl
@[simp] theorem State.writeV_pressPending (x : RegIx) (b : Byte) : (s.writeV x b).pressPending = s.pressPending := rfl
@[simp] theorem State.writeV_clock (x : RegIx) (b : Byte) : (s.writeV x b).clock = s.clock := rfl
@[simp] theorem State.writeV_timer (x : RegIx) (b : Byte) : (s.writeV x b).timer = s.timer := rfl
@[simp] theorem State.writeV_trace (x : RegIx) (b : Byte) : (s.writeV x b).trace = s.trace := rfl
@[simp] theorem State.writeV_draws (x : RegIx) (b : Byte) : (s.writeV x b).draws = s.draws := rfl
@[simp] theorem State.writeV_schedule (x : RegIx) (b : Byte) : (s.writeV x b).schedule = s.schedule := rfl
@[simp] theorem State.writeV_round (x : RegIx) (b : Byte) : (s.writeV x b).round = s.round := rfl
@[simp] theorem State.writeV_config (x : RegIx) (b : Byte) : (s.writeV x b).config = s.config := rfl

/-! ### writeI -/

@[simp] theorem State.writeI_v (w : Word) : (s.writeI w).v = s.v := rfl
@[simp] theorem State.writeI_ireg (w : Word) : (s.writeI w).ireg = some w := rfl
@[simp] theorem State.writeI_pc (w : Word) : (s.writeI w).pc = s.pc := rfl
@[simp] theorem State.writeI_sp (w : Word) : (s.writeI w).sp = s.sp := rfl
@[simp] theorem State.writeI_stack (w : Word) : (s.writeI w).stack = s.stack := rfl
@[simp] theorem State.writeI_dt (w : Word) : (s.writeI w).dt = s.dt := rfl
@[simp] theorem State.writeI_st (w : Word) : (s.writeI w).st = s.st := rfl
@[simp] theorem State.writeI_mem (w : Word) : (s.writeI w).mem = s.mem := rfl
@[simp] theorem State.writeI_fb (w : Word) : (s.writeI w).fb = s.fb := rfl
@[simp] theorem State.writeI_dirty (w : Word) : (s.writeI w).dirty = s.dirty := rfl
@[simp] theorem State.writeI_keys (w : Word) : (s.writeI w).keys = s.keys := rfl
@[simp] theorem State.writeI_lastKey (w : Word) : (s.writeI w).lastKey = s.lastKey := rfl
@[simp] theorem State.writeI_pressPending (w : Word) : (s.writeI w).pressPending = s.pressPending := rfl
@[simp] theorem State.writeI_clock (w : Word) : (s.writeI w).clock = s.clock := rfl
@[simp] theorem State.writeI_timer (w : Word) : (s.writeI w).timer = s.timer := rfl
@[simp] theorem State.writeI_trace (w : Word) : (s.writeI w).trace = s.trace := rfl
@[simp] theorem State.writeI_draws (w : Word) : (s.writeI w).draws = s.draws := rfl
@[simp] theorem State.writeI_schedule (w : Word) : (s.writeI w).schedule = s.schedule := rfl
@[simp] theorem State.writeI_round (w : Word) : (s.writeI w).round = s.round := rfl
@[simp] theorem State.writeI_config (w : Word) : (s.writeI w).config = s.config := rfl

/-! ### setPc -/

@[simp] theorem State.setPc_v (w : Word) : (s.setPc w).v = s.v := rfl
@[simp] theorem State.setPc_ireg (w : Word) : (s.setPc w).ireg = s.ireg := rfl
@[simp] theorem State.setPc_pc (w : Word) : (s.setPc w).pc = w := rfl
@[simp] theorem State.setPc_sp (w : Word) : (s.setPc w).sp = s.sp := rfl
@[simp] theorem State.setPc_stack (w : Word) : (s.setPc w).stack = s.stack := rfl
@[simp] theorem State.setPc_dt (w : Word) : (s.setPc w).dt = s.dt := rfl
@[simp] theorem State.setPc_st (w : Word) : (s.setPc w).st = s.st := rfl
@[simp] theorem State.setPc_mem (w : Word) : (s.setPc w).mem = s.mem := rfl
@[simp] theorem State.setPc_fb (w : Word) : (s.setPc w).fb = s.fb := rfl
@[simp] theorem State.setPc_dirty (w : Word) : (s.setPc w).dirty = s.dirty := rfl
@[simp] theorem State.setPc_keys (w : Word) : (s.setPc w).keys = s.keys := rfl
@[simp] theorem State.setPc_lastKey (w : Word) : (s.setPc w).lastKey = s.lastKey := rfl
@[simp] theorem State.setPc_pressPending (w : Word) : (s.setPc w).pressPending = s.pressPending := rfl
@[simp] theorem State.setPc_clock (w : Word) : (s.setPc w).clock = s.clock := rfl
@[simp] theorem State.setPc_timer (w : Word) : (s.setPc w).timer = s.timer := rfl
@[simp] theorem State.setPc_trace (w : Word) : (s.setPc w).trace = s.trace := rfl
@[simp] theorem State.setPc_draws (w : Word) : (s.setPc w).draws = s.draws := rfl
@[simp] theorem State.setPc_schedule (w : Word) : (s.setPc w).schedule = s.schedule := rfl
@[simp] theorem State.setPc_round (w : Word) : (s.setPc w).round = s.round := rfl
@[simp] theorem State.setPc_config (w : Word) : (s.setPc w).config = s.config := rfl

/-! ### setSp -/

@[simp] theorem State.setSp_v (b : Byte) : (s.setSp b).v = s.v := rfl
@[simp] theorem State.setSp_ireg (b : Byte) : (s.setSp b).ireg = s.ireg := rfl
@[simp] theorem State.setSp_pc (b : Byte) : (s.setSp b).pc = s.pc := rfl
@[simp] theorem State.setSp_sp (b : Byte) : (s.setSp b).sp = b := rfl
@[simp] theorem State.setSp_stack (b : Byte) : (s.setSp b).stack = s.stack := rfl
@[simp] theorem State.setSp_dt (b : Byte) : (s.setSp b).dt = s.dt := rfl
@[simp] theorem State.setSp_st (b : Byte) : (s.setSp b).st = s.st := rfl
@[simp] theorem State.setSp_mem (b : Byte) : (s.setSp b).mem = s.mem := rfl
@[simp] theorem State.setSp_fb (b : Byte) : (s.setSp b).fb = s.fb := rfl
@[simp] theorem State.setSp_dirty (b : Byte) : (s.setSp b).dirty = s.dirty := rfl
@[simp] theorem State.setSp_keys (b : Byte) : (s.setSp b).keys = s.keys := rfl
@[simp] theorem State.setSp_lastKey (b : Byte) : (s.setSp b).lastKey = s.lastKey := rfl
@[simp] theorem State.setSp_pressPending (b : Byte) : (s.setSp b).pressPending = s.pressPending := rfl
@[simp] theorem State.setSp_clock (b : Byte) : (s.setSp b).clock = s.clock := rfl
@[simp] theorem State.setSp_timer (b : Byte) : (s.setSp b).timer = s.timer := rfl
@[simp] theorem State.setSp_trace (b : Byte) : (s.setSp b).trace = s.trace := rfl
@[simp] theorem State.setSp_draws (b : Byte) : (s.setSp b).draws = s.draws := rfl
@[simp] theorem State.setSp_schedule (b : Byte) : (s.setSp b).schedule = s.schedule := rfl
@[simp] theorem State.setSp_round (b : Byte) : (s.setSp b).round = s.round := rfl
@[simp] theorem State.setSp_config (b : Byte) : (s.setSp b).config = s.config := rfl

/-! ### writeStack -/

@[simp] theorem State.writeStack_v (j : Fin 16) (w : Word) : (s.writeStack j w).v = s.v := rfl
@[simp] theorem State.writeStack_ireg (j : Fin 16) (w : Word) : (s.writeStack j w).ireg = s.ireg := rfl
@[simp] theorem State.writeStack_pc (j : Fin 16) (w : Word) : (s.writeStack j w).pc = s.pc := rfl
@[simp] theorem State.writeStack_sp (j : Fin 16) (w : Word) : (s.writeStack j w).sp = s.sp := rfl
@[simp] theorem State.writeStack_stack (j : Fin 16) (w : Word) : (s.writeStack j w).stack = s.stack.set j.val (some w) j.isLt := rfl
@[simp] theorem State.writeStack_dt (j : Fin 16) (w : Word) : (s.writeStack j w).dt = s.dt := rfl
@[simp] theorem State.writeStack_st (j : Fin 16) (w : Word) : (s.writeStack j w).st = s.st := rfl
@[simp] theorem State.writeStack_mem (j : Fin 16) (w : Word) : (s.writeStack j w).mem = s.mem := rfl
@[simp] theorem State.writeStack_fb (j : Fin 16) (w : Word) : (s.writeStack j w).fb = s.fb := rfl
@[simp] theorem State.writeStack_dirty (j : Fin 16) (w : Word) : (s.writeStack j w).dirty = s.dirty := rfl
@[simp] theorem State.writeStack_keys (j : Fin 16) (w : Word) : (s.writeStack j w).keys = s.keys := rfl
@[simp] theorem State.writeStack_lastKey (j : Fin 16) (w : Word) : (s.writeStack j w).lastKey = s.lastKey := rfl
@[simp] theorem State.writeStack_pressPending (j : Fin 16) (w : Word) : (s.writeStack j w).pressPending = s.pressPending := rfl
@[simp] theorem State.writeStack_clock (j : Fin 16) (w : Word) : (s.writeStack j w).clock = s.clock := rfl
@[simp] theorem State.writeStack_timer (j : Fin 16) (w : Word) : (s.writeStack j w).timer = s.timer := rfl
@[simp] theorem State.writeStack_trace (j : Fin 16) (w : Word) : (s.writeStack j w).trace = s.trace := rfl
@[simp] theorem State.writeStack_draws (j : Fin 16) (w : Word) : (s.writeStack j w).draws = s.draws := rfl
@[simp] theorem State.writeStack_schedule (j : Fin 16) (w : Word) : (s.writeStack j w).schedule = s.schedule := rfl
@[simp] theorem State.writeStack_round (j : Fin 16) (w : Word) : (s.writeStack j w).round = s.round := rfl
@[simp] theorem State.writeStack_config (j : Fin 16) (w : Word) : (s.writeStack j w).config = s.config := rfl

/-! ### setDt -/

@[simp] theorem State.setDt_v (b : Byte) : (s.setDt b).v = s.v := rfl
@[simp] theorem State.setDt_ireg (b : Byte) : (s.setDt b).ireg = s.ireg := rfl
@[simp] theorem State.setDt_pc (b : Byte) : (s.setDt b).pc = s.pc := rfl
@[simp] theorem State.setDt_sp (b : Byte) : (s.setDt b).sp = s.sp := rfl
@[simp] theorem State.setDt_stack (b : Byte) : (s.setDt b).stack = s.stack := rfl
@[simp] theorem State.setDt_dt (b : Byte) : (s.setDt b).dt = b := rfl
@[simp] theorem State.setDt_st (b : Byte) : (s.setDt b).st = s.st := rfl
@[simp] theorem State.setDt_mem (b : Byte) : (s.setDt b).mem = s.mem := rfl
@[simp] theorem State.setDt_fb (b : Byte) : (s.setDt b).fb = s.fb := rfl
@[simp] theorem State.setDt_dirty (b : Byte) : (s.setDt b).dirty = s.dirty := rfl
@[simp] theorem State.setDt_keys (b : Byte) : (s.setDt b).keys = s.keys := rfl
@[simp] theorem State.setDt_lastKey (b : Byte) : (s.setDt b).lastKey = s.lastKey := rfl
@[simp] theorem State.setDt_pressPending (b : Byte) : (s.setDt b).pressPending = s.pressPending := rfl
@[simp] theorem State.setDt_clock (b : Byte) : (s.setDt b).clock = s.clock := rfl
@[simp] theorem State.setDt_timer (b : Byte) : (s.setDt b).timer = s.timer := rfl
@[simp] theorem State.setDt_trace (b : Byte) : (s.setDt b).trace = s.trace := rfl
@[simp] theorem State.setDt_draws (b : Byte) : (s.setDt b).draws = s.draws := rfl
@[simp] theorem State.setDt_schedule (b : Byte) : (s.setDt b).schedule = s.schedule := rfl
@[simp] theorem State.setDt_round (b : Byte) : (s.setDt b).round = s.round := rfl
@[simp] theorem State.setDt_config (b : Byte) : (s.setDt b).config = s.config := rfl

/-! ### setSt -/

@[simp] theorem State.setSt_v (b : Byte) : (s.setSt b).v = s.v := rfl
@[simp] theorem State.setSt_ireg (b : Byte) : (s.setSt b).ireg = s.ireg := rfl
@[simp] theorem State.setSt_pc (b : Byte) : (s.setSt b).pc = s.pc := rfl
@[simp] theorem State.setSt_sp (b : Byte) : (s.setSt b).sp = s.sp := rfl
@[simp] theorem State.setSt_stack (b : Byte) : (s.setSt b).stack = s.stack := rfl
@[simp] theorem State.setSt_dt (b : Byte) : (s.setSt b).dt = s.dt := rfl
@[simp] theorem State.setSt_st (b : Byte) : (s.setSt b).st = b := rfl
@[simp] theorem State.setSt_mem (b : Byte) : (s.setSt b).mem = s.mem := rfl
@[simp] theorem State.setSt_fb (b : Byte) : (s.setSt b).fb = s.fb := rfl
@[simp] theorem State.setSt_dirty (b : Byte) : (s.setSt b).dirty = s.dirty := rfl
@[simp] theorem State.setSt_keys (b : Byte) : (s.setSt b).keys = s.keys := rfl
@[simp] theorem State.setSt_lastKey (b : Byte) : (s.setSt b).lastKey = s.lastKey := rfl
@[simp] theorem State.setSt_pressPending (b : Byte) : (s.setSt b).pressPending = s.pressPending := rfl
@[simp] theorem State.setSt_clock (b : Byte) : (s.setSt b).clock = s.clock := rfl
@[simp] theorem State.setSt_timer (b : Byte) : (s.setSt b).timer = s.timer := rfl
@[simp] theorem State.setSt_trace (b : Byte) : (s.setSt b).trace = s.trace := rfl
@[simp] theorem State.setSt_draws (b : Byte) : (s.setSt b).draws = s.draws := rfl
@[simp] theorem State.setSt_schedule (b : Byte) : (s.setSt b).schedule = s.schedule := rfl
@[simp] theorem State.setSt_round (b : Byte) : (s.setSt b).round = s.round := rfl
@[simp] theorem State.setSt_config (b : Byte) : (s.setSt b).config = s.config := rfl

/-! ### setMem -/

@[simp] theorem State.setMem_v (m : Memory) : (s.setMem m).v = s.v := rfl
@[simp] theorem State.setMem_ireg (m : Memory) : (s.setMem m).ireg = s.ireg := rfl
@[simp] theorem State.setMem_pc (m : Memory) : (s.setMem m).pc = s.pc := rfl
@[simp] theorem State.setMem_sp (m : Memory) : (s.setMem m).sp = s.sp := rfl
@[simp] theorem State.setMem_stack (m : Memory) : (s.setMem m).stack = s.stack := rfl
@[simp] theorem State.setMem_dt (m : Memory) : (s.setMem m).dt = s.dt := rfl
@[simp] theorem State.setMem_st (m : Memory) : (s.setMem m).st = s.st := rfl
@[simp] theorem State.setMem_mem (m : Memory) : (s.setMem m).mem = m := rfl
@[simp] theorem State.setMem_fb (m : Memory) : (s.setMem m).fb = s.fb := rfl
@[simp] theorem State.setMem_dirty (m : Memory) : (s.setMem m).dirty = s.dirty := rfl
@[simp] theorem State.setMem_keys (m : Memory) : (s.setMem m).keys = s.keys := rfl
@[simp] theorem State.setMem_lastKey (m : Memory) : (s.setMem m).lastKey = s.lastKey := rfl
@[simp] theorem State.setMem_pressPending (m : Memory) : (s.setMem m).pressPending = s.pressPending := rfl
@[simp] theorem State.setMem_clock (m : Memory) : (s.setMem m).clock = s.clock := rfl
@[simp] theorem State.setMem_timer (m : Memory) : (s.setMem m).timer = s.timer := rfl
@[simp] theorem State.setMem_trace (m : Memory) : (s.setMem m).trace = s.trace := rfl
@[simp] theorem State.setMem_draws (m : Memory) : (s.setMem m).draws = s.draws := rfl
@[simp] theorem State.setMem_schedule (m : Memory) : (s.setMem m).schedule = s.schedule := rfl
@[simp] theorem State.setMem_round (m : Memory) : (s.setMem m).round = s.round := rfl
@[simp] theorem State.setMem_config (m : Memory) : (s.setMem m).config = s.config := rfl

/-! ### setFb -/

@[simp] theorem State.setFb_v (g : Grid) : (s.setFb g).v = s.v := rfl
@[simp] theorem State.setFb_ireg (g : Grid) : (s.setFb g).ireg = s.ireg := rfl
@[simp] theorem State.setFb_pc (g : Grid) : (s.setFb g).pc = s.pc := rfl
@[simp] theorem State.setFb_sp (g : Grid) : (s.setFb g).sp = s.sp := rfl
@[simp] theorem State.setFb_stack (g : Grid) : (s.setFb g).stack = s.stack := rfl
@[simp] theorem State.setFb_dt (g : Grid) : (s.setFb g).dt = s.dt := rfl
@[simp] theorem State.setFb_st (g : Grid) : (s.setFb g).st = s.st := rfl
@[simp] theorem State.setFb_mem (g : Grid) : (s.setFb g).mem = s.mem := rfl
@[simp] theorem State.setFb_fb (g : Grid) : (s.setFb g).fb = g := rfl
@[simp] theorem State.setFb_dirty (g : Grid) : (s.setFb g).dirty = s.dirty := rfl
@[simp] theorem State.setFb_keys (g : Grid) : (s.setFb g).keys = s.keys := rfl
@[simp] theorem State.setFb_lastKey (g : Grid) : (s.setFb g).lastKey = s.lastKey := rfl
@[simp] theorem State.setFb_pressPending (g : Grid) : (s.setFb g).pressPending = s.pressPending := rfl
@[simp] theorem State.setFb_clock (g : Grid) : (s.setFb g).clock = s.clock := rfl
@[simp] theorem State.setFb_timer (g : Grid) : (s.setFb g).timer = s.timer := rfl
@[simp] theorem State.setFb_trace (g : Grid) : (s.setFb g).trace = s.trace := rfl
@[simp] theorem State.setFb_draws (g : Grid) : (s.setFb g).draws = s.draws := rfl
@[simp] theorem State.setFb_schedule (g : Grid) : (s.setFb g).schedule = s.schedule := rfl
@[simp] theorem State.setFb_round (g : Grid) : (s.setFb g).round = s.round := rfl
@[simp] theorem State.setFb_config (g : Grid) : (s.setFb g).config = s.config := rfl

/-! ### setDirty -/

@[simp] theorem State.setDirty_v (b : Bool) : (s.setDirty b).v = s.v := rfl
@[simp] theorem State.setDirty_ireg (b : Bool) : (s.setDirty b).ireg = s.ireg := rfl
@[simp] theorem State.setDirty_pc (b : Bool) : (s.setDirty b).pc = s.pc := rfl
@[simp] theorem State.setDirty_sp (b : Bool) : (s.setDirty b).sp = s.sp := rfl
@[simp] theorem State.setDirty_stack (b : Bool) : (s.setDirty b).stack = s.stack := rfl
@[simp] theorem State.setDirty_dt (b : Bool) : (s.setDirty b).dt = s.dt := rfl
@[simp] theorem State.setDirty_st (b : Bool) : (s.setDirty b).st = s.st := rfl
@[simp] theorem State.setDirty_mem (b : Bool) : (s.setDirty b).mem = s.mem := rfl
@[simp] theorem State.setDirty_fb (b : Bool) : (s.setDirty b).fb = s.fb := rfl
@[simp] theorem State.setDirty_dirty (b : Bool) : (s.setDirty b).dirty = b := rfl
@[simp] theorem State.setDirty_keys (b : Bool) : (s.setDirty b).keys = s.keys := rfl
@[simp] theorem State.setDirty_lastKey (b : Bool) : (s.setDirty b).lastKey = s.lastKey := rfl
@[simp] theorem State.setDirty_pressPending (b : Bool) : (s.setDirty b).pressPending = s.pressPending := rfl
@[simp] theorem State.setDirty_clock (b : Bool) : (s.setDirty b).clock = s.clock := rfl
@[simp] theorem State.setDirty_timer (b : Bool) : (s.setDirty b).timer = s.timer := rfl
@[simp] theorem State.setDirty_trace (b : Bool) : (s.setDirty b).trace = s.trace := rfl
@[simp] theorem State.setDirty_draws (b : Bool) : (s.setDirty b).draws = s.draws := rfl
@[simp] theorem State.setDirty_schedule (b : Bool) : (s.setDirty b).schedule = s.schedule := rfl
@[simp] theorem State.setDirty_round (b : Bool) : (s.setDirty b).round = s.round := rfl
@[simp] theorem State.setDirty_config (b : Bool) : (s.setDirty b).config = s.config := rfl

/-! ### writeKey -/

@[simp] theorem State.writeKey_v (k : KeyIx) (b : Bool) : (s.writeKey k b).v = s.v := rfl
@[simp] theorem State.writeKey_ireg (k : KeyIx) (b : Bool) : (s.writeKey k b).ireg = s.ireg := rfl
@[simp] theorem State.writeKey_pc (k : KeyIx) (b : Bool) : (s.writeKey k b).pc = s.pc := rfl
@[simp] theorem State.writeKey_sp (k : KeyIx) (b : Bool) : (s.writeKey k b).sp = s.sp := rfl
@[simp] theorem State.writeKey_stack (k : KeyIx) (b : Bool) : (s.writeKey k b).stack = s.stack := rfl
@[simp] theorem State.writeKey_dt (k : KeyIx) (b : Bool) : (s.writeKey k b).dt = s.dt := rfl
@[simp] theorem State.writeKey_st (k : KeyIx) (b : Bool) : (s.writeKey k b).st = s.st := rfl
@[simp] theorem State.writeKey_mem (k : KeyIx) (b : Bool) : (s.writeKey k b).mem = s.mem := rfl
@[simp] theorem State.writeKey_fb (k : KeyIx) (b : Bool) : (s.writeKey k b).fb = s.fb := rfl
@[simp] theorem State.writeKey_dirty (k : KeyIx) (b : Bool) : (s.writeKey k b).dirty = s.dirty := rfl
@[simp] theorem State.writeKey_keys (k : KeyIx) (b : Bool) : (s.writeKey k b).keys = s.keys.set k.val b k.isLt := rfl
@[simp] theorem State.writeKey_lastKey (k : KeyIx) (b : Bool) : (s.writeKey k b).lastKey = s.lastKey := rfl
@[simp] theorem State.writeKey_pressPending (k : KeyIx) (b : Bool) : (s.writeKey k b).pressPending = s.pressPending := rfl
@[simp] theorem State.writeKey_clock (k : KeyIx) (b : Bool) : (s.writeKey k b).clock = s.clock := rfl
@[simp] theorem State.writeKey_timer (k : KeyIx) (b : Bool) : (s.writeKey k b).timer = s.timer := rfl
@[simp] theorem State.writeKey_trace (k : KeyIx) (b : Bool) : (s.writeKey k b).trace = s.trace := rfl
@[simp] theorem State.writeKey_draws (k : KeyIx) (b : Bool) : (s.writeKey k b).draws = s.draws := rfl
@[simp] theorem State.writeKey_schedule (k : KeyIx) (b : Bool) : (s.writeKey k b).schedule = s.schedule := rfl
@[simp] theorem State.writeKey_round (k : KeyIx) (b : Bool) : (s.writeKey k b).round = s.round := rfl
@[simp] theorem State.writeKey_config (k : KeyIx) (b : Bool) : (s.writeKey k b).config = s.config := rfl

/-! ### setLastKey -/

@[simp] theorem State.setLastKey_v (k : KeyIx) : (s.setLastKey k).v = s.v := rfl
@[simp] theorem State.setLastKey_ireg (k : KeyIx) : (s.setLastKey k).ireg = s.ireg := rfl
@[simp] theorem State.setLastKey_pc (k : KeyIx) : (s.setLastKey k).pc = s.pc := rfl
@[simp] theorem State.setLastKey_sp (k : KeyIx) : (s.setLastKey k).sp = s.sp := rfl
@[simp] theorem State.setLastKey_stack (k : KeyIx) : (s.setLastKey k).stack = s.stack := rfl
@[simp] theorem State.setLastKey_dt (k : KeyIx) : (s.setLastKey k).dt = s.dt := rfl
@[simp] theorem State.setLastKey_st (k : KeyIx) : (s.setLastKey k).st = s.st := rfl
@[simp] theorem State.setLastKey_mem (k : KeyIx) : (s.setLastKey k).mem = s.mem := rfl
@[simp] theorem State.setLastKey_fb (k : KeyIx) : (s.setLastKey k).fb = s.fb := rfl
@[simp] theorem State.setLastKey_dirty (k : KeyIx) : (s.setLastKey k).dirty = s.dirty := rfl
@[simp] theorem State.setLastKey_keys (k : KeyIx) : (s.setLastKey k).keys = s.keys := rfl
@[simp] theorem State.setLastKey_lastKey (k : KeyIx) : (s.setLastKey k).lastKey = some k := rfl
@[simp] theorem State.setLastKey_pressPending (k : KeyIx) : (s.setLastKey k).pressPending = s.pressPending := rfl
@[simp] theorem State.setLastKey_clock (k : KeyIx) : (s.setLastKey k).clock = s.clock := rfl
@[simp] theorem State.setLastKey_timer (k : KeyIx) : (s.setLastKey k).timer = s.timer := rfl
@[simp] theorem State.setLastKey_trace (k : KeyIx) : (s.setLastKey k).trace = s.trace := rfl
@[simp] theorem State.setLastKey_draws (k : KeyIx) : (s.setLastKey k).draws = s.draws := rfl
@[simp] theorem State.setLastKey_schedule (k : KeyIx) : (s.setLastKey k).schedule = s.schedule := rfl
@[simp] theorem State.setLastKey_round (k : KeyIx) : (s.setLastKey k).round = s.round := rfl
@[simp] theorem State.setLastKey_config (k : KeyIx) : (s.setLastKey k).config = s.config := rfl

/-! ### setPressPending -/

@[simp] theorem State.setPressPending_v (b : Bool) : (s.setPressPending b).v = s.v := rfl
@[simp] theorem State.setPressPending_ireg (b : Bool) : (s.setPressPending b).ireg = s.ireg := rfl
@[simp] theorem State.setPressPending_pc (b : Bool) : (s.setPressPending b).pc = s.pc := rfl
@[simp] theorem State.setPressPending_sp (b : Bool) : (s.setPressPending b).sp = s.sp := rfl
@[simp] theorem State.setPressPending_stack (b : Bool) : (s.setPressPending b).stack = s.stack := rfl
@[simp] theorem State.setPressPending_dt (b : Bool) : (s.setPressPending b).dt = s.dt := rfl
@[simp] theorem State.setPressPending_st (b : Bool) : (s.setPressPending b).st = s.st := rfl
@[simp] theorem State.setPressPending_mem (b : Bool) : (s.setPressPending b).mem = s.mem := rfl
@[simp] theorem State.setPressPending_fb (b : Bool) : (s.setPressPending b).fb = s.fb := rfl
@[simp] theorem State.setPressPending_dirty (b : Bool) : (s.setPressPending b).dirty = s.dirty := rfl
@[simp] theorem State.setPressPending_keys (b : Bool) : (s.setPressPending b).keys = s.keys := rfl
@[simp] theorem State.setPressPending_lastKey (b : Bool) : (s.setPressPending b).lastKey = s.lastKey := rfl
@[simp] theorem State.setPressPending_pressPending (b : Bool) : (s.setPressPending b).pressPending = b := rfl
@[simp] theorem State.setPressPending_clock (b : Bool) : (s.setPressPending b).clock = s.clock := rfl
@[simp] theorem State.setPressPending_timer (b : Bool) : (s.setPressPending b).timer = s.timer := rfl
@[simp] theorem State.setPressPending_trace (b : Bool) : (s.setPressPending b).trace = s.trace := rfl
@[simp] theorem State.setPressPending_draws (b : Bool) : (s.setPressPending b).draws = s.draws := rfl
@[simp] theorem State.setPressPending_schedule (b : Bool) : (s.setPressPending b).schedule = s.schedule := rfl
@[simp] theorem State.setPressPending_round (b : Bool) : (s.setPressPending b).round = s.round := rfl
@[simp] theorem State.setPressPending_config (b : Bool) : (s.setPressPending b).config = s.config := rfl

/-! ### setClock -/

@[simp] theorem State.setClock_v (p : ClockPhase) : (s.setClock p).v = s.v := rfl
@[simp] theorem State.setClock_ireg (p : ClockPhase) : (s.setClock p).ireg = s.ireg := rfl
@[simp] theorem State.setClock_pc (p : ClockPhase) : (s.setClock p).pc = s.pc := rfl
@[simp] theorem State.setClock_sp (p : ClockPhase) : (s.setClock p).sp = s.sp := rfl
@[simp] theorem State.setClock_stack (p : ClockPhase) : (s.setClock p).stack = s.stack := rfl
@[simp] theorem State.setClock_dt (p : ClockPhase) : (s.setClock p).dt = s.dt := rfl
@[simp] theorem State.setClock_st (p : ClockPhase) : (s.setClock p).st = s.st := rfl
@[simp] theorem State.setClock_mem (p : ClockPhase) : (s.setClock p).mem = s.mem := rfl
@[simp] theorem State.setClock_fb (p : ClockPhase) : (s.setClock p).fb = s.fb := rfl
@[simp] theorem State.setClock_dirty (p : ClockPhase) : (s.setClock p).dirty = s.dirty := rfl
@[simp] theorem State.setClock_keys (p : ClockPhase) : (s.setClock p).keys = s.keys := rfl
@[simp] theorem State.setClock_lastKey (p : ClockPhase) : (s.setClock p).lastKey = s.lastKey := rfl
@[simp] theorem State.setClock_pressPending (p : ClockPhase) : (s.setClock p).pressPending = s.pressPending := rfl
@[simp] theorem State.setClock_clock (p : ClockPhase) : (s.setClock p).clock = p := rfl
@[simp] theorem State.setClock_timer (p : ClockPhase) : (s.setClock p).timer = s.timer := rfl
@[simp] theorem State.setClock_trace (p : ClockPhase) : (s.setClock p).trace = s.trace := rfl
@[simp] theorem State.setClock_draws (p : ClockPhase) : (s.setClock p).draws = s.draws := rfl
@[simp] theorem State.setClock_schedule (p : ClockPhase) : (s.setClock p).schedule = s.schedule := rfl
@[simp] theorem State.setClock_round (p : ClockPhase) : (s.setClock p).round = s.round := rfl
@[simp] theorem State.setClock_config (p : ClockPhase) : (s.setClock p).config = s.config := rfl

/-! ### setTimer -/

@[simp] theorem State.setTimer_v (p : TimerPhase) : (s.setTimer p).v = s.v := rfl
@[simp] theorem State.setTimer_ireg (p : TimerPhase) : (s.setTimer p).ireg = s.ireg := rfl
@[simp] theorem State.setTimer_pc (p : TimerPhase) : (s.setTimer p).pc = s.pc := rfl
@[simp] theorem State.setTimer_sp (p : TimerPhase) : (s.setTimer p).sp = s.sp := rfl
@[simp] theorem State.setTimer_stack (p : TimerPhase) : (s.setTimer p).stack = s.stack := rfl
@[simp] theorem State.setTimer_dt (p : TimerPhase) : (s.setTimer p).dt = s.dt := rfl
@[simp] theorem State.setTimer_st (p : TimerPhase) : (s.setTimer p).st = s.st := rfl
@[simp] theorem State.setTimer_mem (p : TimerPhase) : (s.setTimer p).mem = s.mem := rfl
@[simp] theorem State.setTimer_fb (p : TimerPhase) : (s.setTimer p).fb = s.fb := rfl
@[simp] theorem State.setTimer_dirty (p : TimerPhase) : (s.setTimer p).dirty = s.dirty := rfl
@[simp] theorem State.setTimer_keys (p : TimerPhase) : (s.setTimer p).keys = s.keys := rfl
@[simp] theorem State.setTimer_lastKey (p : TimerPhase) : (s.setTimer p).lastKey = s.lastKey := rfl
@[simp] theorem State.setTimer_pressPending (p : TimerPhase) : (s.setTimer p).pressPending = s.pressPending := rfl
@[simp] theorem State.setTimer_clock (p : TimerPhase) : (s.setTimer p).clock = s.clock := rfl
@[simp] theorem State.setTimer_timer (p : TimerPhase) : (s.setTimer p).timer = p := rfl
@[simp] theorem State.setTimer_trace (p : TimerPhase) : (s.setTimer p).trace = s.trace := rfl
@[simp] theorem State.setTimer_draws (p : TimerPhase) : (s.setTimer p).draws = s.draws := rfl
@[simp] theorem State.setTimer_schedule (p : TimerPhase) : (s.setTimer p).schedule = s.schedule := rfl
@[simp] theorem State.setTimer_round (p : TimerPhase) : (s.setTimer p).round = s.round := rfl
@[simp] theorem State.setTimer_config (p : TimerPhase) : (s.setTimer p).config = s.config := rfl

/-! ### emit -/

@[simp] theorem State.emit_v (e : Event) : (s.emit e).v = s.v := rfl
@[simp] theorem State.emit_ireg (e : Event) : (s.emit e).ireg = s.ireg := rfl
@[simp] theorem State.emit_pc (e : Event) : (s.emit e).pc = s.pc := rfl
@[simp] theorem State.emit_sp (e : Event) : (s.emit e).sp = s.sp := rfl
@[simp] theorem State.emit_stack (e : Event) : (s.emit e).stack = s.stack := rfl
@[simp] theorem State.emit_dt (e : Event) : (s.emit e).dt = s.dt := rfl
@[simp] theorem State.emit_st (e : Event) : (s.emit e).st = s.st := rfl
@[simp] theorem State.emit_mem (e : Event) : (s.emit e).mem = s.mem := rfl
@[simp] theorem State.emit_fb (e : Event) : (s.emit e).fb = s.fb := rfl
@[simp] theorem State.emit_dirty (e : Event) : (s.emit e).dirty = s.dirty := rfl
@[simp] theorem State.emit_keys (e : Event) : (s.emit e).keys = s.keys := rfl
@[simp] theorem State.emit_lastKey (e : Event) : (s.emit e).lastKey = s.lastKey := rfl
@[simp] theorem State.emit_pressPending (e : Event) : (s.emit e).pressPending = s.pressPending := rfl
@[simp] theorem State.emit_clock (e : Event) : (s.emit e).clock = s.clock := rfl
@[simp] theorem State.emit_timer (e : Event) : (s.emit e).timer = s.timer := rfl
@[simp] theorem State.emit_trace (e : Event) : (s.emit e).trace = s.trace ++ [e] := rfl
@[simp] theorem State.emit_draws (e : Event) : (s.emit e).draws = s.draws := rfl
@[simp] theorem State.emit_schedule (e : Event) : (s.emit e).schedule = s.schedule := rfl
@[simp] theorem State.emit_round (e : Event) : (s.emit e).round = s.round := rfl
@[simp] theorem State.emit_config (e : Event) : (s.emit e).config = s.config := rfl

/-! ### setDraws -/

@[simp] theorem State.setDraws_v (n : Nat) : (s.setDraws n).v = s.v := rfl
@[simp] theorem State.setDraws_ireg (n : Nat) : (s.setDraws n).ireg = s.ireg := rfl
@[simp] theorem State.setDraws_pc (n : Nat) : (s.setDraws n).pc = s.pc := rfl
@[simp] theorem State.setDraws_sp (n : Nat) : (s.setDraws n).sp = s.sp := rfl
@[simp] theorem State.setDraws_stack (n : Nat) : (s.setDraws n).stack = s.stack := rfl
@[simp] theorem State.setDraws_dt (n : Nat) : (s.setDraws n).dt = s.dt := rfl
@[simp] theorem State.setDraws_st (n : Nat) : (s.setDraws n).st = s.st := rfl
@[simp] theorem State.setDraws_mem (n : Nat) : (s.setDraws n).mem = s.mem := rfl
@[simp] theorem State.setDraws_fb (n : Nat) : (s.setDraws n).fb = s.fb := rfl
@[simp] theorem State.setDraws_dirty (n : Nat) : (s.setDraws n).dirty = s.dirty := rfl
@[simp] theorem State.setDraws_keys (n : Nat) : (s.setDraws n).keys = s.keys := rfl
@[simp] theorem State.setDraws_lastKey (n : Nat) : (s.setDraws n).lastKey = s.lastKey := rfl
@[simp] theorem State.setDraws_pressPending (n : Nat) : (s.setDraws n).pressPending = s.pressPending := rfl
@[simp] theorem State.setDraws_clock (n : Nat) : (s.setDraws n).clock = s.clock := rfl
@[simp] theorem State.setDraws_timer (n : Nat) : (s.setDraws n).timer = s.timer := rfl
@[simp] theorem State.setDraws_trace (n : Nat) : (s.setDraws n).trace = s.trace := rfl
@[simp] theorem State.setDraws_draws (n : Nat) : (s.setDraws n).draws = n := rfl
@[simp] theorem State.setDraws_schedule (n : Nat) : (s.setDraws n).schedule = s.schedule := rfl
@[simp] theorem State.setDraws_round (n : Nat) : (s.setDraws n).round = s.round := rfl
@[simp] theorem State.setDraws_config (n : Nat) : (s.setDraws n).config = s.config := rfl

/-! ### setSchedule -/

@[simp] theorem State.setSchedule_v (l : List Move) : (s.setSchedule l).v = s.v := rfl
@[simp] theorem State.setSchedule_ireg (l : List Move) : (s.setSchedule l).ireg = s.ireg := rfl
@[simp] theorem State.setSchedule_pc (l : List Move) : (s.setSchedule l).pc = s.pc := rfl
@[simp] theorem State.setSchedule_sp (l : List Move) : (s.setSchedule l).sp = s.sp := rfl
@[simp] theorem State.setSchedule_stack (l : List Move) : (s.setSchedule l).stack = s.stack := rfl
@[simp] theorem State.setSchedule_dt (l : List Move) : (s.setSchedule l).dt = s.dt := rfl
@[simp] theorem State.setSchedule_st (l : List Move) : (s.setSchedule l).st = s.st := rfl
@[simp] theorem State.setSchedule_mem (l : List Move) : (s.setSchedule l).mem = s.mem := rfl
@[simp] theorem State.setSchedule_fb (l : List Move) : (s.setSchedule l).fb = s.fb := rfl
@[simp] theorem State.setSchedule_dirty (l : List Move) : (s.setSchedule l).dirty = s.dirty := rfl
@[simp] theorem State.setSchedule_keys (l : List Move) : (s.setSchedule l).keys = s.keys := rfl
@[simp] theorem State.setSchedule_lastKey (l : List Move) : (s.setSchedule l).lastKey = s.lastKey := rfl
@[simp] theorem State.setSchedule_pressPending (l : List Move) : (s.setSchedule l).pressPending = s.pressPending := rfl
@[simp] theorem State.setSchedule_clock (l : List Move) : (s.setSchedule l).clock = s.clock := rfl
@[simp] theorem State.setSchedule_timer (l : List Move) : (s.setSchedule l).timer = s.timer := rfl
@[simp] theorem State.setSchedule_trace (l : List Move) : (s.setSchedule l).trace = s.trace := rfl
@[simp] theorem State.setSchedule_draws (l : List Move) : (s.setSchedule l).draws = s.draws := rfl
@[simp] theorem State.setSchedule_schedule (l : List Move) : (s.setSchedule l).schedule = l := rfl
@[simp] theorem State.setSchedule_round (l : List Move) : (s.setSchedule l).round = s.round := rfl
@[simp] theorem State.setSchedule_config (l : List Move) : (s.setSchedule l).config = s.config := rfl

/-! ### setTurns -/

@[simp] theorem State.setTurns_v (l : List Move) (n : Nat) : (s.setTurns l n).v = s.v := rfl
@[simp] theorem State.setTurns_ireg (l : List Move) (n : Nat) : (s.setTurns l n).ireg = s.ireg := rfl
@[simp] theorem State.setTurns_pc (l : List Move) (n : Nat) : (s.setTurns l n).pc = s.pc := rfl
@[simp] theorem State.setTurns_sp (l : List Move) (n : Nat) : (s.setTurns l n).sp = s.sp := rfl
@[simp] theorem State.setTurns_stack (l : List Move) (n : Nat) : (s.setTurns l n).stack = s.stack := rfl
@[simp] theorem State.setTurns_dt (l : List Move) (n : Nat) : (s.setTurns l n).dt = s.dt := rfl
@[simp] theorem State.setTurns_st (l : List Move) (n : Nat) : (s.setTurns l n).st = s.st := rfl
@[simp] theorem State.setTurns_mem (l : List Move) (n : Nat) : (s.setTurns l n).mem = s.mem := rfl
@[simp] theorem State.setTurns_fb (l : List Move) (n : Nat) : (s.setTurns l n).fb = s.fb := rfl
@[simp] theorem State.setTurns_dirty (l : List Move) (n : Nat) : (s.setTurns l n).dirty = s.dirty := rfl
@[simp] theorem State.setTurns_keys (l : List Move) (n : Nat) : (s.setTurns l n).keys = s.keys := rfl
@[simp] theorem State.setTurns_lastKey (l : List Move) (n : Nat) : (s.setTurns l n).lastKey = s.lastKey := rfl
@[simp] theorem State.setTurns_pressPending (l : List Move) (n : Nat) : (s.setTurns l n).pressPending = s.pressPending := rfl
@[simp] theorem State.setTurns_clock (l : List Move) (n : Nat) : (s.setTurns l n).clock = s.clock := rfl
@[simp] theorem State.setTurns_timer (l : List Move) (n : Nat) : (s.setTurns l n).timer = s.timer := rfl
@[simp] theorem State.setTurns_trace (l : List Move) (n : Nat) : (s.setTurns l n).trace = s.trace := rfl
@[simp] theorem State.setTurns_draws (l : List Move) (n : Nat) : (s.setTurns l n).draws = s.draws := rfl
@[simp] theorem State.setTurns_schedule (l : List Move) (n : Nat) : (s.setTurns l n).schedule = l := rfl
@[simp] theorem State.setTurns_round (l : List Move) (n : Nat) : (s.setTurns l n).round = n := rfl
@[simp] theorem State.setTurns_config (l : List Move) (n : Nat) : (s.setTurns l n).config = s.config := rfl

/-! ### Reads after a write -/

@[simp] theorem State.readV_writeV_self (x : RegIx) (b : Byte) : (s.writeV x b).readV x = some b := by
  simp [State.readV, Vector.get_eq_getElem]

theorem State.readV_writeV_of_ne (x r : RegIx) (b : Byte) (h : r ≠ x) : (s.writeV x b).readV r = s.readV r := by
  simp only [State.readV, Vector.get_eq_getElem, State.writeV_v]
  exact Vector.getElem_set_ne x.isLt r.isLt (fun e => h (Fin.ext e.symm))

theorem State.readV_writeV (x r : RegIx) (b : Byte) :
    (s.writeV x b).readV r = if r = x then some b else s.readV r := by
  split
  · subst r; exact s.readV_writeV_self x b
  · exact s.readV_writeV_of_ne x r b ‹_›

@[simp] theorem State.readStack_writeStack_self (j : Fin 16) (w : Word) : (s.writeStack j w).readStack j = some w := by
  simp [State.readStack, Vector.get_eq_getElem]

theorem State.readStack_writeStack_of_ne (j r : Fin 16) (w : Word) (h : r ≠ j) :
    (s.writeStack j w).readStack r = s.readStack r := by
  simp only [State.readStack, Vector.get_eq_getElem, State.writeStack_stack]
  exact Vector.getElem_set_ne j.isLt r.isLt (fun e => h (Fin.ext e.symm))

@[simp] theorem State.readKey_writeKey_self (k : KeyIx) (b : Bool) : (s.writeKey k b).readKey k = b := by
  simp [State.readKey, Vector.get_eq_getElem]

theorem State.readKey_writeKey_of_ne (k r : KeyIx) (b : Bool) (h : r ≠ k) : (s.writeKey k b).readKey r = s.readKey r := by
  simp only [State.readKey, Vector.get_eq_getElem, State.writeKey_keys]
  exact Vector.getElem_set_ne k.isLt r.isLt (fun e => h (Fin.ext e.symm))

/-- A register read depends on the registers alone. -/
theorem State.readV_congr {s t : State} (h : t.v = s.v) (r : RegIx) : t.readV r = s.readV r := by
  simp only [State.readV, h]

/-- A byte read depends on memory alone. -/
theorem State.memRead_congr {s t : State} (h : t.mem = s.mem) (a : Nat) : t.memRead a = s.memRead a := by
  simp only [State.memRead, h]

/-- The fetched word depends on memory and `PC` alone. -/
theorem State.fetchWord_congr {s t : State} (hm : t.mem = s.mem) (hp : t.pc = s.pc) : t.fetchWord = s.fetchWord := by
  simp only [State.fetchWord, State.memRead, hm, hp]

end Sys2Proof.Machine
end

