-- ==== Sys2Proof/Laws/Ops.lean ====
section
/-! SUPPORT. One lemma per shared operation, saying once everything it can do: checked reads and faults, the advance, indices,
block moves, the framebuffer's cells, the push, and the optional tone event. -/

namespace Sys2Proof.Machine

/-! ### Faults and checked reads (R26, R68) -/

@[simp] theorem State.faulted_clock (s : State) (c : FaultCode) : (s.faulted c).clock = .faulted c s.pc s.fetchWord := rfl
@[simp] theorem State.faulted_trace (s : State) (c : FaultCode) :
    (s.faulted c).trace = s.trace ++ [.faultReport c s.pc s.fetchWord] := rfl
@[simp] theorem State.faulted_v (s : State) (c : FaultCode) : (s.faulted c).v = s.v := rfl
@[simp] theorem State.faulted_ireg (s : State) (c : FaultCode) : (s.faulted c).ireg = s.ireg := rfl
@[simp] theorem State.faulted_pc (s : State) (c : FaultCode) : (s.faulted c).pc = s.pc := rfl
@[simp] theorem State.faulted_sp (s : State) (c : FaultCode) : (s.faulted c).sp = s.sp := rfl
@[simp] theorem State.faulted_stack (s : State) (c : FaultCode) : (s.faulted c).stack = s.stack := rfl
@[simp] theorem State.faulted_dt (s : State) (c : FaultCode) : (s.faulted c).dt = s.dt := rfl
@[simp] theorem State.faulted_st (s : State) (c : FaultCode) : (s.faulted c).st = s.st := rfl
@[simp] theorem State.faulted_mem (s : State) (c : FaultCode) : (s.faulted c).mem = s.mem := rfl
@[simp] theorem State.faulted_fb (s : State) (c : FaultCode) : (s.faulted c).fb = s.fb := rfl
@[simp] theorem State.faulted_dirty (s : State) (c : FaultCode) : (s.faulted c).dirty = s.dirty := rfl
@[simp] theorem State.faulted_keys (s : State) (c : FaultCode) : (s.faulted c).keys = s.keys := rfl
@[simp] theorem State.faulted_lastKey (s : State) (c : FaultCode) : (s.faulted c).lastKey = s.lastKey := rfl
@[simp] theorem State.faulted_pressPending (s : State) (c : FaultCode) : (s.faulted c).pressPending = s.pressPending := rfl
@[simp] theorem State.faulted_timer (s : State) (c : FaultCode) : (s.faulted c).timer = s.timer := rfl
@[simp] theorem State.faulted_draws (s : State) (c : FaultCode) : (s.faulted c).draws = s.draws := rfl
@[simp] theorem State.faulted_schedule (s : State) (c : FaultCode) : (s.faulted c).schedule = s.schedule := rfl
@[simp] theorem State.faulted_round (s : State) (c : FaultCode) : (s.faulted c).round = s.round := rfl
@[simp] theorem State.faulted_config (s : State) (c : FaultCode) : (s.faulted c).config = s.config := rfl

/-- A checked read that answers a next state has read a value and gone on, or has raised `UNSET_READ`. -/
theorem needSet_eq_next {α : Type} {cell : Option α} {s t : State} {k : α → Result} (h : needSet cell s k = .next t) :
    (∃ a, cell = some a ∧ k a = .next t) ∨ (cell = none ∧ t = s.faulted .unsetRead) := by
  cases cell with
  | none => exact .inr ⟨rfl, (Host.Outcome.next.inj h).symm⟩
  | some a => exact .inl ⟨a, rfl, h⟩

/-- A checked read answers a next state when its continuation does. -/
theorem needSet_answers {α : Type} (cell : Option α) (s : State) {k : α → Result} (h : ∀ a, ∃ t, k a = .next t) :
    ∃ t, needSet cell s k = .next t := by
  cases cell with
  | none => exact ⟨_, rfl⟩
  | some a => exact h a

/-! ### Outcomes and the advance (R63) -/

theorem onNext_eq_next {f : State → State} {r : Result} {t : State} (h : onNext f r = .next t) :
    ∃ u, r = .next u ∧ t = f u := by
  cases r with
  | next u => exact ⟨u, rfl, (Host.Outcome.next.inj h).symm⟩
  | fault _ => cases h
  | refused _ => cases h

theorem State.finishStep_of_run {s : State} {k : Fin stepsPerFiring} (h : s.clock = .run k) :
    s.finishStep = s.advance k := by simp only [State.finishStep, h]

theorem State.finishStep_of_not_run {s : State} (h : ∀ k, s.clock ≠ .run k) : s.finishStep = s := by
  unfold State.finishStep; split <;> first | rfl | exact absurd ‹_› (h _)

/-! ### Indices (R18, R27) -/

theorem index16_eq_some {b : Byte} {j : Fin 16} : index16 b = some j ↔ b.toNat = j.val := by
  unfold index16
  split
  · simp [Fin.ext_iff]
  · have := j.isLt; constructor
    · intro h; cases h
    · omega

theorem index16_eq_none {b : Byte} : index16 b = none ↔ 16 ≤ b.toNat := by
  unfold index16
  split <;> simp <;> omega

/-! ### Block moves (R101, R102) -/

/-- The values of registers that are all set, in order. -/
theorem State.readVs_eq_some {s : State} : ∀ {rs : List RegIx} {bs : List Byte}, s.readVs rs = some bs →
    bs.map some = rs.map s.readV
  | [], _, h => by cases h; rfl
  | r :: rs, bs, h => by
    unfold State.readVs at h
    split at h
    · rename_i b bs' hb hbs
      cases h
      simp [hb, State.readVs_eq_some hbs]
    · cases h

theorem State.readVs_eq_none {s : State} : ∀ {rs : List RegIx}, s.readVs rs = none ↔ ∃ r ∈ rs, s.readV r = none
  | [] => by simp [State.readVs]
  | r :: rs => by
    rw [State.readVs, List.exists_mem_cons_iff]
    cases h : s.readV r with
    | none => simp
    | some b =>
      rw [← State.readVs_eq_none (rs := rs)]
      cases s.readVs rs <;> simp

/-- `V0` to `Vx` are the registers up to `x`, in order. -/
theorem mem_regsUpTo {x r : RegIx} : r ∈ regsUpTo x ↔ r ≤ x := by revert x r; decide

theorem length_regsUpTo (x : RegIx) : (regsUpTo x).length = x.val + 1 := by revert x; decide

theorem getElem?_regsUpTo {x : RegIx} {k : Nat} (h : k ≤ x.val) : (regsUpTo x)[k]? = some ⟨k, by omega⟩ := by
  have hx := x.isLt
  have : ∀ (x k : Fin 16), k ≤ x → (regsUpTo x)[k.val]? = some k := by decide
  exact this x ⟨k, by omega⟩ h

/-- A block load writes only the `V` registers. -/
theorem State.loadVs_eq : ∀ (rs : List RegIx) (s : State) (a : Nat), s.loadVs a rs = { s with v := (s.loadVs a rs).v }
  | [], _, _ => rfl
  | r :: rs, s, a => by rw [State.loadVs, State.loadVs_eq rs]; rfl

/-- A block load leaves a register that is not in the list. -/
theorem State.readV_loadVs_of_notMem : ∀ (rs : List RegIx) (s : State) (a : Nat) (r : RegIx), r ∉ rs →
    (s.loadVs a rs).readV r = s.readV r
  | [], _, _, _, _ => rfl
  | r' :: rs, s, a, r, h => by
    rw [State.loadVs, State.readV_loadVs_of_notMem rs _ _ r (fun h' => h (.tail _ h')),
      State.readV_writeV_of_ne _ _ _ _ (by rintro rfl; exact h (.head _))]

/-- A block load of distinct registers puts byte `a + k` in the `k`-th of them. -/
theorem State.readV_loadVs : ∀ (rs : List RegIx) (s : State) (a k : Nat) (r : RegIx), rs.Nodup → rs[k]? = some r →
    (s.loadVs a rs).readV r = some (s.memRead (a + k))
  | [], _, _, _, _, _, h => by simp at h
  | r' :: rs, s, a, 0, r, hn, h => by
    obtain rfl : r' = r := by simpa using h
    rw [State.loadVs, State.readV_loadVs_of_notMem rs _ _ _ (List.nodup_cons.1 hn).1, State.readV_writeV_self]; rfl
  | r' :: rs, s, a, k + 1, r, hn, h => by
    rw [State.loadVs, State.readV_loadVs rs _ _ k r (List.nodup_cons.1 hn).2 (by simpa using h)]
    show some (s.memRead _) = _
    congr 2; omega

theorem nodup_regsUpTo (x : RegIx) : (regsUpTo x).Nodup := by revert x; decide

/-- The byte at offset `k` of a written range shorter than memory. -/
theorem Memory.read_writeRange_inside : ∀ (bs : List Byte) (m : Memory) (a k : Nat) (b : Byte), Memory.wf m = true →
    bs.length ≤ memSize → bs[k]? = some b → Memory.read (Memory.writeRange m a bs) (a + k) = b
  | [], _, _, _, _, _, _, h => by simp at h
  | b' :: bs, m, a, 0, b, hm, hl, h => by
    obtain rfl : b' = b := by simpa using h
    rw [Memory.writeRange, Memory.read_writeRange_outside bs _ (a + 1) (a + 0) (Memory.wf_write m a _ hm), Memory.read_write _ _ _ _ hm]
    · simp
    · intro k hk
      simp only [List.length_cons] at hl
      simp only [memSize] at *
      omega
  | b' :: bs, m, a, k + 1, b, hm, hl, h => by
    rw [Memory.writeRange, ← Memory.read_writeRange_inside bs _ (a + 1) k b (Memory.wf_write m a b' hm)
      (by simp only [List.length_cons] at hl; omega) (by simpa using h)]
    congr 1; omega

/-- `readRange` as a list over the offsets. -/
theorem Memory.readRange_eq_map : ∀ (n : Nat) (m : Memory) (a : Nat),
    Memory.readRange m a n = (List.range n).map fun k => Memory.read m (a + k)
  | 0, _, _ => rfl
  | n + 1, m, a => by
    rw [Memory.readRange, Memory.readRange_eq_map n, List.range_succ_eq_map, List.map_cons, List.map_map]
    congr 2
    funext k
    show _ = Memory.read m (a + (k + 1))
    congr 1; omega

/-! ### The framebuffer (R104, R106) -/

theorem Grid.cell_toggle (g : Grid) (c c' : Fin screenColumns) (r r' : Fin screenRows) :
    Grid.cell (Grid.toggle g c r) c' r' = if c' = c ∧ r' = r then !(Grid.cell g c r) else Grid.cell g c' r' := by
  simp only [Grid.cell, Grid.toggle, Vector.get_eq_getElem, Vector.getElem_set, Fin.ext_iff]
  by_cases hc : c.val = c'.val
  · rw [if_pos hc, Vector.getElem_set]
    by_cases hr : r.val = r'.val
    · rw [if_pos hr, if_pos ⟨hc.symm, hr.symm⟩]
    · rw [if_neg hr, if_neg (fun h => hr h.2.symm)]
      simp only [hc]
  · rw [if_neg hc, if_neg (fun h => hc h.1.symm)]

/-- Two grids with the same cells are the same grid. -/
theorem Grid.ext_cell {g g' : Grid} (h : ∀ c r, Grid.cell g c r = Grid.cell g' c r) : g = g' := by
  apply Vector.ext; intro i hi
  apply Vector.ext; intro j hj
  simpa [Grid.cell, Vector.get_eq_getElem] using h ⟨i, hi⟩ ⟨j, hj⟩

theorem Grid.cell_unlit (c : Fin screenColumns) (r : Fin screenRows) : Grid.cell Grid.unlit c r = false := by
  simp only [Grid.cell, Grid.unlit, Vector.get_eq_getElem, Vector.getElem_replicate]

/-- A push changes at most `DIRTY` and the trace. -/
theorem State.push_eq (s : State) :
    s.push = { s with dirty := false, trace := if s.dirty = true then s.trace ++ [.present s.fb] else s.trace } := by
  unfold State.push
  cases h : s.dirty
  · rw [if_neg (by simp), if_neg (by simp), ← h]
  · rw [if_pos rfl, if_pos rfl]; rfl

/-- An optional event changes only the trace. -/
theorem State.emitOption_eq (s : State) (e : Option Event) : s.emitOption e = { s with trace := s.trace ++ e.toList } := by
  cases e with
  | none => simp only [State.emitOption, Option.toList_none, List.append_nil]
  | some e => rfl

/-- The start of a wait changes at most `PRESS_PENDING`. -/
theorem State.startWait_eq (s : State) :
    s.startWait = { s with pressPending := if s.config.keyWaitMode = .newPressOnly then false else s.pressPending } := by
  unfold State.startWait
  cases h : s.config.keyWaitMode <;> rfl

end Sys2Proof.Machine
end

