-- ==== Sys2Proof/Laws/PerInstr.lean ====
section
/-! SUPPORT. Laws about every instruction as syntax, one lemma per constructor: the word of a well-formed instruction matches
the instruction's own row of the opcode table first (30_encoding.md R54). -/

namespace Sys2Proof.Laws

/-- The word of a well-formed instruction is looked up as that instruction's opcode. -/
def OpcodeFound.Statement (i : Instr) : Prop := i.wellFormed = true → lookup (encode i) = some i.opcode

theorem OpcodeFound.cls : OpcodeFound.Statement .cls := by
  intro _
  show lookup (ofNibbles 0x0 0x0 0xE 0x0) = _
  rw [lookup_ofNibbles]
  rfl

theorem OpcodeFound.ret : OpcodeFound.Statement .ret := by
  intro _
  show lookup (ofNibbles 0x0 0x0 0xE 0xE) = _
  rw [lookup_ofNibbles]
  rfl

theorem OpcodeFound.sys (nnn : Addr12) : OpcodeFound.Statement (.sys nnn) := by
  intro h
  show lookup _ = some .sys
  obtain ⟨b, c, d, rfl⟩ := Addr12.nibbles nnn
  rw [show encode (.sys (b ++ c ++ d)) = _ from append_nnn_nibbles _ _ _ _, lookup_ofNibbles]
  have h1 : ¬ (b = 0 ∧ c = 0xE ∧ d = 0) := by
    rintro ⟨rfl, rfl, rfl⟩; simp [Instr.wellFormed] at h
  have h2 : ¬ (b = 0 ∧ c = 0xE ∧ d = 0xE) := by
    rintro ⟨rfl, rfl, rfl⟩; simp [Instr.wellFormed] at h
  have e1 : (b == 0#4 && c == 14#4 && d == 0#4) = false := by
    simp only [Bool.and_eq_false_iff, beq_eq_false_iff_ne]; tauto
  have e2 : (b == 0#4 && c == 14#4 && d == 14#4) = false := by
    simp only [Bool.and_eq_false_iff, beq_eq_false_iff_ne]; tauto
  simp [opcodes, opcodesFlow, List.find?, Opcode.signature, nibbleMeets, e1, e2]

theorem OpcodeFound.jp (nnn : Addr12) : OpcodeFound.Statement (.jp nnn) := by
  intro _
  obtain ⟨b, c, d, rfl⟩ := Addr12.nibbles nnn
  rw [show encode (.jp (b ++ c ++ d)) = _ from append_nnn_nibbles _ _ _ _, lookup_ofNibbles]
  rfl

theorem OpcodeFound.call (nnn : Addr12) : OpcodeFound.Statement (.call nnn) := by
  intro _
  obtain ⟨b, c, d, rfl⟩ := Addr12.nibbles nnn
  rw [show encode (.call (b ++ c ++ d)) = _ from append_nnn_nibbles _ _ _ _, lookup_ofNibbles]
  rfl

theorem OpcodeFound.seVxKk (x : RegIx) (kk : Byte) : OpcodeFound.Statement (.seVxKk x kk) := by
  intro _
  obtain ⟨c, d, rfl⟩ := Byte.nibbles kk
  rw [show encode (.seVxKk x (c ++ d)) = _ from append_kk_nibbles _ _ _ _, lookup_ofNibbles]
  rfl

theorem OpcodeFound.sneVxKk (x : RegIx) (kk : Byte) : OpcodeFound.Statement (.sneVxKk x kk) := by
  intro _
  obtain ⟨c, d, rfl⟩ := Byte.nibbles kk
  rw [show encode (.sneVxKk x (c ++ d)) = _ from append_kk_nibbles _ _ _ _, lookup_ofNibbles]
  rfl

theorem OpcodeFound.seVxVy (x : RegIx) (y : RegIx) : OpcodeFound.Statement (.seVxVy x y) := by
  intro _
  show lookup (ofNibbles 0x5 (nibbleBits x) (nibbleBits y) 0x0) = _
  rw [lookup_ofNibbles]
  rfl

theorem OpcodeFound.ldVxKk (x : RegIx) (kk : Byte) : OpcodeFound.Statement (.ldVxKk x kk) := by
  intro _
  obtain ⟨c, d, rfl⟩ := Byte.nibbles kk
  rw [show encode (.ldVxKk x (c ++ d)) = _ from append_kk_nibbles _ _ _ _, lookup_ofNibbles]
  rfl

theorem OpcodeFound.addVxKk (x : RegIx) (kk : Byte) : OpcodeFound.Statement (.addVxKk x kk) := by
  intro _
  obtain ⟨c, d, rfl⟩ := Byte.nibbles kk
  rw [show encode (.addVxKk x (c ++ d)) = _ from append_kk_nibbles _ _ _ _, lookup_ofNibbles]
  rfl

theorem OpcodeFound.ldVxVy (x : RegIx) (y : RegIx) : OpcodeFound.Statement (.ldVxVy x y) := by
  intro _
  show lookup (ofNibbles 0x8 (nibbleBits x) (nibbleBits y) 0x0) = _
  rw [lookup_ofNibbles]
  rfl

theorem OpcodeFound.orVxVy (x : RegIx) (y : RegIx) : OpcodeFound.Statement (.orVxVy x y) := by
  intro _
  show lookup (ofNibbles 0x8 (nibbleBits x) (nibbleBits y) 0x1) = _
  rw [lookup_ofNibbles]
  rfl

theorem OpcodeFound.andVxVy (x : RegIx) (y : RegIx) : OpcodeFound.Statement (.andVxVy x y) := by
  intro _
  show lookup (ofNibbles 0x8 (nibbleBits x) (nibbleBits y) 0x2) = _
  rw [lookup_ofNibbles]
  rfl

theorem OpcodeFound.xorVxVy (x : RegIx) (y : RegIx) : OpcodeFound.Statement (.xorVxVy x y) := by
  intro _
  show lookup (ofNibbles 0x8 (nibbleBits x) (nibbleBits y) 0x3) = _
  rw [lookup_ofNibbles]
  rfl

theorem OpcodeFound.addVxVy (x : RegIx) (y : RegIx) : OpcodeFound.Statement (.addVxVy x y) := by
  intro _
  show lookup (ofNibbles 0x8 (nibbleBits x) (nibbleBits y) 0x4) = _
  rw [lookup_ofNibbles]
  rfl

theorem OpcodeFound.subVxVy (x : RegIx) (y : RegIx) : OpcodeFound.Statement (.subVxVy x y) := by
  intro _
  show lookup (ofNibbles 0x8 (nibbleBits x) (nibbleBits y) 0x5) = _
  rw [lookup_ofNibbles]
  rfl

theorem OpcodeFound.shrVx (x : RegIx) (y : RegIx) : OpcodeFound.Statement (.shrVx x y) := by
  intro _
  show lookup (ofNibbles 0x8 (nibbleBits x) (nibbleBits y) 0x6) = _
  rw [lookup_ofNibbles]
  rfl

theorem OpcodeFound.subnVxVy (x : RegIx) (y : RegIx) : OpcodeFound.Statement (.subnVxVy x y) := by
  intro _
  show lookup (ofNibbles 0x8 (nibbleBits x) (nibbleBits y) 0x7) = _
  rw [lookup_ofNibbles]
  rfl

theorem OpcodeFound.shlVx (x : RegIx) (y : RegIx) : OpcodeFound.Statement (.shlVx x y) := by
  intro _
  show lookup (ofNibbles 0x8 (nibbleBits x) (nibbleBits y) 0xE) = _
  rw [lookup_ofNibbles]
  rfl

theorem OpcodeFound.sneVxVy (x : RegIx) (y : RegIx) : OpcodeFound.Statement (.sneVxVy x y) := by
  intro _
  show lookup (ofNibbles 0x9 (nibbleBits x) (nibbleBits y) 0x0) = _
  rw [lookup_ofNibbles]
  rfl

theorem OpcodeFound.ldINnn (nnn : Addr12) : OpcodeFound.Statement (.ldINnn nnn) := by
  intro _
  obtain ⟨b, c, d, rfl⟩ := Addr12.nibbles nnn
  rw [show encode (.ldINnn (b ++ c ++ d)) = _ from append_nnn_nibbles _ _ _ _, lookup_ofNibbles]
  rfl

theorem OpcodeFound.jpV0Nnn (nnn : Addr12) : OpcodeFound.Statement (.jpV0Nnn nnn) := by
  intro _
  obtain ⟨b, c, d, rfl⟩ := Addr12.nibbles nnn
  rw [show encode (.jpV0Nnn (b ++ c ++ d)) = _ from append_nnn_nibbles _ _ _ _, lookup_ofNibbles]
  rfl

theorem OpcodeFound.rndVxKk (x : RegIx) (kk : Byte) : OpcodeFound.Statement (.rndVxKk x kk) := by
  intro _
  obtain ⟨c, d, rfl⟩ := Byte.nibbles kk
  rw [show encode (.rndVxKk x (c ++ d)) = _ from append_kk_nibbles _ _ _ _, lookup_ofNibbles]
  rfl

theorem OpcodeFound.drwVxVyN (x : RegIx) (y : RegIx) (n : Fin 16) : OpcodeFound.Statement (.drwVxVyN x y n) := by
  intro _
  show lookup (ofNibbles 0xD (nibbleBits x) (nibbleBits y) (nibbleBits n)) = _
  rw [lookup_ofNibbles]
  rfl

theorem OpcodeFound.skpVx (x : RegIx) : OpcodeFound.Statement (.skpVx x) := by
  intro _
  rw [show encode (.skpVx x) = _ from append_lit_nibbles _ _ _, lookup_ofNibbles]
  rfl

theorem OpcodeFound.sknpVx (x : RegIx) : OpcodeFound.Statement (.sknpVx x) := by
  intro _
  rw [show encode (.sknpVx x) = _ from append_lit_nibbles _ _ _, lookup_ofNibbles]
  rfl

theorem OpcodeFound.ldVxDt (x : RegIx) : OpcodeFound.Statement (.ldVxDt x) := by
  intro _
  rw [show encode (.ldVxDt x) = _ from append_lit_nibbles _ _ _, lookup_ofNibbles]
  rfl

theorem OpcodeFound.ldVxK (x : RegIx) : OpcodeFound.Statement (.ldVxK x) := by
  intro _
  rw [show encode (.ldVxK x) = _ from append_lit_nibbles _ _ _, lookup_ofNibbles]
  rfl

theorem OpcodeFound.ldDtVx (x : RegIx) : OpcodeFound.Statement (.ldDtVx x) := by
  intro _
  rw [show encode (.ldDtVx x) = _ from append_lit_nibbles _ _ _, lookup_ofNibbles]
  rfl

theorem OpcodeFound.ldStVx (x : RegIx) : OpcodeFound.Statement (.ldStVx x) := by
  intro _
  rw [show encode (.ldStVx x) = _ from append_lit_nibbles _ _ _, lookup_ofNibbles]
  rfl

theorem OpcodeFound.addIVx (x : RegIx) : OpcodeFound.Statement (.addIVx x) := by
  intro _
  rw [show encode (.addIVx x) = _ from append_lit_nibbles _ _ _, lookup_ofNibbles]
  rfl

theorem OpcodeFound.ldFVx (x : RegIx) : OpcodeFound.Statement (.ldFVx x) := by
  intro _
  rw [show encode (.ldFVx x) = _ from append_lit_nibbles _ _ _, lookup_ofNibbles]
  rfl

theorem OpcodeFound.ldBVx (x : RegIx) : OpcodeFound.Statement (.ldBVx x) := by
  intro _
  rw [show encode (.ldBVx x) = _ from append_lit_nibbles _ _ _, lookup_ofNibbles]
  rfl

theorem OpcodeFound.ldMemVx (x : RegIx) : OpcodeFound.Statement (.ldMemVx x) := by
  intro _
  rw [show encode (.ldMemVx x) = _ from append_lit_nibbles _ _ _, lookup_ofNibbles]
  rfl

theorem OpcodeFound.ldVxMem (x : RegIx) : OpcodeFound.Statement (.ldVxMem x) := by
  intro _
  rw [show encode (.ldVxMem x) = _ from append_lit_nibbles _ _ _, lookup_ofNibbles]
  rfl

end Sys2Proof.Laws
end

