-- ==== Sys2Proof/Laws/Step.lean ====
section
/-! SUPPORT. What a handler can do to the phase of the instruction clock, that a handler does not see the schedule, and each
agent's turn, told once. -/

namespace Sys2Proof.Machine

/-! ### A handler does not see the schedule (log 5) -/

theorem needSet_setTurns {α : Type} (cell : Option α) (s : State) (l : List Move) (n : Nat) {k k' : α → Result}
    (h : ∀ a, k' a = onNext (fun u => u.setTurns l n) (k a)) :
    needSet cell (s.setTurns l n) k' = onNext (fun u => u.setTurns l n) (needSet cell s k) := by
  cases cell with
  | none => rfl
  | some a => exact h a

theorem skipIf_setTurns (c : Bool) (s : State) (l : List Move) (n : Nat) :
    skipIf c (s.setTurns l n) = onNext (fun u => u.setTurns l n) (skipIf c s) := by cases c <;> rfl

theorem skipOnKey_setTurns (want : Bool → Bool) (b : Byte) (s : State) (l : List Move) (n : Nat) :
    skipOnKey want b (s.setTurns l n) = onNext (fun u => u.setTurns l n) (skipOnKey want b s) := by
  unfold skipOnKey
  cases index16 b with
  | none => rfl
  | some k => exact skipIf_setTurns _ s l n

theorem State.resultOperand_setTurns (s : State) (l : List Move) (n : Nat) (r : RegIx) (b : Byte) :
    (s.setTurns l n).resultOperand r b = s.resultOperand r b := rfl

theorem State.readVs_setTurns (s : State) (l : List Move) (n : Nat) : ∀ rs, (s.setTurns l n).readVs rs = s.readVs rs
  | [] => rfl
  | r :: rs => by rw [State.readVs, State.readVs, State.readVs_setTurns s l n rs]; rfl

theorem State.loadVs_setTurns (l : List Move) (n : Nat) : ∀ (rs : List RegIx) (s : State) (a : Nat),
    (s.setTurns l n).loadVs a rs = (s.loadVs a rs).setTurns l n
  | [], _, _ => rfl
  | r :: rs, s, a => by
    rw [State.loadVs, State.loadVs, ← State.loadVs_setTurns l n rs]; rfl

/-- The schedule plays no part in what an instruction does, and an instruction does not change it. -/
theorem exec_setTurns (i : Instr) (s : State) (l : List Move) (n : Nat) :
    exec i (s.setTurns l n) = onNext (fun u => u.setTurns l n) (exec i s) := by
  have one : ∀ {α : Type} (cell : Option α) {k k' : α → Result}, (∀ a, k' a = onNext (fun u => u.setTurns l n) (k a)) →
      needSet cell (s.setTurns l n) k' = onNext (fun u => u.setTurns l n) (needSet cell s k) :=
    fun cell _ _ h => needSet_setTurns cell s l n h
  cases i with
  | cls | sys | jp | ldVxKk | ldINnn | rndVxKk | ldVxDt => rfl
  | ret =>
    show execRet _ = onNext _ (execRet s)
    unfold execRet
    show (match index16 s.sp with | none => _ | some j => _) = _
    cases index16 s.sp with
    | none => rfl
    | some j => exact one _ fun _ => rfl
  | call nnn =>
    show execCall _ _ = onNext _ (execCall _ s)
    unfold execCall
    show (match index16 (s.sp + 1) with | none => _ | some j => _) = _
    cases index16 (s.sp + 1) <;> rfl
  | seVxKk x kk | sneVxKk x kk => exact one _ fun _ => skipIf_setTurns _ s l n
  | seVxVy x y | sneVxVy x y => exact one _ fun _ => one _ fun _ => skipIf_setTurns _ s l n
  | jpV0Nnn | addVxKk | ldVxVy | shrVx | shlVx | ldFVx | ldDtVx => exact one _ fun _ => rfl
  | orVxVy | andVxVy | xorVxVy | addVxVy | subVxVy | subnVxVy | addIVx | ldBVx => exact one _ fun _ => one _ fun _ => rfl
  | drwVxVyN => exact one _ fun _ => one _ fun _ => one _ fun _ => rfl
  | ldMemVx x =>
    refine one _ fun _ => ?_
    rw [State.readVs_setTurns]
    exact one _ fun _ => rfl
  | ldVxMem x => exact one _ fun _ => congrArg Host.Outcome.next (State.loadVs_setTurns l n _ s _)
  | skpVx | sknpVx => exact one _ fun _ => skipOnKey_setTurns _ _ s l n
  | ldVxK x =>
    show execLdVxK _ _ = onNext _ (execLdVxK _ s)
    unfold execLdVxK
    show (match s.clock with | .run _ => _ | .wait _ _ => _ | .blockEnd => _ | .faulted _ _ _ => _ | .stopped => _) = _
    cases s.clock with
    | run k =>
      show Host.Outcome.next _ = Host.Outcome.next _
      simp only [State.startWait_eq, State.push_eq]
      rfl
    | _ => rfl
  | ldStVx x =>
    refine one _ fun b => ?_
    show Host.Outcome.next _ = Host.Outcome.next _
    simp only [State.emitOption_eq]
    rfl

/-! ### What a handler can do to the phase (R63, R68, R114) -/

/-- A handler keeps the phase, or raises a fault, or starts a key wait. -/
theorem exec_phase {i : Instr} {s t : State} (h : exec i s = .next t) :
    t.clock = s.clock ∨ (∃ code, t = s.faulted code) ∨
      (∃ x k, i = .ldVxK x ∧ s.clock = .run k ∧ t = s.push.startWait.setClock (.wait x k)) := by
  have skip : ∀ {c : Bool}, skipIf c s = .next t → t.clock = s.clock := by
    intro c h; cases h; cases c <;> rfl
  have key : ∀ {f : Bool → Bool} {b : Byte}, skipOnKey f b s = .next t → t.clock = s.clock ∨ ∃ code, t = s.faulted code := by
    intro f b h
    unfold skipOnKey at h
    split at h
    · exact .inr ⟨_, (Host.Outcome.next.inj h).symm⟩
    · exact .inl (skip h)
  cases i with
  | cls | sys | jp | ldVxKk | ldINnn | rndVxKk | ldVxDt => cases h; exact .inl rfl
  | ret =>
    replace h : execRet s = _ := h
    unfold execRet at h
    split at h
    · exact .inr (.inl ⟨_, (Host.Outcome.next.inj h).symm⟩)
    · obtain ⟨_, _, h⟩ | ⟨_, h⟩ := needSet_eq_next h
      · cases h; exact .inl rfl
      · exact .inr (.inl ⟨_, h⟩)
  | call nnn =>
    replace h : execCall _ s = _ := h
    unfold execCall at h
    split at h
    · exact .inr (.inl ⟨_, (Host.Outcome.next.inj h).symm⟩)
    · cases h; exact .inl rfl
  | jpV0Nnn | addVxKk | ldVxVy | shrVx | shlVx | ldFVx | ldDtVx =>
    obtain ⟨_, _, h⟩ | ⟨_, h⟩ := needSet_eq_next h
    · cases h; exact .inl rfl
    · exact .inr (.inl ⟨_, h⟩)
  | seVxKk | sneVxKk =>
    obtain ⟨_, _, h⟩ | ⟨_, h⟩ := needSet_eq_next h
    · exact .inl (skip h)
    · exact .inr (.inl ⟨_, h⟩)
  | skpVx | sknpVx =>
    obtain ⟨_, _, h⟩ | ⟨_, h⟩ := needSet_eq_next h
    · exact (key h).imp id .inl
    · exact .inr (.inl ⟨_, h⟩)
  | seVxVy | sneVxVy =>
    obtain ⟨_, _, h⟩ | ⟨_, h⟩ := needSet_eq_next h
    · obtain ⟨_, _, h⟩ | ⟨_, h⟩ := needSet_eq_next h
      · exact .inl (skip h)
      · exact .inr (.inl ⟨_, h⟩)
    · exact .inr (.inl ⟨_, h⟩)
  | orVxVy | andVxVy | xorVxVy | addVxVy | subVxVy | subnVxVy | addIVx | ldBVx | ldMemVx =>
    obtain ⟨_, _, h⟩ | ⟨_, h⟩ := needSet_eq_next h
    · obtain ⟨_, _, h⟩ | ⟨_, h⟩ := needSet_eq_next h
      · cases h; exact .inl rfl
      · exact .inr (.inl ⟨_, h⟩)
    · exact .inr (.inl ⟨_, h⟩)
  | drwVxVyN =>
    obtain ⟨_, _, h⟩ | ⟨_, h⟩ := needSet_eq_next h
    · obtain ⟨_, _, h⟩ | ⟨_, h⟩ := needSet_eq_next h
      · obtain ⟨_, _, h⟩ | ⟨_, h⟩ := needSet_eq_next h
        · cases h; exact .inl rfl
        · exact .inr (.inl ⟨_, h⟩)
      · exact .inr (.inl ⟨_, h⟩)
    · exact .inr (.inl ⟨_, h⟩)
  | ldVxMem x =>
    obtain ⟨_, _, h⟩ | ⟨_, h⟩ := needSet_eq_next h
    · cases h; rw [State.loadVs_eq]; exact .inl rfl
    · exact .inr (.inl ⟨_, h⟩)
  | ldStVx x =>
    obtain ⟨_, _, h⟩ | ⟨_, h⟩ := needSet_eq_next h
    · cases h; rw [State.emitOption_eq]; exact .inl rfl
    · exact .inr (.inl ⟨_, h⟩)
  | ldVxK x =>
    replace h : execLdVxK x s = _ := h
    unfold execLdVxK at h
    split at h
    case h_1 k hk => exact .inr (.inr ⟨x, k, rfl, hk, (Host.Outcome.next.inj h).symm⟩)
    all_goals cases h

/-! ### Turns -/

/-- A turn scheduled is the next one, and the others follow it. -/
theorem State.turns_of_cons {s : State} {m : Move} {l : List Move} (h : s.schedule = m :: l) : s.turns = m :: l := by
  simp only [State.turns, h]

/-- With none scheduled and a clock enabled, a round follows. -/
theorem State.turns_of_nil {s : State} (h : s.schedule = []) (he : s.clockEnabled = true ∨ s.timerEnabled = true) :
    s.turns = s.fairRound := by
  simp only [State.turns, h, Bool.or_eq_true, he, if_true]

/-- The machine's own rounds hold a turn of each clock. -/
theorem State.mem_fairRound (s : State) {m : Move} (h : m = .clock ∨ m = .tick) : m ∈ s.fairRound := by
  unfold State.fairRound
  rcases h with rfl | rfl <;> simp

/-- A stop comes from the schedule alone. -/
theorem State.stop_notMem_fairRound (s : State) : Move.stop ∉ s.fairRound := by
  unfold State.fairRound freeTurns
  simp

/-- With a turn to come, the turns to come are that turn and those left after it. -/
theorem State.turns_eq_cons {s : State} {m : Move} (h : s.nextMove = some m) : s.turns = m :: s.popTurn.schedule := by
  unfold State.nextMove at h
  cases hl : s.turns with
  | nil => rw [hl] at h; cases h
  | cons m' l =>
    rw [hl] at h
    cases h
    simp only [State.popTurn, State.setTurns_schedule, hl, List.tail_cons]

/-- A step that answers a next state has taken the next turn. -/
theorem step_eq_next {s t : State} (h : step s = .next t) : ∃ m, s.nextMove = some m ∧ act m s.popTurn = .next t := by
  unfold step at h
  split at h
  · exact ⟨_, ‹_›, h⟩
  · cases h

/-- A step is the turn of the next agent, taken from the turns to come. -/
theorem step_eq_act {s : State} {m : Move} (h : s.nextMove = some m) : step s = act m s.popTurn := by
  simp only [step, h]

theorem clockTurn_of_run {s : State} {k : Fin stepsPerFiring} (h : s.clock = .run k) : clockTurn s = instructionStep s := by
  simp only [clockTurn, h]

theorem instructionStep_of_decode {s : State} {i : Instr} (h : decode s.fetchWord = some i) :
    instructionStep s = onNext State.finishStep (exec i s) := by simp only [instructionStep, h]

theorem instructionStep_of_miss {s : State} (h : decode s.fetchWord = none) : instructionStep s = .next s.finishStep := by
  simp only [instructionStep, h]

/-- What a turn of the instruction clock can do: an instruction step, a decode miss, a completed wait, a block end, or
nothing. -/
theorem clockTurn_cases {s t : State} (h : clockTurn s = .next t) :
    (∃ k i u, s.clock = .run k ∧ decode s.fetchWord = some i ∧ exec i s = .next u ∧ t = u.finishStep) ∨
    (∃ k, s.clock = .run k ∧ decode s.fetchWord = none ∧ t = s.advance k) ∨
    (∃ x k key, s.clock = .wait x k ∧ s.pressPending = true ∧ s.lastKey = some key ∧
      t = ((s.writeV x (BitVec.ofNat 8 key.val)).setPressPending false).advance k) ∨
    (s.clock = .blockEnd ∧ t = s.endBlock) ∨
    (s.clockEnabled = false ∧ t = s) := by
  unfold clockTurn at h
  split at h
  · rename_i k hk
    cases hd : decode s.fetchWord with
    | none =>
      rw [instructionStep_of_miss hd] at h
      exact .inr (.inl ⟨k, hk, rfl, by rw [← State.finishStep_of_run hk]; exact (Host.Outcome.next.inj h).symm⟩)
    | some i =>
      rw [instructionStep_of_decode hd] at h
      obtain ⟨u, hu, rfl⟩ := onNext_eq_next h
      exact .inl ⟨k, i, u, hk, rfl, hu, rfl⟩
  · rename_i x k hk
    split at h
    · rename_i hp
      unfold State.completeWait at h
      split at h
      · rename_i key hkey
        exact .inr (.inr (.inl ⟨x, k, key, hk, hp, hkey, (Host.Outcome.next.inj h).symm⟩))
      · cases h
    · rename_i hp
      exact .inr (.inr (.inr (.inr ⟨by simp only [State.clockEnabled, hk]; simpa using hp, (Host.Outcome.next.inj h).symm⟩)))
  · rename_i hk
    exact .inr (.inr (.inr (.inl ⟨hk, (Host.Outcome.next.inj h).symm⟩)))
  · rename_i hk
    exact .inr (.inr (.inr (.inr ⟨by simp only [State.clockEnabled, hk], (Host.Outcome.next.inj h).symm⟩)))
  · rename_i hk
    exact .inr (.inr (.inr (.inr ⟨by simp only [State.clockEnabled, hk], (Host.Outcome.next.inj h).symm⟩)))

end Sys2Proof.Machine
end

