-- ==== Sys2Proof/Tests/Slice0.lean ====
section
/-! SUPPORT. Tests. Words are written out from the patterns of 30_encoding.md R53; the expected results of the one-step tests
are vectors of 95_test_vectors.md, named in each docstring; the witnesses show that the hypotheses of each statement can be met
together. -/

namespace Sys2Proof.Tests

open Sys2Proof Sys2Proof.Machine

/-! ### Well-formedness -/

theorem test_wellFormed_refuses_sys_cls : (Instr.sys 0x0E0).wellFormed = false := by decide
theorem test_wellFormed_refuses_sys_ret : (Instr.sys 0x0EE).wellFormed = false := by decide
theorem test_wellFormed_accepts_sys : (Instr.sys 0x0E1).wellFormed = true := by decide

/-! ### Decoding: every row of R53, bit by bit (nibbles from the top) -/

theorem test_decode_cls : decode 0b0000_0000_1110_0000#16 = some (.cls) := by decide
theorem test_decode_ret : decode 0b0000_0000_1110_1110#16 = some (.ret) := by decide
theorem test_decode_sys : decode 0b0000_1111_1111_1111#16 = some (.sys 0xFFF) := by decide
theorem test_decode_jp : decode 0b0001_1010_1011_1100#16 = some (.jp 0xABC) := by decide
theorem test_decode_call : decode 0b0010_1010_1011_1100#16 = some (.call 0xABC) := by decide
theorem test_decode_seVxKk : decode 0b0011_1010_0101_0101#16 = some (.seVxKk 0xA 0x55) := by decide
theorem test_decode_sneVxKk : decode 0b0100_1010_0101_0101#16 = some (.sneVxKk 0xA 0x55) := by decide
theorem test_decode_seVxVy : decode 0b0101_1010_1011_0000#16 = some (.seVxVy 0xA 0xB) := by decide
theorem test_decode_ldVxKk : decode 0b0110_1010_0101_0101#16 = some (.ldVxKk 0xA 0x55) := by decide
theorem test_decode_addVxKk : decode 0b0111_1010_0101_0101#16 = some (.addVxKk 0xA 0x55) := by decide
theorem test_decode_ldVxVy : decode 0b1000_1010_1011_0000#16 = some (.ldVxVy 0xA 0xB) := by decide
theorem test_decode_orVxVy : decode 0b1000_1010_1011_0001#16 = some (.orVxVy 0xA 0xB) := by decide
theorem test_decode_andVxVy : decode 0b1000_1010_1011_0010#16 = some (.andVxVy 0xA 0xB) := by decide
theorem test_decode_xorVxVy : decode 0b1000_1010_1011_0011#16 = some (.xorVxVy 0xA 0xB) := by decide
theorem test_decode_addVxVy : decode 0b1000_1010_1011_0100#16 = some (.addVxVy 0xA 0xB) := by decide
theorem test_decode_subVxVy : decode 0b1000_1010_1011_0101#16 = some (.subVxVy 0xA 0xB) := by decide
theorem test_decode_shrVx : decode 0b1000_1010_1011_0110#16 = some (.shrVx 0xA 0xB) := by decide
theorem test_decode_subnVxVy : decode 0b1000_1010_1011_0111#16 = some (.subnVxVy 0xA 0xB) := by decide
theorem test_decode_shlVx : decode 0b1000_1010_1011_1110#16 = some (.shlVx 0xA 0xB) := by decide
theorem test_decode_sneVxVy : decode 0b1001_1010_1011_0000#16 = some (.sneVxVy 0xA 0xB) := by decide
theorem test_decode_ldINnn : decode 0b1010_1010_1011_1100#16 = some (.ldINnn 0xABC) := by decide
theorem test_decode_jpV0Nnn : decode 0b1011_1010_1011_1100#16 = some (.jpV0Nnn 0xABC) := by decide
theorem test_decode_rndVxKk : decode 0b1100_1010_0101_0101#16 = some (.rndVxKk 0xA 0x55) := by decide
theorem test_decode_drwVxVyN : decode 0b1101_1010_1011_1111#16 = some (.drwVxVyN 0xA 0xB 15) := by decide
theorem test_decode_skpVx : decode 0b1110_1010_1001_1110#16 = some (.skpVx 0xA) := by decide
theorem test_decode_sknpVx : decode 0b1110_1010_1010_0001#16 = some (.sknpVx 0xA) := by decide
theorem test_decode_ldVxDt : decode 0b1111_1010_0000_0111#16 = some (.ldVxDt 0xA) := by decide
theorem test_decode_ldVxK : decode 0b1111_1010_0000_1010#16 = some (.ldVxK 0xA) := by decide
theorem test_decode_ldDtVx : decode 0b1111_1010_0001_0101#16 = some (.ldDtVx 0xA) := by decide
theorem test_decode_ldStVx : decode 0b1111_1010_0001_1000#16 = some (.ldStVx 0xA) := by decide
theorem test_decode_addIVx : decode 0b1111_1010_0001_1110#16 = some (.addIVx 0xA) := by decide
theorem test_decode_ldFVx : decode 0b1111_1010_0010_1001#16 = some (.ldFVx 0xA) := by decide
theorem test_decode_ldBVx : decode 0b1111_1010_0011_0011#16 = some (.ldBVx 0xA) := by decide
theorem test_decode_ldMemVx : decode 0b1111_1010_0101_0101#16 = some (.ldMemVx 0xA) := by decide
theorem test_decode_ldVxMem : decode 0b1111_1010_0110_0101#16 = some (.ldVxMem 0xA) := by decide

/-- Decode misses (95_test_vectors.md section 2). -/
theorem test_decode_misses : decode 0x5AB1#16 = none ∧ decode 0x8AB8#16 = none ∧ decode 0x8ABF#16 = none ∧
    decode 0x9ABF#16 = none ∧ decode 0xEA9F#16 = none ∧ decode 0xFA00#16 = none ∧ decode 0xFFFF#16 = none := by decide

/-- Mask and match of rows with four, two and one literal digits (R53). -/
theorem test_masks : Opcode.cls.signature.mask = 0xFFFF#16 ∧ Opcode.cls.signature.matchValue = 0x00E0#16 ∧
    Opcode.seVxVy.signature.mask = 0xF00F#16 ∧ Opcode.seVxVy.signature.matchValue = 0x5000#16 ∧
    Opcode.ldBVx.signature.mask = 0xF0FF#16 ∧ Opcode.ldBVx.signature.matchValue = 0xF033#16 ∧
    Opcode.sys.signature.mask = 0xF000#16 ∧ Opcode.sys.signature.matchValue = 0x0000#16 := by decide

theorem test_decodeTableWord : decodeTableWord 16 0x6005 = some (.ldVxKk 0 5) ∧ decodeTableWord 16 0x5AB1 = none := by decide

theorem test_decodeBytes : decodeBytes [0xA0, 0x00, 0xD0] = .ok (.ldINnn 0, [0xD0]) ∧
    decodeBytes [0x5A, 0xB1] = .error (.noInstruction 0x5AB1) ∧ decodeBytes [0x60] = .error .tooShort := ⟨rfl, rfl, rfl⟩

/-- The assembler spelling (R60). -/
theorem test_render : (Instr.drwVxVyN 0xA 0xB 15).render = "DRW VA,VB,F" ∧ (Instr.ldMemVx 2).render = "LD [I],V2" := by
  decide

/-! ### Helpers -/

/-- A state with some `V` registers set. -/
def withVs (s : State) (l : List (RegIx × Byte)) : State := l.foldl (fun s p => s.writeV p.1 p.2) s

/-- Reset with some `V` registers and `I` set. -/
def regs (l : List (RegIx × Byte)) (i : Word) : State := (withVs State.reset l).writeI i

/-- The reset state under another configuration. -/
def resetWith (c : Config) : State := State.boot c []

/-- The configuration with `RESET_POLICY = UNSET`. -/
def unsetCells : Config := { Config.standard with resetPolicy := .unset }

/-- The configuration with `ALU_VF_READ = LATCHED`. -/
def latchedReads : Config := { Config.standard with aluVfRead := .latched }

/-- The next state of an outcome; none if it stops. -/
def nextOf : Result → Option State
  | .next t => some t
  | .fault _ => none
  | .refused _ => none

theorem next_of_nextOf {r : Result} {t : State} (h : nextOf r = some t) : r = .next t := by
  cases r with
  | next u => exact congrArg _ (Option.some.inj h)
  | fault _ => cases h
  | refused _ => cases h

/-- One step of the machine with a word placed at `PC`. -/
def after (s : State) (w : Nat) : Option State := nextOf (step (s.withFetchWord 16 w))

/-- One turn of an agent. -/
def turn (m : Move) (s : State) : Option State := nextOf (act m s)

/-! ### One step (95_test_vectors.md) -/

/-- DS18, with cell (3, 4) lit. -/
theorem test_cls_clears_and_dirties : (after (State.reset.setFb (Grid.toggle Grid.unlit 3 4)) 0x00E0).map (fun t => (t.pc, Grid.cell t.fb 3 4, t.dirty)) =
    some (0x202, false, true) := by decide

/-- FL7. -/
theorem test_ret_after_the_call : (after ((State.reset.setSp 1).writeStack 1 0x208) 0x00EE).map (fun t => (t.pc, t.sp, t.readStack 1)) =
    some (0x20A, 0, some 0x208) := by decide

/-- FL8. -/
theorem test_ret_on_empty_stack : (after State.reset 0x00EE).map (fun t => (t.pc, t.sp)) =
    some (0x002, 255) := by decide

/-- FL22. -/
theorem test_sys_only_advances : (after State.reset 0x0123).map (fun t => (t.pc, t.clock)) =
    some (0x202, .run 1) := by decide

/-- FL1. -/
theorem test_jp_to_zero : (after State.reset 0x1000).map (fun t => (t.pc, t.clock)) =
    some (0x000, .run 1) := by decide

/-- FL4. -/
theorem test_call_fourteen : (after (State.reset.setSp 14) 0x2300).map (fun t => (t.pc, t.sp, t.readStack 15)) =
    some (0x300, 15, some 0x200) := by decide

/-- FL5. -/
theorem test_call_full_stack_faults : (after (State.reset.setSp 15) 0x2300).map (fun t => (t.pc, t.sp, t.clock)) =
    some (0x200, 15, .faulted .stackIndex 0x200 0x2300) := by decide

/-- FL12, at 0xFFFE. -/
theorem test_se_immediate_wraps_pc : (after (State.reset.setPc 0xFFFE) 0x3000).map (fun t => t.pc) =
    some 0x002 := by decide

/-- FL15. -/
theorem test_sne_immediate : (after (regs [(3, 0x10)] 0) 0x4311).map (fun t => t.pc) =
    some 0x204 := by decide

/-- FL16. -/
theorem test_se_registers : (after (regs [(1, 7), (2, 7)] 0) 0x5120).map (fun t => t.pc) =
    some 0x204 := by decide

/-- FL18. -/
theorem test_sne_same_register : (after (regs [(1, 7)] 0) 0x9110).map (fun t => t.pc) =
    some 0x202 := by decide

/-- FL19. -/
theorem test_sne_registers : (after (regs [(1, 7), (2, 8)] 0) 0x9120).map (fun t => t.pc) =
    some 0x204 := by decide

/-- FL20. -/
theorem test_jp_v0_not_reduced : (after (regs [(0, 0xFF)] 0) 0xBFFF).map (fun t => t.pc) =
    some 0x10FE := by decide

/-- FL17. -/
theorem test_decode_miss_only_advances : (after (regs [(1, 7), (2, 7)] 0) 0x5121).map (fun t => (t.pc, t.clock)) =
    some (0x202, .run 1) := by decide

/-- AL1. -/
theorem test_ld_immediate : (after State.reset 0x60FF).map (fun t => (t.pc, t.readV 0)) =
    some (0x202, some 0xFF) := by decide

/-- AL2. -/
theorem test_add_immediate_no_carry : (after (regs [(1, 0xFF)] 0) 0x7101).map (fun t => (t.readV 1, t.readV 15)) =
    some (some 0, some 0) := by decide

/-- AL30. -/
theorem test_add_immediate_unset_faults : (after (resetWith unsetCells) 0x7101).map (fun t => (t.pc, t.clock)) =
    some (0x200, .faulted .unsetRead 0x200 0x7101) := by decide

/-- AL4. -/
theorem test_ld_register : (after (regs [(2, 0x7A)] 0) 0x8120).map (fun t => t.readV 1) =
    some (some 0x7A) := by decide

/-- AL5. -/
theorem test_or_keeps_vf : (after (regs [(0, 0xF0), (1, 0x0F), (15, 1)] 0) 0x8011).map (fun t => (t.readV 0, t.readV 15)) =
    some (some 0xFF, some 1) := by decide

/-- AL6. -/
theorem test_and : (after (regs [(0, 0xF3), (1, 0x3F)] 0) 0x8012).map (fun t => t.readV 0) =
    some (some 0x33) := by decide

/-- AL7. -/
theorem test_xor : (after (regs [(0, 0xFF), (1, 0x0F)] 0) 0x8013).map (fun t => t.readV 0) =
    some (some 0xF0) := by decide

/-- AL8. -/
theorem test_add_carry : (after (regs [(0, 0xFF), (1, 1)] 0) 0x8014).map (fun t => (t.readV 0, t.readV 15)) =
    some (some 0, some 1) := by decide

/-- AL10. -/
theorem test_add_into_vf : (after (regs [(15, 0xF0), (1, 0x20)] 0) 0x8F14).map (fun t => t.readV 15) =
    some (some 0x10) := by decide

/-- AL12. -/
theorem test_sub_borrow : (after (regs [(3, 5), (4, 7), (15, 1)] 0) 0x8345).map (fun t => (t.readV 3, t.readV 15)) =
    some (some 0xFE, some 0) := by decide

/-- AL20L. -/
theorem test_sub_from_vf_latched : (after ((withVs (resetWith latchedReads) [(15, 0x10), (1, 5)])) 0x8F15).map (fun t => t.readV 15) =
    some (some 0x0B) := by decide

/-- AL14. -/
theorem test_subn_no_borrow : (after (regs [(3, 5), (4, 7)] 0) 0x8347).map (fun t => (t.readV 3, t.readV 15)) =
    some (some 2, some 1) := by decide

/-- AL24S. -/
theorem test_subn_vf_sequential : (after (regs [(1, 2), (15, 5)] 0) 0x81F7).map (fun t => (t.readV 1, t.readV 15)) =
    some (some 0xFF, some 1) := by decide

/-- AL16: y is ignored. -/
theorem test_shr : (after (regs [(6, 0x81), (5, 0x33)] 0) 0x8656).map (fun t => (t.readV 6, t.readV 15)) =
    some (some 0x40, some 1) := by decide

/-- AL31: Vy is not read. -/
theorem test_shr_unset_y : (after (withVs (resetWith unsetCells) [(1, 3)]) 0x8126).map (fun t => (t.readV 1, t.readV 15)) =
    some (some 1, some 1) := by decide

/-- AL18. -/
theorem test_shl : (after (regs [(6, 0x81)] 0) 0x860E).map (fun t => (t.readV 6, t.readV 15)) =
    some (some 2, some 1) := by decide

/-- AL26S. -/
theorem test_shl_vf_sequential : (after (regs [(15, 0xC0)] 0) 0x8F0E).map (fun t => t.readV 15) =
    some (some 2) := by decide

/-- IM1. -/
theorem test_ld_i : (after State.reset 0xAFFF).map (fun t => t.ireg) =
    some (some 0x0FFF) := by decide

/-- IM3. -/
theorem test_add_i_wraps : (after (regs [(0, 1), (15, 7)] 0xFFFF) 0xF01E).map (fun t => (t.ireg, t.readV 15)) =
    some (some 0, some 7) := by decide

/-- IM5. -/
theorem test_ld_f_whole_byte : (after (regs [(0, 0xFF)] 0) 0xF029).map (fun t => t.ireg) =
    some (some 0x04FB) := by decide

/-- IM6. -/
theorem test_ld_b_wraps : (after (regs [(0, 0xFF)] 0xFFE) 0xF033).map (fun t => (t.memRead 0xFFE, t.memRead 0xFFF, t.memRead 0)) =
    some (2, 5, 5) := by decide

/-- IM8. -/
theorem test_ld_b_digits : (after (regs [(0, 0x9C)] 0x300) 0xF033).map (fun t => (t.memRead 0x300, t.memRead 0x301, t.memRead 0x302)) =
    some (1, 5, 6) := by decide

/-- IM10. -/
theorem test_store_registers_wraps : (after (regs [(0, 0xAA), (1, 0xBB), (2, 0xCC), (3, 0xDD)] 0xFFE) 0xF255).map (fun t => (t.memRead 0xFFE, t.memRead 0xFFF, t.memRead 0, t.memRead 1)) =
    some (0xAA, 0xBB, 0xCC, 0) := by decide

/-- IM12. -/
theorem test_store_unset_register_faults : (after ((withVs (resetWith unsetCells) [(0, 1), (1, 2)]).writeI 0x300) 0xF255).map (fun t => (t.memRead 0x300, t.clock)) =
    some (0, .faulted .unsetRead 0x200 0xF255) := by decide

/-- IM11. -/
theorem test_load_registers : (after ((((regs [(3, 9)] 0x300).memWrite 0x301 1)).memWrite 0x302 5) 0xF265).map (fun t => (t.readV 0, t.readV 1, t.readV 2, t.readV 3, t.ireg)) =
    some (some 0, some 1, some 5, some 9, some 0x300) := by decide

/-- DS2. -/
theorem test_drw_wraps_columns : (after ((regs [(0, 60)] 0x300).memWrite 0x300 0xFF) 0xD011).map (fun t => (Grid.cell t.fb 63 0, Grid.cell t.fb 3 0, Grid.cell t.fb 4 0, t.dirty)) =
    some (true, true, false, true) := by decide

/-- DS8. -/
theorem test_drw_collision : (after (((regs [] 0x300).memWrite 0x300 0xC0).setFb (Grid.toggle Grid.unlit 0 0)) 0xD011).map (fun t => (Grid.cell t.fb 0 0, Grid.cell t.fb 1 0, t.readV 15)) =
    some (false, true, some 1) := by decide

/-- IT1. -/
theorem test_skp_pressed : (after ((regs [(1, 7)] 0).writeKey 7 true) 0xE19E).map (fun t => t.pc) =
    some 0x204 := by decide

/-- IT5. -/
theorem test_skp_index_faults : (after (regs [(1, 0x10)] 0) 0xE19E).map (fun t => (t.pc, t.clock)) =
    some (0x200, .faulted .keyIndex 0x200 0xE19E) := by decide

/-- IT3. -/
theorem test_sknp_released : (after (regs [(1, 7)] 0) 0xE1A1).map (fun t => t.pc) =
    some 0x204 := by decide

/-- IT9, with cell (0, 0) lit. -/
theorem test_key_wait_pushes : (after ((State.reset.setFb (Grid.toggle Grid.unlit 0 0)).setDirty true) 0xF30A).map (fun t => (t.pc, t.clock, t.dirty, t.trace.length)) =
    some (0x200, .wait 3 0, false, 1) := by decide

/-- IT17. -/
theorem test_ld_dt_into_register : (after (State.reset.setDt 0x3C) 0xF507).map (fun t => t.readV 5) =
    some (some 0x3C) := by decide

/-- IT18. -/
theorem test_ld_dt : (after (regs [(5, 0x3C)] 0) 0xF515).map (fun t => t.dt) =
    some 60 := by decide

/-- IT19. -/
theorem test_ld_st_starts_tone : (after (regs [(0, 1)] 0) 0xF018).map (fun t => (t.st, t.trace)) =
    some (1, [.startTone]) := by decide

/-- IT22. -/
theorem test_ld_st_zero_keeps_tone : (after ((regs [] 0).setSt 5) 0xF018).map (fun t => (t.st, t.trace)) =
    some (0, []) := by decide

/-- AL29: `kk = 0` gives 0 whatever the oracle draws. -/
theorem test_rnd_masked : execRndVxKk 0 0 State.reset = .next ((State.reset.setDraws 1).writeV 0 0) :=
  congrArg (fun b => Host.Outcome.next ((State.reset.setDraws 1).writeV 0 b)) (BitVec.and_zero (x := State.reset.drawByte))

/-- IT13, the completion: a press of key 7 gives `V3 = 7`. -/
theorem test_key_wait_completes : (turn .clock ((State.reset.setClock (.wait 3 0)).keyEvent 7 true)).map
    (fun t => (t.pc, t.readV 3, t.pressPending, t.clock)) = some (0x202, some 7, false, .run 1) := by decide

/-- DS19: a block end with `DIRTY` set. -/
theorem test_block_end : (turn .clock ((State.reset.setClock .blockEnd).setDirty true)).map
    (fun t => (t.dirty, t.clock, t.trace == [.present Grid.unlit])) = some (false, .run 0, true) := by decide

/-- IT26: one tick takes both timers to 0. -/
theorem test_tick : (turn .tick ((State.reset.setDt 1).setSt 1)).map (fun t => (t.dt, t.st, t.trace)) =
    some (0, 0, [.stopTone]) := by decide

/-- IT30: a release clears only the key's bit. -/
theorem test_release : (turn (.key 3 false) (State.reset.keyEvent 3 true)).map
    (fun t => (t.readKey 3, t.lastKey, t.pressPending)) = some (false, some 3, true) := by decide

/-- 60_exceptions.md R136: stop ends both clocks. -/
theorem test_stop : (turn .stop State.reset).map (fun t => (t.clock, t.timer)) = some (.stopped, .stopped) := by decide

/-- W2: memory wraps at 4096. -/
theorem test_memory_wraps : (State.reset.memWrite 4096 0x77).memRead 0 = 0x77 ∧ (State.reset.memWrite 4096 0x77).memRead 0x1000 = 0x77 ∧
    (State.reset.memWrite 0x1234 0xAB).memRead 0x0234 = 0xAB := by decide

/-- Writing what an unlisted address reads as removes the entry. -/
theorem test_memory_canonical : ((State.reset.memWrite 5 1).memWrite 5 0).mem = [] := by decide

/-- W7's ROM, the first two words after reset. -/
theorem test_boot : (State.boot Config.standard [0x60, 0x05, 0xA0, 0x00]).fetchWord = 0x6005 := by decide

/-- `withFetchWord` changes nothing at reset but the word, and puts the instruction clock's turn next. -/
theorem test_withFetchWord : State.reset.withFetchWord 16 0x6005 =
    { State.reset with mem := [(0x200, 0x60), (0x201, 0x05)], schedule := [.clock] } := by decide

/-- Both clocks have a turn in the first round after reset (R129). -/
theorem test_reset_round : .clock ∈ State.reset.turns ∧ .tick ∈ State.reset.turns := by
  rw [State.turns_of_nil rfl (by decide)]
  exact ⟨State.mem_fairRound _ (.inl rfl), State.mem_fairRound _ (.inr rfl)⟩

/-! ### Witnesses: the hypotheses of the statements can be met

Each `witness_<Statement>` names the statement it is about. `placed s w` is `s` with the word `w` placed for the next step. -/

/-- A state with a word placed where the next step fetches. -/
def placed (s : State) (w : Nat) : State := s.withFetchWord 16 w

/-- Every register, `I` and stack entry unset. -/
def unsetState : State := resetWith unsetCells

theorem test_witness_DecodeEncodeRoundTrip :
    (Instr.sys 0x0DF).wellFormed = true ∧ (Instr.sys 0x0E1).wellFormed = true ∧ (Instr.sys 0x0EF).wellFormed = true ∧
    (Instr.drwVxVyN 15 15 15).wellFormed = true := by decide

theorem test_witness_EncodeDecodeRoundTrip : decode 0x00E1#16 = some (.sys 0x0E1) ∧ decode 0xFF65#16 = some (.ldVxMem 15) := by
  decide

/-- Row 3 of the table is `SYS`, and no earlier row accepts `0x00E1`. -/
theorem test_witness_DecodeTakesFirstMatchingRow :
    opcodes[2]? = some .sys ∧ 0x00E1#16 &&& Opcode.sys.signature.mask = Opcode.sys.signature.matchValue ∧
    0x00E1#16 &&& Opcode.cls.signature.mask ≠ Opcode.cls.signature.matchValue ∧
    0x00E1#16 &&& Opcode.ret.signature.mask ≠ Opcode.ret.signature.matchValue ∧ decode 0x5AB1#16 = none ∧
    (0x0E1#12 ≠ 0x0E0#12 ∧ 0x0E1#12 ≠ 0x0EE#12) := by decide

theorem test_witness_OnlySysOverlapsOtherRows :
    Opcode.seVxVy.signature.accepts 0x5AB0#16 = true ∧ Opcode.cls.signature.accepts 0x00E0#16 = true ∧
    Opcode.ret.signature.accepts 0x00EE#16 = true ∧ Opcode.sys.signature.accepts 0x00E0#16 = true ∧
    Opcode.sys.signature.accepts 0x00EE#16 = true := by decide

theorem test_witness_DecodeMissesAreTheListedWords :
    decode 0x5001#16 = none ∧ decode 0x8008#16 = none ∧ decode 0x800F#16 = none ∧ decode 0x9001#16 = none ∧
    decode 0xE09F#16 = none ∧ decode 0xF066#16 = none := by decide

/-- At step 9 as at step 0: one word that decodes and one that does not. -/
theorem test_witness_StepRunsDecodedInstruction :
    ((placed State.reset 0x6005).clock = .run 0 ∧ (placed State.reset 0x6005).nextMove = some .clock ∧
      decode (placed State.reset 0x6005).fetchWord = some (.ldVxKk 0 5) ∧
      nextOf (exec (.ldVxKk 0 5) (placed State.reset 0x6005).popTurn) = some ((placed State.reset 0x6005).popTurn.writeV 0 5)) ∧
    ((placed (State.reset.setClock (.run 9)) 0x5AB1).clock = .run 9 ∧
      (placed (State.reset.setClock (.run 9)) 0x5AB1).nextMove = some .clock ∧
      decode (placed (State.reset.setClock (.run 9)) 0x5AB1).fetchWord = none) := by decide

theorem test_witness_ScheduledTurnIsTaken :
    (State.reset.setSchedule [.key 15 true, .tick]).schedule = [.key 15 true, .tick] ∧
    (State.reset.schedule = [] ∧ (State.reset.clockEnabled = true ∨ State.reset.timerEnabled = true)) := by decide

theorem test_witness_BlockEndPushes :
    (State.reset.setDirty true).dirty = true ∧ State.reset.dirty = false ∧
    (((State.reset.setClock .blockEnd).setSchedule [.clock]).clock = .blockEnd ∧
      ((State.reset.setClock .blockEnd).setSchedule [.clock]).nextMove = some .clock) := by decide

/-- A turn answers a next state in each phase, and for each agent. -/
theorem test_witness_ClockPhaseTransitions :
    (turn .clock State.reset).isSome = true ∧ (turn .clock (placed State.reset 0xF30A)).isSome = true ∧
    (turn .clock (placed (State.reset.setSp 15) 0x2300)).isSome = true ∧
    (turn .clock ((State.reset.setClock (.wait 3 9)).keyEvent 7 true)).isSome = true ∧
    (turn .clock (State.reset.setClock (.wait 3 9))).isSome = true ∧
    (turn .clock (State.reset.setClock .blockEnd)).isSome = true ∧
    (turn .clock (State.reset.setClock (.faulted .keyIndex 0 0))).isSome = true ∧
    (turn .clock (State.reset.setClock .stopped)).isSome = true ∧ (turn .tick State.reset).isSome = true ∧
    (turn (.key 15 true) State.reset).isSome = true ∧ (turn .stop State.reset).isSome = true := by decide

/-- In `RUN(0)`: each cause, at the first value of its range. -/
theorem test_witness_FaultCodesHaveTheirCauses :
    (State.reset.setSp 16).clock = .run 0 ∧
    FaultCause .ret (State.reset.setSp 16) .stackIndex ∧ FaultCause (.call 0) (State.reset.setSp 15) .stackIndex ∧
    FaultCause .ret unsetState .unsetRead ∧ FaultCause (.addIVx 0) unsetState .unsetRead ∧
    FaultCause (.skpVx 0) (regs [(0, 16)] 0) .keyIndex :=
  ⟨by decide, .inl ⟨rfl, by decide⟩, .inr ⟨0, rfl, by decide⟩, .inr ⟨rfl, 0, by decide, by decide⟩,
    .inl (.inr ⟨rfl, by decide⟩), ⟨0, 16, .inl rfl, by decide, by decide⟩⟩

/-- A fault raised in `RUN(0)`; a turn in `FAULTED`; and the timer clock running there. -/
theorem test_witness_FaultHasNoEffectAndIsFinal :
    nextOf (exec (.call 0x300) (placed (State.reset.setSp 15) 0x2300)) =
      some ((placed (State.reset.setSp 15) 0x2300).faulted .stackIndex) ∧
    (turn (.key 0 true) (State.reset.faulted .keyIndex)).isSome = true ∧
    (turn .stop (State.reset.faulted .keyIndex)).isSome = true ∧
    (State.reset.faulted .keyIndex).clock = .faulted .keyIndex 0x200 0x0000 ∧
    (State.reset.faulted .keyIndex).timer = .running := by decide

theorem test_witness_EveryInstructionAnswers : State.reset.clock = .run 0 ∧ (∀ x, Instr.cls ≠ .ldVxK x) ∧
    (∀ k, (State.reset.setClock .blockEnd).clock ≠ .run k) := by decide

theorem test_witness_SysDoesNothing : (0x0E1#12 ≠ 0x0E0#12 ∧ 0x0E1#12 ≠ 0x0EE#12) ∧ (placed State.reset 0x00E1).atWord 0 0x00E1 :=
  ⟨by decide, by decide, by decide, by decide⟩

theorem test_witness_JumpsReachTheirTargets : (placed State.reset 0x1FFF).atWord 0 0x1FFF ∧
    ((placed State.reset 0xBFFF).atWord 0 0xBFFF ∧ (placed State.reset 0xBFFF).readV 0 = some 0) ∧
    ((placed unsetState 0xB000).atWord 0 0xB000 ∧ (placed unsetState 0xB000).readV 0 = none) :=
  ⟨⟨by decide, by decide, by decide⟩, ⟨⟨by decide, by decide, by decide⟩, by decide⟩,
    ⟨by decide, by decide, by decide⟩, by decide⟩

/-- `SP` = 14 and 255 for the call, 15 and 254 for the fault. -/
theorem test_witness_CallPushesItsAddress :
    ((State.reset.setSp 14).sp.toNat + 1) % 256 < 16 ∧ ((State.reset.setSp 255).sp.toNat + 1) % 256 < 16 ∧
    16 ≤ ((State.reset.setSp 15).sp.toNat + 1) % 256 ∧ 16 ≤ ((State.reset.setSp 254).sp.toNat + 1) % 256 ∧
    (placed (State.reset.setSp 14) 0x2300).atWord 0 0x2300 :=
  ⟨by decide, by decide, by decide, by decide, by decide, by decide, by decide⟩

theorem test_witness_RetPopsTheAddress :
    (∃ h : (State.reset.setSp 15).sp.toNat < 16, (State.reset.setSp 15).stack[(State.reset.setSp 15).sp.toNat] = some 0) ∧
    (∃ h : (unsetState.setSp 15).sp.toNat < 16, (unsetState.setSp 15).stack[(unsetState.setSp 15).sp.toNat] = none) ∧
    16 ≤ (State.reset.setSp 16).sp.toNat ∧ (placed (State.reset.setSp 15) 0x00EE).atWord 0 0x00EE :=
  ⟨⟨by decide, by decide⟩, ⟨by decide, by decide⟩, by decide, by decide, by decide, by decide⟩

theorem test_witness_SkipsOnImmediate :
    ((placed State.reset 0x3F00).readV 15 = some 0 ∧ (placed State.reset 0x3F00).atWord 0 0x3F00 ∧
      (placed State.reset 0x4F00).atWord 0 0x4F00) ∧ unsetState.readV 15 = none :=
  ⟨⟨by decide, ⟨by decide, by decide, by decide⟩, by decide, by decide, by decide⟩, by decide⟩

theorem test_witness_SkipsOnRegisters :
    ((placed State.reset 0x5F00).readV 15 = some 0 ∧ (placed State.reset 0x5F00).readV 0 = some 0 ∧
      (placed State.reset 0x5F00).atWord 0 0x5F00 ∧ (placed State.reset 0x9F00).atWord 0 0x9F00) ∧
    (unsetState.readV 0 = none ∨ unsetState.readV 1 = none) :=
  ⟨⟨by decide, by decide, ⟨by decide, by decide, by decide⟩, by decide, by decide, by decide⟩, by decide⟩

/-- A `CALL 0x300` at 0x200, with `RET` at 0x300, in step `k` and with `SP` = 255. -/
def callState (k : Fin 10) : State :=
  placed (((State.reset.setSp 255).setClock (.run k)).memWrite 0x301 0xEE) 0x2300

/-- Steps 8 and 9. -/
theorem test_witness_CallThenRetResumesAfterTheCall : ∀ k : Fin 10, k = 8 ∨ k = 9 →
    (callState k).clock = .run k ∧ (callState k).fetchWord = 0x2300 ∧ ((callState k).sp.toNat + 1) % 256 < 16 ∧
    (callState k).memRead 0x300 = 0x00#8 ∧ (callState k).memRead (0x300 + 1) = 0xEE#8 := by decide

/-- One operand set, both set, and an operand unset, with the word of each family's first row placed. -/
theorem test_witness_LoadsWriteOneRegister : (placed State.reset 0x6F00).atWord 0 0x6F00 ∧
    ((placed State.reset 0x8F00).readV 0 = some 0 ∧ (placed State.reset 0x8F00).atWord 0 0x8F00) ∧ unsetState.readV 15 = none :=
  ⟨⟨by decide, by decide, by decide⟩, ⟨by decide, by decide, by decide, by decide⟩, by decide⟩

theorem test_witness_AddImmediateHasNoCarry :
    ((placed State.reset 0x7FFF).readV 15 = some 0 ∧ (placed State.reset 0x7FFF).atWord 0 0x7FFF) ∧ unsetState.readV 15 = none :=
  ⟨⟨by decide, by decide, by decide, by decide⟩, by decide⟩

theorem test_witness_BitwiseOperationsLeaveVF :
    ((placed State.reset 0x8F01).readV 15 = some 0 ∧ (placed State.reset 0x8F01).readV 0 = some 0 ∧
      (placed State.reset 0x8F01).atWord 0 0x8F01) ∧ (unsetState.readV 0 = none ∨ unsetState.readV 1 = none) :=
  ⟨⟨by decide, by decide, by decide, by decide, by decide⟩, by decide⟩

theorem test_witness_AddRegistersSetsCarry :
    ((placed (regs [(15, 255), (0, 1)] 0) 0x8F04).readV 15 = some 255 ∧ (placed (regs [(15, 255), (0, 1)] 0) 0x8F04).readV 0 = some 1 ∧
      (placed (regs [(15, 255), (0, 1)] 0) 0x8F04).atWord 0 0x8F04) ∧ (unsetState.readV 0 = none ∨ unsetState.readV 1 = none) :=
  ⟨⟨by decide, by decide, by decide, by decide, by decide⟩, by decide⟩

/-- Both values of `ALU_VF_READ`, and a borrow and none. -/
theorem test_witness_SubtractionsSetNoBorrow :
    (State.reset.readV 15 = some 0 ∧ State.reset.readV 0 = some 0 ∧ State.reset.config.aluVfRead = .sequential) ∧
    ((resetWith latchedReads).readV 15 = some 0 ∧ (resetWith latchedReads).config.aluVfRead = .latched) ∧
    ((regs [(1, 1)] 0).readV 0 = some 0 ∧ (regs [(1, 1)] 0).readV 1 = some 1) ∧
    (unsetState.readV 0 = none ∨ unsetState.readV 1 = none) ∧ (placed State.reset 0x8F05).atWord 0 0x8F05 :=
  ⟨by decide, by decide, by decide, by decide, by decide, by decide, by decide⟩

theorem test_witness_ShiftsSetTheBitMovedOut :
    (State.reset.readV 15 = some 0 ∧ (0 : Byte) = 0 &&& 1 ∧ State.reset.config.aluVfRead = .sequential) ∧
    ((withVs (resetWith latchedReads) [(15, 0x81)]).readV 15 = some 0x81 ∧ (1 : Byte) = 0x81 &&& 1 ∧
      (1 : Byte) = (0x81 >>> 7) &&& 1 ∧ (withVs (resetWith latchedReads) [(15, 0x81)]).config.aluVfRead = .latched) ∧
    unsetState.readV 15 = none ∧ (placed State.reset 0x8FF6).atWord 0 0x8FF6 :=
  ⟨by decide, by decide, by decide, by decide, by decide, by decide⟩

theorem test_witness_RandomByteIsMasked : (placed State.reset 0xCFFF).atWord 0 0xCFFF := ⟨by decide, by decide, by decide⟩

theorem test_witness_IndexRegisterIsWritten : (placed State.reset 0xAFFF).atWord 0 0xAFFF ∧
    ((placed (regs [(15, 1)] 0xFFFF) 0xFF1E).ireg = some 0xFFFF ∧ (placed (regs [(15, 1)] 0xFFFF) 0xFF1E).readV 15 = some 1 ∧
      (placed (regs [(15, 1)] 0xFFFF) 0xFF1E).atWord 0 0xFF1E) ∧ (unsetState.ireg = none ∨ unsetState.readV 15 = none) ∧
    unsetState.readV 15 = none :=
  ⟨⟨by decide, by decide, by decide⟩, ⟨by decide, by decide, by decide, by decide, by decide⟩, by decide, by decide⟩

/-- `I` = 0xFFE, so that the third byte wraps. -/
theorem test_witness_DecimalDigitsAreStored :
    (Memory.wf (placed (regs [(0, 0xFF)] 0xFFE) 0xF033).mem = true ∧ (placed (regs [(0, 0xFF)] 0xFFE) 0xF033).ireg = some 0xFFE ∧
      (placed (regs [(0, 0xFF)] 0xFFE) 0xF033).readV 0 = some 0xFF ∧
      (placed (regs [(0, 0xFF)] 0xFFE) 0xF033).atWord 0 0xF033 ∧ (∀ k, k < 3 → 1 % 4096 ≠ (0xFFE + k) % 4096)) ∧
    (unsetState.ireg = none ∨ unsetState.readV 0 = none) :=
  ⟨⟨by decide, by decide, by decide, ⟨by decide, by decide, by decide⟩, by decide⟩, by decide⟩

/-- All sixteen registers, with `I` = 0xFFFF. -/
theorem test_witness_RegistersAreStored :
    (Memory.wf (placed (regs [] 0xFFFF) 0xFF55).mem = true ∧ (placed (regs [] 0xFFFF) 0xFF55).ireg = some 0xFFFF ∧
      (∀ r : RegIx, r ≤ 15 → (placed (regs [] 0xFFFF) 0xFF55).readV r ≠ none) ∧
      (placed (regs [] 0xFFFF) 0xFF55).atWord 0 0xFF55) ∧
    (unsetState.ireg = none ∨ ((15 : RegIx) ≤ 15 ∧ unsetState.readV 15 = none)) :=
  ⟨⟨by decide, by decide, by decide, by decide, by decide, by decide⟩, by decide⟩

theorem test_witness_RegistersAreLoaded :
    ((placed (regs [] 0xFFFF) 0xFF65).ireg = some 0xFFFF ∧ (placed (regs [] 0xFFFF) 0xFF65).atWord 0 0xFF65) ∧
    unsetState.ireg = none := ⟨⟨by decide, by decide, by decide, by decide⟩, by decide⟩

theorem test_witness_MemoryWriteSetsOneByte : Memory.wf State.reset.mem = true ∧ 4096 % 4096 = 0 % 4096 := by decide

/-- `LD [I],VF` whose last two bytes land on the next word. -/
def storing : State := placed (regs [(14, 0x12), (15, 0x02)] 0x1F4) 0xFF55

/-- `LD B,V0` at 0xFFC whose first two digits land on the next word, at 0xFFE and 0xFFF, the third wrapping. -/
def storingDigits : State := placed ((regs [(0, 0x9C)] 0xFFE).setPc 0xFFC) 0xF033

theorem test_witness_StoredWordIsFetchedNext :
    (storing.atWord 0 0xFF55 ∧ Memory.wf storing.mem = true ∧ storing.ireg = some 0x1F4 ∧
      (∀ r : RegIx, r ≤ 15 → storing.readV r ≠ none) ∧ storing.readV 14 = some 0x12 ∧ storing.readV 15 = some 0x02 ∧
      (0x1F4 + 14) % 4096 = (storing.pc.toNat + 2) % 4096 ∧ (0x1F4 + 15) % 4096 = (storing.pc.toNat + 3) % 4096) ∧
    (storingDigits.atWord 0 0xF033 ∧ Memory.wf storingDigits.mem = true ∧ storingDigits.ireg = some 0xFFE ∧
      storingDigits.readV 0 = some 0x9C ∧ [0x9C / 100, 0x9C / 10 % 10, 0x9C % 10][1]? = some 5 ∧
      (0xFFE + 0) % 4096 = (storingDigits.pc.toNat + 2) % 4096 ∧
      (0xFFE + 1) % 4096 = (storingDigits.pc.toNat + 3) % 4096) :=
  ⟨⟨⟨by decide, by decide, by decide⟩, by decide, by decide, by decide, by decide, by decide, by decide, by decide⟩,
    ⟨by decide, by decide, by decide⟩, by decide, by decide, by decide, by decide, by decide, by decide⟩

theorem test_witness_RomIsLoadedFromTheEntryPoint : (0xFFF : Nat) < 4096 ∧ ¬ 0x200 ≤ 0x1FF ∧
    (0x200 ≤ 0x200 ∧ 0x200 - 0x200 < min [0x12#8].length 0xE00) ∧ ¬ 0x201 - 0x200 < min [0x12#8].length 0xE00 := by decide

theorem test_witness_ClsUnlightsEveryCell : (placed State.reset 0x00E0).atWord 0 0x00E0 := ⟨by decide, by decide, by decide⟩

theorem test_witness_DrwDrawsAndSetsCollision :
    ((placed State.reset 0xDF0F).readV 15 = some 0 ∧ (placed State.reset 0xDF0F).readV 0 = some 0 ∧
      (placed State.reset 0xDF0F).ireg = some 0 ∧ (placed State.reset 0xDF0F).atWord 0 0xDF0F) ∧
    (unsetState.readV 15 = none ∨ unsetState.readV 0 = none ∨ unsetState.ireg = none) :=
  ⟨⟨by decide, by decide, by decide, by decide, by decide, by decide⟩, by decide⟩

/-- Fifteen rows are allowed; wrapping, a bit of row 1 at (62, 31) lands on row 0; clipping, one of row 0 stays on the edge. -/
theorem test_witness_DrawSpriteIsPointwiseXor : (List.replicate 15 0xFF#8).length ≤ 15 ∧
    SpriteHits false 62 31 [0xF0, 0x90] 1 0 ∧ SpriteHits true 62 31 [0xF0, 0x90] 63 31 ∧
    ¬ SpriteHits true 62 31 [] 0 0 ∧ SpriteProcessed true 62 31 [0xF0] :=
  ⟨by decide, ⟨1, 3, 0x90, by decide, rfl, by decide, by decide, by decide, by decide⟩,
    ⟨0, 1, 0xF0, by decide, rfl, by decide, by decide, by decide, by decide⟩,
    fun ⟨_, _, _, _, h, _⟩ => by simp at h, ⟨0, 0, by decide, by decide, by decide⟩⟩

theorem test_witness_DrawingTwiceRestoresTheGrid : [0xF0#8, 0x90#8].length ≤ 15 ∧ Grid.cell Grid.unlit 0 0 = false ∧
    Grid.cell (drawSprite Grid.unlit 60 0 [0xF8] false).grid 0 0 = true := by decide

theorem test_witness_FramesArePushedInTwoPlaces :
    (turn .clock ((State.reset.setClock .blockEnd).setDirty true)).map (fun t => t.trace == [.present Grid.unlit]) = some true ∧
    (turn .clock ((placed State.reset 0xF30A).setDirty true)).map (fun t => t.trace == [.present Grid.unlit]) = some true ∧
    ((State.reset.setClock .blockEnd).setDirty true).dirty = true ∧
    decode ((placed State.reset 0xF30A).setDirty true).fetchWord = some (.ldVxK 3) := by decide

/-- Key indices 15 and 16. -/
theorem test_witness_SkipsOnKeys :
    ((15 : Byte).toNat < 16 ∧ (placed (regs [(15, 15)] 0) 0xEF9E).readV 15 = some 15 ∧
      (placed (regs [(15, 15)] 0) 0xEF9E).atWord 0 0xEF9E) ∧
    ((regs [(15, 16)] 0).readV 15 = some 16 ∧ 16 ≤ (16 : Byte).toNat) ∧ unsetState.readV 15 = none :=
  ⟨⟨by decide, by decide, by decide, by decide, by decide⟩, by decide, by decide⟩

theorem test_witness_KeyWaitStarts : (placed State.reset 0xFF0A).clock = .run 0 ∧ (placed State.reset 0xFF0A).atWord 0 0xFF0A :=
  ⟨by decide, by decide, by decide, by decide⟩

/-- A wait at step 9 with a press, and the clock's turn next. -/
def pressed : State := ((State.reset.setClock (.wait 15 9)).keyEvent 15 true).setSchedule [.clock]

/-- A wait at step 9 with a press, and one without. -/
theorem test_witness_KeyWaitCompletes :
    (pressed.clock = .wait 15 9 ∧ pressed.pressPending = true ∧ pressed.lastKey = some 15 ∧
      pressed.nextMove = some .clock) ∧
    ((State.reset.setClock (.wait 15 9)).clock = .wait 15 9 ∧ (State.reset.setClock (.wait 15 9)).pressPending = false) := by
  decide

theorem test_witness_DelayTimerIsReadAndSet : (placed State.reset 0xFF07).atWord 0 0xFF07 ∧
    ((placed State.reset 0xFF15).readV 15 = some 0 ∧ (placed State.reset 0xFF15).atWord 0 0xFF15) ∧ unsetState.readV 15 = none :=
  ⟨⟨by decide, by decide, by decide⟩, ⟨by decide, by decide, by decide, by decide⟩, by decide⟩

theorem test_witness_SoundTimerIsSetAndToned :
    ((placed State.reset 0xFF18).readV 15 = some 0 ∧ (placed State.reset 0xFF18).atWord 0 0xFF18) ∧ unsetState.readV 15 = none :=
  ⟨⟨by decide, by decide, by decide, by decide⟩, by decide⟩

theorem test_witness_TickDecrementsTimers : State.reset.timer = .running ∧ State.reset.stop.timer = .stopped := by decide

/-- A stop from a running and from a faulted clock; turns after a stop. -/
theorem test_witness_StopEndsBothClocks :
    (turn .stop State.reset).isSome = true ∧ (turn .stop (State.reset.faulted .keyIndex)).isSome = true ∧
    (State.reset.stop.timer = .stopped ∧ State.reset.stop.clockEnabled = false ∧
      (∀ x k, State.reset.stop.clock ≠ .wait x k) ∧ (turn .clock State.reset.stop).isSome = true ∧
      (turn .tick State.reset.stop).isSome = true ∧ (turn (.key 0 true) State.reset.stop).isSome = true) := by decide

theorem test_witness_AgentsKeepToTheirState :
    (turn .tick State.reset).isSome = true ∧ (turn (.key 0 false) State.reset).isSome = true ∧
    (turn .stop State.reset).isSome = true ∧ (turn .clock State.reset).isSome = true := by decide

theorem test_witness_OnlyWrittenRegistersChange :
    nextOf (exec (.ldVxMem 14) State.reset) = some (State.reset.loadVs 0 (regsUpTo 14)) ∧ writesV (.ldVxMem 14) 15 = false ∧
    writesV (.ldVxMem 15) 15 = true := by decide

theorem test_witness_OnlyWritersChangeSpecialState :
    nextOf (exec (.addVxVy 0 1) State.reset) = some ((State.reset.writeV 15 0).writeV 0 0) ∧ writesPc (.addVxVy 0 1) = false := by decide

theorem test_witness_TraceGrowsByAtMostOneEvent : (turn .clock (placed (regs [(0, 1)] 0) 0xF018)).map (fun t => t.trace) =
    some [.startTone] := by decide

theorem test_witness_EveryStepKeepsTheInvariant : State.reset.inv = true ∧ (after State.reset 0x1200).isSome = true := by decide

/-- Both alternatives: a state that steps, and one that does not. -/
theorem test_witness_StepStopsOnlyWithNoAgentEnabled : State.reset.inv = true ∧ State.reset.stop.inv = true ∧
    step State.reset.stop = .fault .noEnabledAgent := ⟨by decide, by decide, rfl⟩

/-- The end of a run: `JP 0x200` at 0x200. -/
theorem test_witness_EndedRunsStayEnded : (placed State.reset 0x1200).ended = true ∧ (placed State.reset 0x1200).clock = .run 0 := by
  decide

/-- A wait with a press pending, before a `RET` that faults (`SP` = 16). -/
def waiting : State :=
  ((((State.reset.setClock (.wait 3 0)).setSp 16).memWrite 0x203 0xEE).setPressPending true).setLastKey 7

/-- A weakly fair run from it: the wait completes, the `RET` faults, and the timer clock goes on for ever. -/
def waitingRun : Run where
  state
    | 0 => waiting
    | 1 => ((waiting.writeV 3 7).setPressPending false).advance 0
    | _ + 2 => (((waiting.writeV 3 7).setPressPending false).advance 0).faulted .stackIndex
  move
    | 0 => .clock
    | 1 => .clock
    | _ + 2 => .tick
  enabled
    | 0 => by decide
    | 1 => by decide
    | _ + 2 => rfl
  steps
    | 0 => next_of_nextOf (by decide)
    | 1 => next_of_nextOf (by decide)
    | _ + 2 => next_of_nextOf (t := (((waiting.writeV 3 7).setPressPending false).advance 0).faulted .stackIndex)
        (r := act .tick ((((waiting.writeV 3 7).setPressPending false).advance 0).faulted .stackIndex)) (by decide)

/-- The machine's own steps from a faulted clock, for ever. -/
def faultedSteps : Nat → State
  | 0 => State.reset.faulted .keyIndex
  | n + 1 => (nextOf (step (faultedSteps n))).getD (faultedSteps n)

/-- A faulted instruction clock, a running timer clock, and no stop scheduled. -/
def TicksOn (s : State) : Prop :=
  s.clock = .faulted .keyIndex 0x200 0 ∧ s.timer = .running ∧ .stop ∉ s.schedule

/-- No turn but a stop ends it. -/
theorem ticksOn_step {s : State} (h : TicksOn s) : ∃ t, step s = .next t ∧ TicksOn t := by
  obtain ⟨hc, ht, hs⟩ := h
  have hstop : .stop ∉ s.turns := by
    cases hl : s.schedule with
    | cons m l => rw [State.turns_of_cons hl, ← hl]; exact hs
    | nil =>
      rw [State.turns_of_nil hl (by simp [State.timerEnabled, ht])]
      exact State.stop_notMem_fairRound s
  obtain ⟨m, l, hl⟩ : ∃ m l, s.turns = m :: l := by
    cases hl : s.turns with
    | cons m l => exact ⟨m, l, rfl⟩
    | nil =>
      cases hsch : s.schedule with
      | cons m l => rw [State.turns_of_cons hsch] at hl; cases hl
      | nil =>
        rw [State.turns_of_nil hsch (by simp [State.timerEnabled, ht])] at hl
        have := State.mem_fairRound s (.inl rfl)
        rw [hl] at this; cases this
  have hn : s.nextMove = some m := by unfold State.nextMove; rw [hl]; rfl
  have hp : .stop ∉ s.popTurn.schedule := by
    show .stop ∉ s.turns.tail
    rw [hl] at hstop ⊢
    exact fun h => hstop (List.mem_cons_of_mem _ h)
  have hstep : step s = act m s.popTurn := by unfold step; rw [hn]
  cases m with
  | clock => exact ⟨s.popTurn, by rw [hstep]; unfold act clockTurn; rw [show s.popTurn.clock = _ from hc], hc, ht, hp⟩
  | tick =>
    refine ⟨_, hstep, ?_⟩
    unfold timerTurn
    rw [show s.popTurn.timer = _ from ht]
    simp only [State.tick, State.emitOption_eq]
    exact ⟨hc, ht, hp⟩
  | key k p => cases p <;> exact ⟨_, hstep, hc, ht, hp⟩
  | stop => exact absurd (hl ▸ List.mem_cons_self) hstop

theorem faultedSteps_ticksOn : ∀ n, TicksOn (faultedSteps n)
  | 0 => ⟨by decide, by decide, by decide⟩
  | n + 1 => by
    obtain ⟨t, h, ht⟩ := ticksOn_step (faultedSteps_ticksOn n)
    unfold faultedSteps
    rw [h]
    exact ht

theorem faultedSteps_forever : stepsForever faultedSteps := fun n => by
  obtain ⟨t, h, -⟩ := ticksOn_step (faultedSteps_ticksOn n)
  rw [show faultedSteps (n + 1) = (nextOf (step (faultedSteps n))).getD (faultedSteps n) from rfl, h]
  rfl

theorem test_witness_PendingPressIsEventuallyConsumed : (waitingRun.weaklyFair ∧ (waitingRun.state 0).clock = .wait 3 0 ∧
    (waitingRun.state 0).pressPending = true ∧ ∀ j, 0 ≤ j → waitingRun.move j ≠ .stop) ∧ stepsForever faultedSteps := by
  refine ⟨⟨?_, by decide, by decide, ?_⟩, faultedSteps_forever⟩
  · rintro m (rfl | rfl) n h
    · exact absurd (h (n + 2) (by omega)) (by show ¬ (waitingRun.state (n + 2)).clockEnabled = true; exact Bool.false_ne_true)
    · exact ⟨n + 2, by omega, rfl⟩
  · rintro (_ | _ | j) _ <;> exact Move.noConfusion

end Sys2Proof.Tests
end

section
/-! Reading memory after a ROM is loaded (20_memory.md R42, R43) and a range byte by byte (R37). -/

namespace Sys2Proof.Machine

/-! ### Reading -/

/-- An address is taken mod 4096 by the read itself, so reducing it first changes nothing (R34). -/
@[simp] theorem Memory.read_mod_memSize (m : Memory) (a : Nat) : Memory.read m (a % memSize) = Memory.read m a :=
  congrArg (Memory.byteAt m) (Nat.mod_mod a memSize)

theorem Memory.getElem?_readRange (m : Memory) (a n k : Nat) (hk : k < n) :
    (Memory.readRange m a n)[k]? = some (Memory.read m (a + k)) := by
  rw [Memory.readRange_eq_map, List.getElem?_map, List.getElem?_range hk, Option.map_some]

/-- Settles O33: the `k`-th byte of a range is the read at `a + k`, and a read wraps its address. -/
theorem readRangeWrapsEachAddress : Obligations.ReadRangeWrapsEachAddress := fun m a n =>
  ⟨Memory.length_readRange n m a, fun k hk =>
    (Memory.getElem?_readRange m a n k hk).trans (congrArg some (Memory.read_mod_memSize m (a + k)).symm)⟩

/-! ### Loading a ROM -/

/-- Inside the loaded part of the ROM, memory holds the ROM's byte; the range ends at 0xFFF, so nothing of it wraps. -/
theorem Memory.read_load_inside (m : Memory) (rom : List Byte) (a : Nat) (hm : Memory.wf m = true) (hlo : romBase ≤ a)
    (hhi : a - romBase < min rom.length maxRomBytes) :
    Memory.read (Memory.load m rom) a = rom.getD (a - romBase) 0 := by
  obtain ⟨k, rfl⟩ := Nat.exists_eq_add_of_le hlo
  rw [Nat.add_sub_cancel_left] at hhi ⊢
  obtain ⟨hlen, hmax⟩ := lt_min_iff.1 hhi
  refine Memory.read_writeRange_inside _ m romBase k _ hm ?_ ?_
  · exact (List.length_take_le _ _).trans (by decide)
  · rw [List.getElem?_take_of_lt hmax, List.getElem?_eq_getElem hlen, List.getD_eq_getElem _ _ hlen]

/-- Outside the loaded part of the ROM, memory is as it was. -/
theorem Memory.read_load_outside (m : Memory) (rom : List Byte) (a : Nat) (hm : Memory.wf m = true) (ha : a < memSize)
    (hout : ¬ (romBase ≤ a ∧ a - romBase < min rom.length maxRomBytes)) :
    Memory.read (Memory.load m rom) a = Memory.read m a := by
  refine Memory.read_writeRange_outside _ m romBase a hm fun k hk => ?_
  rw [List.length_take, min_comm] at hk
  have hfit : romBase + k < memSize := by
    have hmax : k < maxRomBytes := (lt_min_iff.1 hk).2
    have : romBase + maxRomBytes = memSize := by decide
    omega
  rw [Nat.mod_eq_of_lt ha, Nat.mod_eq_of_lt hfit]
  rintro rfl
  exact hout ⟨Nat.le_add_right _ _, by rwa [Nat.add_sub_cancel_left]⟩

/-- Memory after reset with a ROM: the ROM's first 0xE00 bytes from 0x200, zero elsewhere (R32, R42, R43). -/
theorem State.memRead_boot (c : Config) (rom : List Byte) (a : Nat) (ha : a < memSize) :
    (State.boot c rom).memRead a =
      if romBase ≤ a ∧ a - romBase < min rom.length maxRomBytes then rom.getD (a - romBase) 0 else 0 := by
  have hwf : Memory.wf (State.blank c).mem = true := rfl
  show Memory.read (Memory.load (State.blank c).mem rom) a = _
  split
  · next hin => exact Memory.read_load_inside _ rom a hwf hin.1 hin.2
  · next hout => exact Memory.read_load_outside _ rom a hwf ha hout

/-- Settles O36: the load from 0x200 into the empty memory of reset, read inside and outside the loaded part. -/
theorem romIsLoadedFromTheEntryPoint : Obligations.RomIsLoadedFromTheEntryPoint :=
  State.memRead_boot

end Sys2Proof.Machine
end

section
/-! The instruction step of phase `RUN(k)`: the handler, then the advance (40_step.md R63), and a decode miss (R64). -/

namespace Sys2Proof.Machine

/-- In `RUN(k)`, on the instruction clock's turn, a step is the instruction step (R63). -/
theorem step_eq_instructionStep {s : State} {k : Fin stepsPerFiring} (hk : s.clock = .run k)
    (hm : s.nextMove = some .clock) : step s = instructionStep s.popTurn :=
  (step_eq_act hm).trans (clockTurn_of_run (s := s.popTurn) hk)

/-- A handler run in `RUN(k)` ends in `RUN(k)`, or in no `RUN` phase at all: it has faulted or blocked (R63). -/
theorem exec_clock_of_run {i : Instr} {s t : State} {k : Fin stepsPerFiring} (hk : s.clock = .run k)
    (h : exec i s = .next t) : t.clock = .run k ∨ ∀ j, t.clock ≠ .run j := by
  obtain hkeep | ⟨code, rfl⟩ | ⟨x, j, -, -, rfl⟩ := exec_phase h
  · exact .inl (hkeep.trans hk)
  · exact .inr fun _ => ClockPhase.noConfusion
  · exact .inr fun _ => ClockPhase.noConfusion

/-- So what follows the handler is the advance exactly when the handler left `RUN(k)` as it was (R63). -/
theorem State.finishStep_of_exec {i : Instr} {s t : State} {k : Fin stepsPerFiring} (hk : s.clock = .run k)
    (h : exec i s = .next t) : t.finishStep = if t.clock = .run k then t.advance k else t := by
  obtain hrun | hend := exec_clock_of_run hk h
  · rw [if_pos hrun, State.finishStep_of_run hrun]
  · rw [if_neg (hend k), State.finishStep_of_not_run hend]

/-- Settles O7: the step is the instruction step, which finishes what the handler answers, or advances on a decode miss. -/
theorem stepRunsDecodedInstruction : Obligations.StepRunsDecodedInstruction := fun s k hk hm => by
  rw [step_eq_instructionStep hk hm]
  refine ⟨fun i t hd he => ?_, fun hd => ?_⟩
  · rw [instructionStep_of_decode (s := s.popTurn) hd, he]
    exact congrArg Host.Outcome.next (State.finishStep_of_exec (s := s.popTurn) hk he)
  · rw [instructionStep_of_miss (s := s.popTurn) hd]
    exact congrArg Host.Outcome.next (State.finishStep_of_run (s := s.popTurn) hk)

end Sys2Proof.Machine
end

section
/-! Reading an instruction's operands back from its word (30_encoding.md R50, R51), and from that what the word of a jump or a
skip decodes to (R54). -/

namespace Sys2Proof

/-! ### Fields of a word told by its operands -/

theorem fieldNnn_append (d : BitVec 4) (nnn : Addr12) : fieldNnn (d ++ nnn) = nnn :=
  BitVec.extractLsb'_append_eq_right

theorem fieldKk_append (d : BitVec 4) (x : Fin 16) (kk : Byte) : fieldKk (d ++ nibbleBits x ++ kk) = kk :=
  BitVec.extractLsb'_append_eq_right

theorem fieldX_append_kk (d : BitVec 4) (x : RegIx) (kk : Byte) : fieldX (d ++ nibbleBits x ++ kk) = x := by
  rw [append_lit_nibbles]
  exact fieldX_ofNibbles _ _ _ _

theorem fieldX_append_nibbles (d : BitVec 4) (x y n : Fin 16) :
    fieldX (d ++ nibbleBits x ++ nibbleBits y ++ nibbleBits n) = x :=
  fieldX_ofNibbles _ _ _ _

theorem fieldY_append_nibbles (d : BitVec 4) (x y n : Fin 16) :
    fieldY (d ++ nibbleBits x ++ nibbleBits y ++ nibbleBits n) = y :=
  fieldY_ofNibbles _ _ _ _

/-! ### Decoding -/

/-- A word found in its own row decodes to its instruction as soon as the row reads the operands back (R54). -/
theorem decode_encode_of_found {i : Instr} (hfound : lookup (encode i) = some i.opcode)
    (hops : i.opcode.instr (encode i) = i) : decode (encode i) = some i := by
  rw [decode, hfound, Option.map_some, hops]

theorem decode_jp (nnn : Addr12) : decode (0x1#4 ++ nnn) = some (.jp nnn) :=
  decode_encode_of_found (Laws.OpcodeFound.jp nnn rfl) (congrArg Instr.jp (fieldNnn_append _ nnn))

theorem decode_jpV0Nnn (nnn : Addr12) : decode (0xB#4 ++ nnn) = some (.jpV0Nnn nnn) :=
  decode_encode_of_found (Laws.OpcodeFound.jpV0Nnn nnn rfl) (congrArg Instr.jpV0Nnn (fieldNnn_append _ nnn))

theorem decode_seVxKk (x : RegIx) (kk : Byte) : decode (0x3#4 ++ nibbleBits x ++ kk) = some (.seVxKk x kk) :=
  decode_encode_of_found (Laws.OpcodeFound.seVxKk x kk rfl)
    (congrArg₂ Instr.seVxKk (fieldX_append_kk _ x kk) (fieldKk_append _ x kk))

theorem decode_sneVxKk (x : RegIx) (kk : Byte) : decode (0x4#4 ++ nibbleBits x ++ kk) = some (.sneVxKk x kk) :=
  decode_encode_of_found (Laws.OpcodeFound.sneVxKk x kk rfl)
    (congrArg₂ Instr.sneVxKk (fieldX_append_kk _ x kk) (fieldKk_append _ x kk))

theorem decode_seVxVy (x y : RegIx) : decode (0x5#4 ++ nibbleBits x ++ nibbleBits y ++ 0x0#4) = some (.seVxVy x y) :=
  decode_encode_of_found (Laws.OpcodeFound.seVxVy x y rfl)
    (congrArg₂ Instr.seVxVy (fieldX_append_nibbles _ x y 0) (fieldY_append_nibbles _ x y 0))

theorem decode_sneVxVy (x y : RegIx) : decode (0x9#4 ++ nibbleBits x ++ nibbleBits y ++ 0x0#4) = some (.sneVxVy x y) :=
  decode_encode_of_found (Laws.OpcodeFound.sneVxVy x y rfl)
    (congrArg₂ Instr.sneVxVy (fieldX_append_nibbles _ x y 0) (fieldY_append_nibbles _ x y 0))

end Sys2Proof
end

section
/-! From a handler's answer to the whole step: what an instruction that completes (40_step.md R63) or faults (R68) takes to be
shown, once its word decodes to it. -/

namespace Sys2Proof.Machine

/-- In `RUN(k)`, with the word of `i` at `PC`, a step is the handler's answer, the turn taken, and the finish (R63). -/
theorem step_of_atWord {i : Instr} {w : Word} {s t : State} {k : Fin stepsPerFiring} (hd : decode w = some i)
    (he : exec i s = .next t) (ha : s.atWord k w) :
    step s = .next (t.setTurns s.turns.tail s.nextRound).finishStep := by
  obtain ⟨hk, hm, rfl⟩ := ha
  rw [step_eq_instructionStep hk hm, instructionStep_of_decode (s := s.popTurn) hd, State.popTurn, exec_setTurns, he]
  rfl

/-- A handler that answers in the phase it found completes its instruction: the step adds the advance (R63). -/
theorem completes_of_exec {i : Instr} {w : Word} {s t : State} (hd : decode w = some i) (he : exec i s = .next t)
    (hc : t.clock = s.clock) : Completes i w s t := by
  refine ⟨he, fun k ha => ?_⟩
  have hk : (t.setTurns s.turns.tail s.nextRound).clock = .run k := hc.trans ha.1
  rw [step_of_atWord hd he ha, State.finishStep_of_run hk]
  rfl

/-- A handler that raises a fault ends the step there: no advance follows (R63, R68). -/
theorem raises_of_exec {i : Instr} {w : Word} {s : State} {code : FaultCode} (hd : decode w = some i)
    (he : exec i s = raiseFault code s) : Raises i w s code := by
  refine ⟨he, fun k ha => ?_⟩
  rw [step_of_atWord hd he ha, ← ha.2.2]
  rfl

/-! ### Checked reads (R26) -/

theorem needSet_of_eq_some {α : Type} {cell : Option α} {a : α} (h : cell = some a) (s : State) (k : α → Result) :
    needSet cell s k = k a := by
  rw [h, needSet]

theorem needSet_of_eq_none {α : Type} {cell : Option α} (h : cell = none) (s : State) (k : α → Result) :
    needSet cell s k = raiseFault .unsetRead s := by
  rw [h, needSet]

/-- Two checked reads in a row raise `UNSET_READ` whichever of the cells is unset. -/
theorem needSet_needSet_of_none {α β : Type} {c : Option α} {d : Option β} (h : c = none ∨ d = none) (s : State)
    (k : α → β → Result) : (needSet c s fun a => needSet d s (k a)) = raiseFault .unsetRead s := by
  cases c with
  | none => rfl
  | some a => exact needSet_of_eq_none (h.resolve_left (Option.some_ne_none a)) s (k a)

end Sys2Proof.Machine
end

section
/-! Jumps and skips (41_flow.md R72, R76, R78 to R82). -/

namespace Sys2Proof.Machine

/-! ### What the handlers write to `PC` -/

/-- The sum of `JP V0,nnn` as numbers: it fits 16 bits, so it is not reduced (R82). -/
theorem jumpSum_eq_ofNat (nnn : Addr12) (b : Byte) : jumpSum nnn b = BitVec.ofNat 16 (nnn.toNat + b.toNat) := by
  rw [jumpSum, BitVec.ofNat_add, BitVec.ofNat_toNat, BitVec.ofNat_toNat]

/-- A skip taken when two values are equal (R72). -/
theorem skipIf_beq (a b : Byte) (s : State) :
    skipIf (a == b) s = .next { s with pc := if a = b then s.pc + 2 else s.pc } := by
  by_cases h : a = b <;> simp [skipIf, h, State.setPc]

/-- A skip taken when two values differ (R72). -/
theorem skipIf_bne (a b : Byte) (s : State) :
    skipIf (a != b) s = .next { s with pc := if a = b then s.pc else s.pc + 2 } := by
  by_cases h : a = b <;> simp [skipIf, h, State.setPc]

/-! ### The handlers on set operands -/

section
variable {s : State} {x y : RegIx} {a b : Byte}

theorem exec_jpV0Nnn_of_set (nnn : Addr12) (hb : s.readV 0 = some b) :
    exec (.jpV0Nnn nnn) s = .next { s with pc := BitVec.ofNat 16 (nnn.toNat + b.toNat) - 2 } := by
  rw [← jumpSum_eq_ofNat]
  exact needSet_of_eq_some hb s _

theorem exec_seVxKk_of_set (kk : Byte) (ha : s.readV x = some a) :
    exec (.seVxKk x kk) s = .next { s with pc := if a = kk then s.pc + 2 else s.pc } :=
  (needSet_of_eq_some ha s _).trans (skipIf_beq a kk s)

theorem exec_sneVxKk_of_set (kk : Byte) (ha : s.readV x = some a) :
    exec (.sneVxKk x kk) s = .next { s with pc := if a = kk then s.pc else s.pc + 2 } :=
  (needSet_of_eq_some ha s _).trans (skipIf_bne a kk s)

theorem exec_seVxVy_of_set (ha : s.readV x = some a) (hb : s.readV y = some b) :
    exec (.seVxVy x y) s = .next { s with pc := if a = b then s.pc + 2 else s.pc } :=
  (needSet_of_eq_some ha s _).trans ((needSet_of_eq_some hb s _).trans (skipIf_beq a b s))

theorem exec_sneVxVy_of_set (ha : s.readV x = some a) (hb : s.readV y = some b) :
    exec (.sneVxVy x y) s = .next { s with pc := if a = b then s.pc else s.pc + 2 } :=
  (needSet_of_eq_some ha s _).trans ((needSet_of_eq_some hb s _).trans (skipIf_bne a b s))

end

/-! ### The obligations -/

/-- Settles O15: both handlers write the biased target, which the advance brings back to the target. -/
theorem jumpsReachTheirTargets : Obligations.JumpsReachTheirTargets := by
  refine ⟨fun s nnn => ?_, fun s nnn b hb => ?_, fun s nnn hb => ?_⟩
  · exact completes_of_exec (decode_jp nnn) rfl rfl
  · exact completes_of_exec (decode_jpV0Nnn nnn) (exec_jpV0Nnn_of_set nnn hb) rfl
  · exact raises_of_exec (decode_jpV0Nnn nnn) (needSet_of_eq_none hb s _)

/-- Settles O18: the register is read, and compared with the immediate if it is set. -/
theorem skipsOnImmediate : Obligations.SkipsOnImmediate := by
  refine ⟨fun s x kk a ha => ⟨?_, ?_⟩, fun s x kk hx => ⟨?_, ?_⟩⟩
  · exact completes_of_exec (decode_seVxKk x kk) (exec_seVxKk_of_set kk ha) rfl
  · exact completes_of_exec (decode_sneVxKk x kk) (exec_sneVxKk_of_set kk ha) rfl
  · exact raises_of_exec (decode_seVxKk x kk) (needSet_of_eq_none hx s _)
  · exact raises_of_exec (decode_sneVxKk x kk) (needSet_of_eq_none hx s _)

/-- Settles O19: both registers are read, and compared if both are set; `x` and `y` may be the same. -/
theorem skipsOnRegisters : Obligations.SkipsOnRegisters := by
  refine ⟨fun s x y a b ha hb => ⟨?_, ?_⟩, fun s x y hxy => ⟨?_, ?_⟩⟩
  · exact completes_of_exec (decode_seVxVy x y) (exec_seVxVy_of_set ha hb) rfl
  · exact completes_of_exec (decode_sneVxVy x y) (exec_sneVxVy_of_set ha hb) rfl
  · exact raises_of_exec (decode_seVxVy x y) (needSet_needSet_of_none hxy s _)
  · exact raises_of_exec (decode_sneVxVy x y) (needSet_needSet_of_none hxy s _)

end Sys2Proof.Machine
end

section
/-! What the word of a load or of an arithmetic or logic instruction decodes to (30_encoding.md R54), from the two layouts of
operands they use: `x` with a byte, and `x` with `y`. -/

namespace Sys2Proof

/-! ### Decoding by the layout of the operands -/

/-- A word `d x kk`, found in a row that takes an index and a byte, decodes to that row's instruction on `x` and `kk` (R51). -/
theorem decode_of_found_kk {op : Opcode} {mk : RegIx → Byte → Instr} {d : BitVec 4} {x : RegIx} {kk : Byte}
    (hfound : lookup (d ++ nibbleBits x ++ kk) = some op) (hinstr : ∀ w, op.instr w = mk (fieldX w) (fieldKk w)) :
    decode (d ++ nibbleBits x ++ kk) = some (mk x kk) := by
  rw [decode, hfound, Option.map_some, hinstr, fieldX_append_kk, fieldKk_append]

/-- A word `d x y n`, found in a row that takes two indices, decodes to that row's instruction on `x` and `y` (R51). -/
theorem decode_of_found_registers {op : Opcode} {mk : RegIx → RegIx → Instr} {d n : BitVec 4} {x y : RegIx}
    (hfound : lookup (d ++ nibbleBits x ++ nibbleBits y ++ n) = some op)
    (hinstr : ∀ w, op.instr w = mk (fieldX w) (fieldY w)) :
    decode (d ++ nibbleBits x ++ nibbleBits y ++ n) = some (mk x y) := by
  have hx : fieldX (d ++ nibbleBits x ++ nibbleBits y ++ n) = x := fieldX_append_nibbles d x y n.toFin
  have hy : fieldY (d ++ nibbleBits x ++ nibbleBits y ++ n) = y := fieldY_append_nibbles d x y n.toFin
  rw [decode, hfound, Option.map_some, hinstr, hx, hy]

/-! ### The rows -/

theorem decode_ldVxKk (x : RegIx) (kk : Byte) : decode (0x6#4 ++ nibbleBits x ++ kk) = some (.ldVxKk x kk) :=
  decode_of_found_kk (Laws.OpcodeFound.ldVxKk x kk rfl) fun _ => rfl

theorem decode_addVxKk (x : RegIx) (kk : Byte) : decode (0x7#4 ++ nibbleBits x ++ kk) = some (.addVxKk x kk) :=
  decode_of_found_kk (Laws.OpcodeFound.addVxKk x kk rfl) fun _ => rfl

theorem decode_ldVxVy (x y : RegIx) : decode (0x8#4 ++ nibbleBits x ++ nibbleBits y ++ 0x0#4) = some (.ldVxVy x y) :=
  decode_of_found_registers (Laws.OpcodeFound.ldVxVy x y rfl) fun _ => rfl

theorem decode_orVxVy (x y : RegIx) : decode (0x8#4 ++ nibbleBits x ++ nibbleBits y ++ 0x1#4) = some (.orVxVy x y) :=
  decode_of_found_registers (Laws.OpcodeFound.orVxVy x y rfl) fun _ => rfl

theorem decode_andVxVy (x y : RegIx) : decode (0x8#4 ++ nibbleBits x ++ nibbleBits y ++ 0x2#4) = some (.andVxVy x y) :=
  decode_of_found_registers (Laws.OpcodeFound.andVxVy x y rfl) fun _ => rfl

theorem decode_xorVxVy (x y : RegIx) : decode (0x8#4 ++ nibbleBits x ++ nibbleBits y ++ 0x3#4) = some (.xorVxVy x y) :=
  decode_of_found_registers (Laws.OpcodeFound.xorVxVy x y rfl) fun _ => rfl

theorem decode_addVxVy (x y : RegIx) : decode (0x8#4 ++ nibbleBits x ++ nibbleBits y ++ 0x4#4) = some (.addVxVy x y) :=
  decode_of_found_registers (Laws.OpcodeFound.addVxVy x y rfl) fun _ => rfl

end Sys2Proof
end

section
/-! Loads, additions and bitwise operations on the `V` registers (42_alu.md R83, R85 to R91). -/

namespace Sys2Proof.Machine

/-! ### The carry (R83) -/

/-- The carry as the byte written to `VF`: 1 exactly when the sum of the operands exceeds 255. -/
theorem flagByte_carryOut (a b : Byte) : flagByte (carryOut a b) = if a.toNat + b.toNat > 255 then 1 else 0 := by
  simp only [flagByte, carryOut, decide_eq_true_eq, gt_iff_lt]

/-! ### The handlers on set operands -/

section
variable {s : State} {x y : RegIx} {a b : Byte}

theorem exec_ldVxVy_of_set (x : RegIx) (hb : s.readV y = some b) : exec (.ldVxVy x y) s = .next (s.writeV x b) :=
  needSet_of_eq_some hb s _

/-- Addition of bytes is addition of their values mod 256 (R83, R86). -/
theorem exec_addVxKk_of_set (kk : Byte) (ha : s.readV x = some a) :
    exec (.addVxKk x kk) s = .next (s.writeV x (BitVec.ofNat 8 (a.toNat + kk.toNat))) := by
  rw [← BitVec.add_def]
  exact needSet_of_eq_some ha s _

/-- A flagless operation reads both registers and writes `Vx` alone (R88, R89, R90). -/
theorem binaryOp_of_set (f : Byte → Byte → Byte) (ha : s.readV x = some a) (hb : s.readV y = some b) :
    binaryOp f x y s = .next (s.writeV x (f a b)) :=
  (needSet_of_eq_some ha s _).trans (needSet_of_eq_some hb s _)

/-- `VF` is written first, so the sum stays in it when `x = F` (R91). -/
theorem exec_addVxVy_of_set (ha : s.readV x = some a) (hb : s.readV y = some b) :
    exec (.addVxVy x y) s =
      .next ((s.writeV 15 (if a.toNat + b.toNat > 255 then 1 else 0)).writeV x (BitVec.ofNat 8 (a.toNat + b.toNat))) := by
  rw [← flagByte_carryOut, ← BitVec.add_def]
  exact (needSet_of_eq_some ha s _).trans (needSet_of_eq_some hb s _)

end

/-! ### The obligations -/

/-- Settles O21: neither load reads `Vx`, and the load of a register faults exactly when `Vy` is unset. -/
theorem loadsWriteOneRegister : Obligations.LoadsWriteOneRegister := by
  refine ⟨fun s x kk => ?_, fun s x y b hb => ?_, fun s x y hy => ?_⟩
  · exact completes_of_exec (decode_ldVxKk x kk) rfl rfl
  · exact completes_of_exec (decode_ldVxVy x y) (exec_ldVxVy_of_set x hb) rfl
  · exact raises_of_exec (decode_ldVxVy x y) (needSet_of_eq_none hy s _)

/-- Settles O22: the sum of the bytes is written to `Vx`, and nothing else is. -/
theorem addImmediateHasNoCarry : Obligations.AddImmediateHasNoCarry := by
  refine ⟨fun s x kk a ha => ?_, fun s x kk hx => ?_⟩
  · exact completes_of_exec (decode_addVxKk x kk) (exec_addVxKk_of_set kk ha) rfl
  · exact raises_of_exec (decode_addVxKk x kk) (needSet_of_eq_none hx s _)

/-- Settles O23: the three handlers are one flagless operation, with the operator as its parameter. -/
theorem bitwiseOperationsLeaveVF : Obligations.BitwiseOperationsLeaveVF := by
  refine ⟨fun s x y a b ha hb => ⟨?_, ?_, ?_⟩, fun s x y hxy => ⟨?_, ?_, ?_⟩⟩
  · exact completes_of_exec (decode_orVxVy x y) (binaryOp_of_set _ ha hb) rfl
  · exact completes_of_exec (decode_andVxVy x y) (binaryOp_of_set _ ha hb) rfl
  · exact completes_of_exec (decode_xorVxVy x y) (binaryOp_of_set _ ha hb) rfl
  · exact raises_of_exec (decode_orVxVy x y) (needSet_needSet_of_none hxy s _)
  · exact raises_of_exec (decode_andVxVy x y) (needSet_needSet_of_none hxy s _)
  · exact raises_of_exec (decode_xorVxVy x y) (needSet_needSet_of_none hxy s _)

/-- Settles O24: the handler writes the carry to `VF` and then the sum to `Vx`, under either value of `ALU_VF_READ`. -/
theorem addRegistersSetsCarry : Obligations.AddRegistersSetsCarry := by
  refine ⟨fun s x y a b ha hb => ?_, fun s x y hxy => ?_⟩
  · exact completes_of_exec (decode_addVxVy x y) (exec_addVxVy_of_set ha hb) rfl
  · exact raises_of_exec (decode_addVxVy x y) (needSet_needSet_of_none hxy s _)

end Sys2Proof.Machine
end

section
/-! What the word of an instruction on `I` and memory decodes to (30_encoding.md R54): `x` with a literal low byte, but for
`LD I,nnn`. -/

namespace Sys2Proof

/-- A word `d x lit`, found in a row that takes an index alone, decodes to that row's instruction on `x` (R51). -/
theorem decode_of_found_x {op : Opcode} {mk : RegIx → Instr} {d : BitVec 4} {x : RegIx} {lit : Byte}
    (hfound : lookup (d ++ nibbleBits x ++ lit) = some op) (hinstr : ∀ w, op.instr w = mk (fieldX w)) :
    decode (d ++ nibbleBits x ++ lit) = some (mk x) :=
  decode_of_found_kk (mk := fun x _ => mk x) hfound hinstr

theorem decode_ldINnn (nnn : Addr12) : decode (0xA#4 ++ nnn) = some (.ldINnn nnn) :=
  decode_encode_of_found (Laws.OpcodeFound.ldINnn nnn rfl) (congrArg Instr.ldINnn (fieldNnn_append _ nnn))

theorem decode_addIVx (x : RegIx) : decode (0xF#4 ++ nibbleBits x ++ 0x1E#8) = some (.addIVx x) :=
  decode_of_found_x (Laws.OpcodeFound.addIVx x rfl) fun _ => rfl

theorem decode_ldFVx (x : RegIx) : decode (0xF#4 ++ nibbleBits x ++ 0x29#8) = some (.ldFVx x) :=
  decode_of_found_x (Laws.OpcodeFound.ldFVx x rfl) fun _ => rfl

theorem decode_ldBVx (x : RegIx) : decode (0xF#4 ++ nibbleBits x ++ 0x33#8) = some (.ldBVx x) :=
  decode_of_found_x (Laws.OpcodeFound.ldBVx x rfl) fun _ => rfl

theorem decode_ldMemVx (x : RegIx) : decode (0xF#4 ++ nibbleBits x ++ 0x55#8) = some (.ldMemVx x) :=
  decode_of_found_x (Laws.OpcodeFound.ldMemVx x rfl) fun _ => rfl

theorem decode_ldVxMem (x : RegIx) : decode (0xF#4 ++ nibbleBits x ++ 0x65#8) = some (.ldVxMem x) :=
  decode_of_found_x (Laws.OpcodeFound.ldVxMem x rfl) fun _ => rfl

end Sys2Proof
end

section
/-! The index register and memory (43_index_memory.md R97 to R102). -/

namespace Sys2Proof.Machine

/-! ### What is written to `I` -/

/-- `ADD I,Vx` adds 16 bits wide: the sum of the values, mod 65536 (R98). -/
theorem add_zext16_eq_ofNat (i : Word) (b : Byte) : i + zext16 b = BitVec.ofNat 16 (i.toNat + b.toNat) := by
  rw [BitVec.ofNat_add, BitVec.ofNat_toNat, BitVec.ofNat_toNat, BitVec.setWidth_eq]

/-- A glyph's address as a number: five times the whole byte, which fits 16 bits (R99). -/
theorem glyphAddress_eq_ofNat (b : Byte) : glyphAddress b = BitVec.ofNat 16 (5 * b.toNat) := by
  rw [glyphAddress, BitVec.ofNat_mul, BitVec.ofNat_toNat]
  rfl

/-! ### Block moves of `V0` to `Vx` -/

/-- The registers up to `Vx` can be read as soon as each of them is set (R101). -/
theorem State.exists_readVs_regsUpTo {s : State} {x : RegIx} (hset : ∀ r, r ≤ x → s.readV r ≠ none) :
    ∃ bs, s.readVs (regsUpTo x) = some bs := by
  refine Option.ne_none_iff_exists'.1 fun hnone => ?_
  obtain ⟨r, hmem, hr⟩ := State.readVs_eq_none.1 hnone
  exact hset r (mem_regsUpTo.1 hmem) hr

theorem State.readVs_regsUpTo_of_none {s : State} {x r : RegIx} (hr : r ≤ x) (hnone : s.readV r = none) :
    s.readVs (regsUpTo x) = none :=
  State.readVs_eq_none.2 ⟨r, mem_regsUpTo.2 hr, hnone⟩

theorem State.length_of_readVs {s : State} {rs : List RegIx} {bs : List Byte} (h : s.readVs rs = some bs) :
    bs.length = rs.length := by
  simpa only [List.length_map] using congrArg List.length (State.readVs_eq_some h)

/-- Register `r` is byte `r` of the block that starts at `V0` (R101). -/
theorem State.getElem?_of_readVs_regsUpTo {s : State} {x r : RegIx} {bs : List Byte}
    (h : s.readVs (regsUpTo x) = some bs) (hr : r ≤ x) : bs[r.val]? = s.readV r := by
  have hget : bs[r.val]?.map some = some (s.readV r) := by
    rw [← List.getElem?_map, State.readVs_eq_some h, List.getElem?_map, getElem?_regsUpTo hr, Option.map_some]
  obtain ⟨b, hb, hsome⟩ := Option.map_eq_some_iff.1 hget
  exact hb.trans hsome

/-- A block load of `V0` to `Vx`: byte `a + r` in each `Vr` up to `Vx`, the other registers as they were (R102). -/
theorem State.readV_loadVs_regsUpTo (s : State) (a : Nat) (x r : RegIx) :
    (s.loadVs a (regsUpTo x)).readV r = if r ≤ x then some (s.memRead (a + r.val)) else s.readV r := by
  split
  · next hr => exact State.readV_loadVs _ s a r.val r (nodup_regsUpTo x) (getElem?_regsUpTo hr)
  · next hr => exact State.readV_loadVs_of_notMem _ s a r (hr ∘ mem_regsUpTo.1)

/-! ### The handlers on set operands -/

section
variable {s : State} {x : RegIx} {i : Word} {b : Byte}

theorem exec_addIVx_of_set (hi : s.ireg = some i) (hb : s.readV x = some b) :
    exec (.addIVx x) s = .next (s.writeI (BitVec.ofNat 16 (i.toNat + b.toNat))) := by
  rw [← add_zext16_eq_ofNat]
  exact (needSet_of_eq_some hi s _).trans (needSet_of_eq_some hb s _)

theorem exec_ldFVx_of_set (hb : s.readV x = some b) :
    exec (.ldFVx x) s = .next (s.writeI (BitVec.ofNat 16 (5 * b.toNat))) := by
  rw [← glyphAddress_eq_ofNat]
  exact needSet_of_eq_some hb s _

theorem exec_ldBVx_of_set (hi : s.ireg = some i) (hb : s.readV x = some b) :
    exec (.ldBVx x) s = .next (s.setMem (Memory.writeRange s.mem i.toNat (decimalDigits b))) :=
  (needSet_of_eq_some hb s _).trans (needSet_of_eq_some hi s _)

theorem exec_ldMemVx_of_set {bs : List Byte} (hi : s.ireg = some i) (hbs : s.readVs (regsUpTo x) = some bs) :
    exec (.ldMemVx x) s = .next (s.setMem (Memory.writeRange s.mem i.toNat bs)) :=
  (needSet_of_eq_some hi s _).trans (needSet_of_eq_some hbs s _)

theorem exec_ldVxMem_of_set (hi : s.ireg = some i) :
    exec (.ldVxMem x) s = .next { s with v := (s.loadVs i.toNat (regsUpTo x)).v } := by
  rw [← State.loadVs_eq]
  exact needSet_of_eq_some hi s _

end

/-! ### The obligations -/

/-- Settles O28: the three handlers write `I` alone, and the two that read fault exactly when an operand is unset. -/
theorem indexRegisterIsWritten : Obligations.IndexRegisterIsWritten := by
  refine ⟨fun s nnn => ?_, fun s x i b hi hb => ?_, fun s x hnone => ?_, fun s x b hb => ?_, fun s x hx => ?_⟩
  · exact completes_of_exec (decode_ldINnn nnn) rfl rfl
  · exact completes_of_exec (decode_addIVx x) (exec_addIVx_of_set hi hb) rfl
  · exact raises_of_exec (decode_addIVx x) (needSet_needSet_of_none hnone s _)
  · exact completes_of_exec (decode_ldFVx x) (exec_ldFVx_of_set hb) rfl
  · exact raises_of_exec (decode_ldFVx x) (needSet_of_eq_none hx s _)

/-- Settles O29: the memory is a range of three bytes written at `I`, read inside the range and outside it. -/
theorem decimalDigitsAreStored : Obligations.DecimalDigitsAreStored := by
  refine ⟨fun s x i b hwf hi hb => ?_, fun s x hnone => ?_⟩
  · have hdigit (k : Nat) (d : Byte) (hd : (decimalDigits b)[k]? = some d) :
        Memory.read (Memory.writeRange s.mem i.toNat (decimalDigits b)) (i.toNat + k) = d :=
      Memory.read_writeRange_inside _ _ _ _ _ hwf (by decide : 3 ≤ memSize) hd
    exact ⟨_, completes_of_exec (decode_ldBVx x) (exec_ldBVx_of_set hi hb) rfl, hdigit 0 _ rfl, hdigit 1 _ rfl,
      hdigit 2 _ rfl, fun a hout => Memory.read_writeRange_outside _ _ _ a hwf hout⟩
  · exact raises_of_exec (decode_ldBVx x) (needSet_needSet_of_none hnone.symm s _)

/-- Settles O30: the memory is the block `V0` to `Vx` written at `I`, in which byte `r` is `Vr`. -/
theorem registersAreStored : Obligations.RegistersAreStored := by
  refine ⟨fun s x i hwf hi hset => ?_, fun s x r hnone => ?_⟩
  · obtain ⟨bs, hbs⟩ := State.exists_readVs_regsUpTo hset
    have hlen : bs.length = x.val + 1 := (State.length_of_readVs hbs).trans (length_regsUpTo x)
    have hfit : bs.length ≤ memSize := by
      have hmem : memSize = 4096 := rfl
      omega
    refine ⟨_, completes_of_exec (decode_ldMemVx x) (exec_ldMemVx_of_set hi hbs) rfl, fun r hr => ?_, fun a hout => ?_⟩
    · obtain ⟨b, hb⟩ := Option.ne_none_iff_exists'.1 (hset r hr)
      have hbyte : bs[r.val]? = some b := (State.getElem?_of_readVs_regsUpTo hbs hr).trans hb
      rw [hb, Memory.read_writeRange_inside bs _ _ _ b hwf hfit hbyte]
    · exact Memory.read_writeRange_outside bs _ _ a hwf fun k hk => hout k (Nat.le_of_lt_succ (hk.trans_eq hlen))
  · exact raises_of_exec (decode_ldMemVx x)
      (needSet_needSet_of_none (hnone.imp_right fun ⟨hr, hunset⟩ => State.readVs_regsUpTo_of_none hr hunset) s _)

/-- Settles O31: the handler is a block load of `V0` to `Vx`, which reads `I` and no `V` register. -/
theorem registersAreLoaded : Obligations.RegistersAreLoaded := by
  refine ⟨fun s x i hi => ?_, fun s x hnone => ?_⟩
  · exact ⟨_, completes_of_exec (decode_ldVxMem x) (exec_ldVxMem_of_set hi) rfl,
      State.readV_loadVs_regsUpTo s i.toNat x⟩
  · exact raises_of_exec (decode_ldVxMem x) (needSet_of_eq_none hnone s _)

end Sys2Proof.Machine
end

section
/-! What the words of the two display instructions decode to (30_encoding.md R54). -/

namespace Sys2Proof

theorem fieldN_append_nibbles (d : BitVec 4) (x y n : Fin 16) :
    fieldN (d ++ nibbleBits x ++ nibbleBits y ++ nibbleBits n) = n :=
  fieldN_ofNibbles _ _ _ _

theorem decode_cls : decode 0x00E0#16 = some .cls :=
  decode_encode_of_found (Laws.OpcodeFound.cls rfl) rfl

theorem decode_drwVxVyN (x y : RegIx) (n : Fin 16) :
    decode (0xD#4 ++ nibbleBits x ++ nibbleBits y ++ nibbleBits n) = some (.drwVxVyN x y n) := by
  refine decode_encode_of_found (i := .drwVxVyN x y n) (Laws.OpcodeFound.drwVxVyN x y n rfl) ?_
  exact congr (congrArg₂ Instr.drwVxVyN (fieldX_append_nibbles _ x y n) (fieldY_append_nibbles _ x y n))
    (fieldN_append_nibbles _ x y n)

end Sys2Proof
end

section
/-! `CLS` and `DRW` (44_display.md R103, R108, R109). -/

namespace Sys2Proof.Machine

/-- Three checked reads in a row raise `UNSET_READ` whichever of the cells is unset. -/
theorem needSet_needSet_needSet_of_none {α β γ : Type} {c : Option α} {d : Option β} {e : Option γ}
    (h : c = none ∨ d = none ∨ e = none) (s : State) (k : α → β → γ → Result) :
    (needSet c s fun a => needSet d s fun b => needSet e s (k a b)) = raiseFault .unsetRead s := by
  cases c with
  | none => rfl
  | some a => exact needSet_needSet_of_none (h.resolve_left (Option.some_ne_none a)) s (k a)

/-- `DRW` with its operands set: the sprite is drawn from the registers as they were found, and the collision goes to `VF` last
(R109). -/
theorem exec_drwVxVyN_of_set {s : State} {x y : RegIx} {x0 y0 : Byte} {i : Word} (n : Fin 16) (hx : s.readV x = some x0)
    (hy : s.readV y = some y0) (hi : s.ireg = some i) :
    exec (.drwVxVyN x y n) s =
      let d := drawSprite s.fb x0 y0 ((List.range n.val).map fun k => s.memRead (i.toNat + k)) s.config.clipEdges
      .next (((s.setFb d.grid).setDirty (s.dirty || d.processed)).writeV vf (flagByte d.collision)) := by
  have hrows : ((List.range n.val).map fun k => s.memRead (i.toNat + k)) = Memory.readRange s.mem i.toNat n.val :=
    (Memory.readRange_eq_map _ _ _).symm
  rw [hrows]
  exact (needSet_of_eq_some hx s _).trans ((needSet_of_eq_some hy s _).trans (needSet_of_eq_some hi s _))

/-- Settles O38: the grid left is the one with every cell unlit, whatever the grid found. -/
theorem clsUnlightsEveryCell : Obligations.ClsUnlightsEveryCell := fun _ =>
  ⟨Grid.unlit, Grid.cell_unlit, completes_of_exec decode_cls rfl rfl⟩

/-- Settles O39: the three operands are read first, so a coordinate in `VF` is its old value. -/
theorem drwDrawsAndSetsCollision : Obligations.DrwDrawsAndSetsCollision := by
  refine ⟨fun s x y n x0 y0 i hx hy hi => ?_, fun s x y n hnone => ?_⟩
  · exact completes_of_exec (decode_drwVxVyN x y n) (exec_drwVxVyN_of_set n hx hy hi) rfl
  · exact raises_of_exec (decode_drwVxVyN x y n) (needSet_needSet_needSet_of_none hnone s _)

end Sys2Proof.Machine
end

section
/-! What each turn emits, and which turns push a frame (44_display.md R106, R107). -/

namespace Sys2Proof.Machine

/-! ### Turns that emit no frame -/

/-- From `s` to `t` the trace grows by nothing, or by one event that is no frame. -/
def EmitsNoFrame (s t : State) : Prop := ∃ e : Option Event, t.trace = s.trace ++ e.toList ∧ ∀ g, e ≠ some (.present g)

section
variable {s t : State}

theorem EmitsNoFrame.of_trace_eq (h : t.trace = s.trace) : EmitsNoFrame s t :=
  ⟨none, h.trans (List.append_nil _).symm, fun _ => (Option.some_ne_none _).symm⟩

/-- A handler's answer `u` emits no frame when it keeps the trace. -/
theorem EmitsNoFrame.of_next {u : State} (h : (.next u : Result) = .next t) (hu : u.trace = s.trace) : EmitsNoFrame s t := by
  cases h
  exact .of_trace_eq hu

theorem EmitsNoFrame.trace_ne (h : EmitsNoFrame s t) (g : Grid) : t.trace ≠ s.trace ++ [.present g] := by
  obtain ⟨e, htrace, hne⟩ := h
  rw [htrace]
  exact fun heq => hne g (Option.toList_eq_singleton_iff.1 (List.append_cancel_left heq))

/-- A fault emits its report (R68). -/
theorem EmitsNoFrame.of_raiseFault {code : FaultCode} (h : raiseFault code s = .next t) : EmitsNoFrame s t := by
  cases h
  exact ⟨some _, State.faulted_trace s code, nofun⟩

/-- A checked read emits no frame when what follows it does not (R26). -/
theorem EmitsNoFrame.of_needSet {α : Type} {cell : Option α} {k : α → Result} (h : needSet cell s k = .next t)
    (hk : ∀ a, k a = .next t → EmitsNoFrame s t) : EmitsNoFrame s t := by
  obtain ⟨a, -, h⟩ | ⟨-, rfl⟩ := needSet_eq_next h
  · exact hk a h
  · exact .of_raiseFault rfl

theorem EmitsNoFrame.of_skipIf {c : Bool} (h : skipIf c s = .next t) : EmitsNoFrame s t :=
  .of_next h (by cases c <;> rfl)

theorem EmitsNoFrame.of_skipOnKey {want : Bool → Bool} {b : Byte} (h : skipOnKey want b s = .next t) :
    EmitsNoFrame s t := by
  unfold skipOnKey at h
  split at h
  · exact .of_raiseFault h
  · exact .of_skipIf h

/-- The events of `LD ST,Vx` are those of the tone (R118). -/
theorem toneEvent_ne_present (c : Config) (old v : Byte) (g : Grid) : toneEvent c old v ≠ some (.present g) := by
  unfold toneEvent
  split_ifs <;> nofun

/-- No handler but that of `LD Vx,K` emits a frame (R107). -/
theorem exec_emitsNoFrame {i : Instr} (h : exec i s = .next t) (hi : ∀ x, i ≠ .ldVxK x) : EmitsNoFrame s t := by
  cases i with
  | cls | sys | jp | ldVxKk | ldINnn | rndVxKk | ldVxDt => exact .of_next h rfl
  | ret =>
    replace h : execRet s = _ := h
    unfold execRet at h
    split at h
    · exact .of_raiseFault h
    · exact .of_needSet h fun _ h => .of_next h rfl
  | call nnn =>
    replace h : execCall nnn s = _ := h
    unfold execCall at h
    split at h
    · exact .of_raiseFault h
    · exact .of_next h rfl
  | seVxKk | sneVxKk => exact .of_needSet h fun _ => .of_skipIf
  | seVxVy | sneVxVy => exact .of_needSet h fun _ h => .of_needSet h fun _ => .of_skipIf
  | skpVx | sknpVx => exact .of_needSet h fun _ => .of_skipOnKey
  | jpV0Nnn | addVxKk | ldVxVy | shrVx | shlVx | ldFVx | ldDtVx => exact .of_needSet h fun _ h => .of_next h rfl
  | orVxVy | andVxVy | xorVxVy | addVxVy | subVxVy | subnVxVy | addIVx | ldBVx | ldMemVx =>
    exact .of_needSet h fun _ h => .of_needSet h fun _ h => .of_next h rfl
  | drwVxVyN => exact .of_needSet h fun _ h => .of_needSet h fun _ h => .of_needSet h fun _ h => .of_next h rfl
  | ldVxMem => exact .of_needSet h fun _ h => .of_next h (by rw [State.loadVs_eq])
  | ldStVx =>
    refine .of_needSet h fun b h => ?_
    cases h
    rw [State.emitOption_eq]
    exact ⟨_, rfl, toneEvent_ne_present s.config s.st b⟩
  | ldVxK x => exact absurd rfl (hi x)

/-- A tick emits `StopTone` or nothing (R130). -/
theorem timerTurn_emitsNoFrame (s : State) : EmitsNoFrame s (timerTurn s) := by
  unfold timerTurn
  split
  · rw [State.tick, State.emitOption_eq]
    refine ⟨_, rfl, fun g => ?_⟩
    split_ifs <;> nofun
  · exact .of_trace_eq rfl

/-! ### Turns that push (R107) -/

/-- The next turn of the instruction clock is a block end, or the start of `LD Vx,K`. -/
def State.AtPush (s : State) : Prop :=
  s.clock = .blockEnd ∨ ∃ k x, s.clock = .run k ∧ decode s.fetchWord = some (.ldVxK x)

@[simp] theorem State.finishStep_trace (s : State) : s.finishStep.trace = s.trace := by
  unfold State.finishStep
  split <;> rfl

/-- Every turn of any agent but a turn of the instruction clock at a push emits no frame. -/
theorem act_emitsNoFrame {m : Move} (h : act m s = .next t) (hpush : ¬ (m = .clock ∧ s.AtPush)) : EmitsNoFrame s t := by
  cases m with
  | clock =>
    obtain ⟨k, i, u, hk, hd, hu, rfl⟩ | ⟨k, -, -, rfl⟩ | ⟨x, k, key, -, -, -, rfl⟩ | ⟨hend, -⟩ | ⟨-, rfl⟩ :=
      clockTurn_cases h
    · have hi (x : RegIx) : i ≠ .ldVxK x := by
        rintro rfl
        exact hpush ⟨rfl, .inr ⟨k, x, hk, hd⟩⟩
      simpa only [EmitsNoFrame, State.finishStep_trace] using exec_emitsNoFrame hu hi
    · exact .of_trace_eq rfl
    · exact .of_trace_eq rfl
    · exact absurd ⟨rfl, .inl hend⟩ hpush
    · exact .of_trace_eq rfl
  | tick => cases h; exact timerTurn_emitsNoFrame s
  | key k pressed => exact .of_next h (by cases pressed <;> rfl)
  | stop => exact .of_next h rfl

/-- The start of `LD Vx,K` pushes, and the wait it begins takes no advance (R63, R114). -/
theorem instructionStep_of_ldVxK {k : Fin stepsPerFiring} {x : RegIx} (hk : s.clock = .run k)
    (hd : decode s.fetchWord = some (.ldVxK x)) :
    instructionStep s = .next (s.push.startWait.setClock (.wait x k)) := by
  have hexec : exec (.ldVxK x) s = .next (s.push.startWait.setClock (.wait x k)) := by
    show execLdVxK x s = _
    simp only [execLdVxK, hk]
  rw [instructionStep_of_decode hd, hexec]
  rfl

/-- A turn of the instruction clock at a push emits what the push emits, and leaves a clean grid (R106). -/
theorem act_clock_of_atPush (h : s.AtPush) : ∃ t, act .clock s = .next t ∧ t.trace = s.push.trace ∧ t.dirty = false := by
  have hclean : s.push.dirty = false := by rw [State.push_eq]
  obtain hend | ⟨k, x, hk, hd⟩ := h
  · refine ⟨s.endBlock, ?_, rfl, hclean⟩
    show clockTurn s = _
    simp only [clockTurn, hend]
  · refine ⟨_, (clockTurn_of_run hk).trans (instructionStep_of_ldVxK hk hd), ?_, ?_⟩
    · rw [State.startWait_eq]
      rfl
    · rw [State.startWait_eq]
      exact hclean

end

/-- Settles O42: a turn that is not at a push emits no frame, and a turn at a push emits the grid when it is dirty. -/
theorem framesArePushedInTwoPlaces : Obligations.FramesArePushedInTwoPlaces := by
  refine ⟨fun m s t g hact htrace => ?_, fun s hdirty hpush => ?_⟩
  · by_contra hnot
    exact (act_emitsNoFrame hact hnot).trace_ne g htrace
  · obtain ⟨t, hact, htrace, hclean⟩ := act_clock_of_atPush hpush
    refine ⟨t, hact, ?_, hclean⟩
    rw [htrace, State.push, if_pos hdirty]
    rfl

end Sys2Proof.Machine
end

section
/-! What the words of the two delay timer instructions decode to (30_encoding.md R54). -/

namespace Sys2Proof

theorem decode_ldVxDt (x : RegIx) : decode (0xF#4 ++ nibbleBits x ++ 0x07#8) = some (.ldVxDt x) :=
  decode_of_found_x (Laws.OpcodeFound.ldVxDt x rfl) fun _ => rfl

theorem decode_ldDtVx (x : RegIx) : decode (0xF#4 ++ nibbleBits x ++ 0x15#8) = some (.ldDtVx x) :=
  decode_of_found_x (Laws.OpcodeFound.ldDtVx x rfl) fun _ => rfl

end Sys2Proof
end

section
/-! `LD Vx,DT` and `LD DT,Vx` (45_input_timers.md R116, R117). -/

namespace Sys2Proof.Machine

/-- The delay timer is read as it stands at the step, and no operand is checked (R116). -/
theorem exec_ldVxDt (x : RegIx) (s : State) : exec (.ldVxDt x) s = .next (s.writeV x s.dt) := rfl

theorem exec_ldDtVx_of_set {s : State} {x : RegIx} {b : Byte} (hb : s.readV x = some b) :
    exec (.ldDtVx x) s = .next (s.setDt b) :=
  needSet_of_eq_some hb s _

/-- Settles O46: the read of the timer always completes, and the write faults exactly when `Vx` is unset. -/
theorem delayTimerIsReadAndSet : Obligations.DelayTimerIsReadAndSet := by
  refine ⟨fun s x => ?_, fun s x b hb => ?_, fun s x hx => ?_⟩
  · exact completes_of_exec (decode_ldVxDt x) (exec_ldVxDt x s) rfl
  · exact completes_of_exec (decode_ldDtVx x) (exec_ldDtVx_of_set hb) rfl
  · exact raises_of_exec (decode_ldDtVx x) (needSet_of_eq_none hx s _)

end Sys2Proof.Machine
end

section
/-! The timer clock's tick (60_exceptions.md R130). -/

namespace Sys2Proof.Machine

/-- A timer at 0 stays there, as the subtraction of naturals does (R130). -/
theorem countDown_eq_ofNat (b : Byte) : countDown b = BitVec.ofNat 8 (b.toNat - 1) := by
  unfold countDown
  split
  case isTrue hzero =>
    subst hzero
    rfl
  case isFalse hpos => bv_omega

/-- A tick changes the two timers and the trace, and nothing else (R130). -/
theorem State.tick_eq (s : State) :
    s.tick = { s with dt := BitVec.ofNat 8 (s.dt.toNat - 1), st := BitVec.ofNat 8 (s.st.toNat - 1),
                      trace := s.trace ++ (if s.st.toNat = 1 then [.stopTone] else []) } := by
  have hevent : (if s.st = 1 then some Event.stopTone else none).toList = if s.st.toNat = 1 then [.stopTone] else [] := by
    rw [apply_ite Option.toList]
    exact if_congr (BitVec.toNat_inj (y := 1)).symm rfl rfl
  rw [State.tick, State.emitOption_eq, hevent, countDown_eq_ofNat, countDown_eq_ofNat]
  rfl

section
variable {s : State}

theorem timerTurn_of_running (h : s.timer = .running) : timerTurn s = s.tick := by rw [timerTurn, h]

theorem State.timerEnabled_iff : s.timerEnabled = true ↔ s.timer = .running := by
  unfold State.timerEnabled
  cases s.timer <;> decide

end

/-- Settles O48: enabledness asks for the timer clock's own phase only, and a tick is the three field updates above. -/
theorem tickDecrementsTimers : Obligations.TickDecrementsTimers := by
  refine ⟨fun s hrun => ⟨State.timerEnabled_iff.2 hrun, ?_⟩, fun s hstop => ?_⟩
  · exact congrArg Host.Outcome.next ((timerTurn_of_running hrun).trans s.tick_eq)
  · refine Bool.eq_false_iff.2 fun hen => ?_
    have hrun : s.timer = .running := State.timerEnabled_iff.1 hen
    exact TimerPhase.noConfusion (hstop.symm.trans hrun)

end Sys2Proof.Machine
end

section
/-! The words of the remaining rows decode to their instructions (30_encoding.md R54). With them every well-formed instruction
is read back from its word, and every word that a row accepts is the word of that row's instruction (R50, R51). -/

namespace Sys2Proof

/-! ### The remaining rows -/

theorem decode_ret : decode 0x00EE#16 = some .ret := decode_encode_of_found (Laws.OpcodeFound.ret rfl) rfl

theorem wellFormed_sys_iff {nnn : Addr12} : (Instr.sys nnn).wellFormed = true ↔ nnn ≠ 0x0E0#12 ∧ nnn ≠ 0x0EE#12 := by
  simp only [Instr.wellFormed, Bool.and_eq_true, bne_iff_ne]

theorem decode_sys {nnn : Addr12} (hcls : nnn ≠ 0x0E0#12) (hret : nnn ≠ 0x0EE#12) :
    decode (0x0#4 ++ nnn) = some (.sys nnn) :=
  decode_encode_of_found (Laws.OpcodeFound.sys nnn (wellFormed_sys_iff.2 ⟨hcls, hret⟩))
    (congrArg Instr.sys (fieldNnn_append _ nnn))

theorem decode_call (nnn : Addr12) : decode (0x2#4 ++ nnn) = some (.call nnn) :=
  decode_encode_of_found (Laws.OpcodeFound.call nnn rfl) (congrArg Instr.call (fieldNnn_append _ nnn))

theorem decode_subVxVy (x y : RegIx) : decode (0x8#4 ++ nibbleBits x ++ nibbleBits y ++ 0x5#4) = some (.subVxVy x y) :=
  decode_of_found_registers (Laws.OpcodeFound.subVxVy x y rfl) fun _ => rfl

theorem decode_shrVx (x y : RegIx) : decode (0x8#4 ++ nibbleBits x ++ nibbleBits y ++ 0x6#4) = some (.shrVx x y) :=
  decode_of_found_registers (Laws.OpcodeFound.shrVx x y rfl) fun _ => rfl

theorem decode_subnVxVy (x y : RegIx) : decode (0x8#4 ++ nibbleBits x ++ nibbleBits y ++ 0x7#4) = some (.subnVxVy x y) :=
  decode_of_found_registers (Laws.OpcodeFound.subnVxVy x y rfl) fun _ => rfl

theorem decode_shlVx (x y : RegIx) : decode (0x8#4 ++ nibbleBits x ++ nibbleBits y ++ 0xE#4) = some (.shlVx x y) :=
  decode_of_found_registers (Laws.OpcodeFound.shlVx x y rfl) fun _ => rfl

theorem decode_rndVxKk (x : RegIx) (kk : Byte) : decode (0xC#4 ++ nibbleBits x ++ kk) = some (.rndVxKk x kk) :=
  decode_of_found_kk (Laws.OpcodeFound.rndVxKk x kk rfl) fun _ => rfl

theorem decode_skpVx (x : RegIx) : decode (0xE#4 ++ nibbleBits x ++ 0x9E#8) = some (.skpVx x) :=
  decode_of_found_x (Laws.OpcodeFound.skpVx x rfl) fun _ => rfl

theorem decode_sknpVx (x : RegIx) : decode (0xE#4 ++ nibbleBits x ++ 0xA1#8) = some (.sknpVx x) :=
  decode_of_found_x (Laws.OpcodeFound.sknpVx x rfl) fun _ => rfl

theorem decode_ldVxK (x : RegIx) : decode (0xF#4 ++ nibbleBits x ++ 0x0A#8) = some (.ldVxK x) :=
  decode_of_found_x (Laws.OpcodeFound.ldVxK x rfl) fun _ => rfl

theorem decode_ldStVx (x : RegIx) : decode (0xF#4 ++ nibbleBits x ++ 0x18#8) = some (.ldStVx x) :=
  decode_of_found_x (Laws.OpcodeFound.ldStVx x rfl) fun _ => rfl

/-! ### From an instruction to its word and back -/

/-- Settles O1: each row reads its own operands back from the word it accepts first. -/
theorem decodeEncodeRoundTrip : Obligations.DecodeEncodeRoundTrip := by
  intro i hwf
  cases i with
  | cls => exact decode_cls
  | ret => exact decode_ret
  | sys nnn => exact decode_sys (wellFormed_sys_iff.1 hwf).1 (wellFormed_sys_iff.1 hwf).2
  | jp nnn => exact decode_jp nnn
  | call nnn => exact decode_call nnn
  | seVxKk x kk => exact decode_seVxKk x kk
  | sneVxKk x kk => exact decode_sneVxKk x kk
  | seVxVy x y => exact decode_seVxVy x y
  | ldVxKk x kk => exact decode_ldVxKk x kk
  | addVxKk x kk => exact decode_addVxKk x kk
  | ldVxVy x y => exact decode_ldVxVy x y
  | orVxVy x y => exact decode_orVxVy x y
  | andVxVy x y => exact decode_andVxVy x y
  | xorVxVy x y => exact decode_xorVxVy x y
  | addVxVy x y => exact decode_addVxVy x y
  | subVxVy x y => exact decode_subVxVy x y
  | shrVx x y => exact decode_shrVx x y
  | subnVxVy x y => exact decode_subnVxVy x y
  | shlVx x y => exact decode_shlVx x y
  | sneVxVy x y => exact decode_sneVxVy x y
  | ldINnn nnn => exact decode_ldINnn nnn
  | jpV0Nnn nnn => exact decode_jpV0Nnn nnn
  | rndVxKk x kk => exact decode_rndVxKk x kk
  | drwVxVyN x y n => exact decode_drwVxVyN x y n
  | skpVx x => exact decode_skpVx x
  | sknpVx x => exact decode_sknpVx x
  | ldVxDt x => exact decode_ldVxDt x
  | ldVxK x => exact decode_ldVxK x
  | ldDtVx x => exact decode_ldDtVx x
  | ldStVx x => exact decode_ldStVx x
  | addIVx x => exact decode_addIVx x
  | ldFVx x => exact decode_ldFVx x
  | ldBVx x => exact decode_ldBVx x
  | ldMemVx x => exact decode_ldMemVx x
  | ldVxMem x => exact decode_ldVxMem x

/-! ### From a word to its instruction and back -/

/-- The four nibbles of a word. -/
theorem Word.nibbles (w : Word) : ∃ a b c d : BitVec 4, w = ofNibbles a b c d := by
  refine ⟨w.extractLsb' 12 4, w.extractLsb' 8 4, w.extractLsb' 4 4, w.extractLsb' 0 4, BitVec.eq_of_toNat_eq ?_⟩
  have hw := w.isLt
  simp only [toNat_ofNibbles, BitVec.extractLsb'_toNat, Nat.shiftRight_eq_div_pow]
  omega

/-- A nibble that meets its place is what the place makes of it: the literal, or the nibble itself. -/
theorem getD_of_nibbleMeets {p : Option (BitVec 4)} {n : BitVec 4} (h : nibbleMeets p n = true) : p.getD n = n := by
  cases p with
  | none => rfl
  | some l => exact (beq_iff_eq.1 h).symm

/-- The instruction that a row makes of a word has the row's literals and the word's other nibbles in its own word (R51). -/
theorem encode_instr_ofNibbles (op : Opcode) (a b c d : BitVec 4) :
    encode (op.instr (ofNibbles a b c d)) = ofNibbles (op.signature.d3.getD a) (op.signature.d2.getD b)
      (op.signature.d1.getD c) (op.signature.d0.getD d) := by
  cases op <;> simp only [Opcode.instr, fieldNnn_ofNibbles, fieldX_ofNibbles, fieldY_ofNibbles, fieldN_ofNibbles, fieldKk_ofNibbles]
  case cls => show _ = ofNibbles 0x0 0x0 0xE 0x0; rfl
  case ret => show _ = ofNibbles 0x0 0x0 0xE 0xE; rfl
  case sys | jp | call | ldINnn | jpV0Nnn => exact append_nnn_nibbles _ _ _ _
  case seVxKk | sneVxKk | ldVxKk | addVxKk | rndVxKk => exact append_kk_nibbles _ _ _ _
  case skpVx | sknpVx | ldVxDt | ldVxK | ldDtVx | ldStVx | addIVx | ldFVx | ldBVx | ldMemVx | ldVxMem =>
    exact append_lit_nibbles _ _ _
  all_goals rfl

/-- A word that a row accepts is the word of the instruction the row makes of it: no bit is dropped (R58). -/
theorem encode_instr_of_accepts {op : Opcode} {w : Word} (h : op.signature.accepts w = true) : encode (op.instr w) = w := by
  obtain ⟨a, b, c, d, rfl⟩ := Word.nibbles w
  simp only [Signature.accepts_ofNibbles, Bool.and_eq_true] at h
  obtain ⟨⟨⟨ha, hb⟩, hc⟩, hd⟩ := h
  rw [encode_instr_ofNibbles, getD_of_nibbleMeets ha, getD_of_nibbleMeets hb, getD_of_nibbleMeets hc, getD_of_nibbleMeets hd]

theorem opcode_instr (op : Opcode) (w : Word) : (op.instr w).opcode = op := by cases op <;> rfl

theorem decode_eq_some_iff {w : Word} {i : Instr} : decode w = some i ↔ ∃ op, lookup w = some op ∧ op.instr w = i :=
  Option.map_eq_some_iff

/-- A row but `SYS` makes well-formed instructions only; so does `SYS` of a word that is neither `00E0` nor `00EE` (R54). -/
theorem wellFormed_instr {op : Opcode} {w : Word} (h : op = .sys → w ≠ 0x00E0#16 ∧ w ≠ 0x00EE#16)
    (hacc : op.signature.accepts w = true) : (op.instr w).wellFormed = true := by
  cases op
  case sys =>
    obtain ⟨hcls, hret⟩ := h rfl
    have hw : 0x0#4 ++ fieldNnn w = w := encode_instr_of_accepts hacc
    refine wellFormed_sys_iff.2 ⟨fun hnnn => hcls ?_, fun hnnn => hret ?_⟩ <;> rw [← hw, hnnn] <;> rfl
  all_goals rfl

/-- Settles O2: the row that decodes a word accepts it, and `SYS` is not given the words of `CLS` and `RET`. -/
theorem encodeDecodeRoundTrip : Obligations.EncodeDecodeRoundTrip := by
  intro w i hd
  obtain ⟨op, hop, rfl⟩ := decode_eq_some_iff.1 hd
  have hacc : op.signature.accepts w = true := List.find?_some (p := fun op : Opcode => op.signature.accepts w) hop
  refine ⟨wellFormed_instr ?_ hacc, encode_instr_of_accepts hacc⟩
  rintro rfl
  constructor <;> rintro rfl
  · exact absurd (hd.symm.trans decode_cls) (by simp [Opcode.instr])
  · exact absurd (hd.symm.trans decode_ret) (by simp [Opcode.instr])

/-! ### Rows that overlap (R54, R55) -/

/-- A row that accepts a word decodes it, unless it is `SYS` at `00E0` or `00EE`. -/
theorem decode_of_accepts {op : Opcode} {w : Word} (h : op = .sys → w ≠ 0x00E0#16 ∧ w ≠ 0x00EE#16)
    (hacc : op.signature.accepts w = true) : decode w = some (op.instr w) := by
  have hround := decodeEncodeRoundTrip _ (wellFormed_instr h hacc)
  rwa [encode_instr_of_accepts hacc] at hround

/-- Two rows that both decode a word are one row: an instruction has one opcode. -/
theorem opcode_unique_of_decode {op op' : Opcode} {w : Word} (h : decode w = some (op.instr w))
    (h' : decode w = some (op'.instr w)) : op = op' := by
  rw [← opcode_instr op w, ← opcode_instr op' w, Option.some.inj (h.symm.trans h')]

/-- Settles O4: two rows that accept a word would both decode it; for `SYS` that leaves the words of `CLS` and `RET`. -/
theorem onlySysOverlapsOtherRows : Obligations.OnlySysOverlapsOtherRows := by
  refine ⟨fun w op op' hop hop' hacc hacc' => ?_, fun w op hop hacc hsys => ?_⟩
  · exact opcode_unique_of_decode (decode_of_accepts (absurd · hop) hacc) (decode_of_accepts (absurd · hop') hacc')
  · by_contra hw
    have hw' : w ≠ 0x00E0#16 ∧ w ≠ 0x00EE#16 := not_or.1 hw
    exact hop (opcode_unique_of_decode (decode_of_accepts (absurd · hop) hacc) (decode_of_accepts (fun _ => hw') hsys))

theorem Signature.accepts_iff {s : Signature} {w : Word} : s.accepts w = true ↔ w &&& s.mask = s.matchValue := beq_iff_eq

/-- The row looked up is the first, in row order, that accepts the word (R54). -/
theorem lookup_eq_some_iff {w : Word} {op : Opcode} : lookup w = some op ↔
    ∃ n : Nat, opcodes[n]? = some op ∧ w &&& op.signature.mask = op.signature.matchValue ∧
      ∀ (m : Nat) (op' : Opcode), m < n → opcodes[m]? = some op' → w &&& op'.signature.mask ≠ op'.signature.matchValue := by
  simp only [lookup, List.find?_eq_some_iff_getElem, Signature.accepts_iff, List.getElem?_eq_some_iff]
  constructor
  · rintro ⟨hacc, n, hn, hget, hfirst⟩
    refine ⟨n, ⟨hn, hget⟩, hacc, ?_⟩
    rintro m op' hm ⟨hlt, rfl⟩
    simpa [← Signature.accepts_iff] using hfirst m hm
  · rintro ⟨n, ⟨hn, hget⟩, hacc, hfirst⟩
    refine ⟨hacc, n, hn, hget, fun m hm => ?_⟩
    simpa [← Signature.accepts_iff] using hfirst m _ hm ⟨hm.trans hn, rfl⟩

theorem decode_eq_none_iff {w : Word} : decode w = none ↔ ∀ op ∈ opcodes, op.signature.accepts w = false := by
  rw [decode, Option.map_eq_none_iff, lookup, List.find?_eq_none]
  simp only [Bool.not_eq_true]

/-- Settles O3: decoding looks up the first row that accepts the word and takes the word's fields. -/
theorem decodeTakesFirstMatchingRow : Obligations.DecodeTakesFirstMatchingRow := by
  refine ⟨fun w i => ?_, fun w => ?_, decode_cls, decode_ret, fun nnn => decode_sys⟩
  · rw [decode_eq_some_iff]
    constructor
    · rintro ⟨op, hop, rfl⟩
      obtain ⟨n, hget, hacc, hfirst⟩ := lookup_eq_some_iff.1 hop
      exact ⟨n, op, hget, hacc, rfl, hfirst⟩
    · rintro ⟨n, op, hget, hacc, rfl, hfirst⟩
      exact ⟨op, lookup_eq_some_iff.2 ⟨n, hget, hacc, hfirst⟩, rfl⟩
  · simp only [decode_eq_none_iff, ← Bool.not_eq_true, Signature.accepts_iff, ne_eq]

/-! ### Decode misses (R57) -/

/-- The low byte of a word has a value exactly when its two nibbles have the value's digits. -/
theorem lowNibbles_eq_iff (c d : BitVec 4) {n : Nat} (hn : n < 256) :
    c.toNat * 16 + d.toNat = n ↔ c = BitVec.ofNat 4 (n / 16) ∧ d = BitVec.ofNat 4 (n % 16) := by
  have hc := c.isLt; have hd := d.isLt
  rw [← BitVec.toNat_inj, ← BitVec.toNat_inj, BitVec.toNat_ofNat, BitVec.toNat_ofNat]
  omega

/-- The decode misses by their nibbles: the second one plays no part in it (R57). -/
theorem decode_ofNibbles_eq_none_iff (a b c d : BitVec 4) : decode (ofNibbles a b c d) = none ↔
    (a.toNat = 5 ∧ d.toNat ≠ 0) ∨
    (a.toNat = 8 ∧ d.toNat ∈ [8, 9, 0xA, 0xB, 0xC, 0xD, 0xF]) ∨
    (a.toNat = 9 ∧ d.toNat ≠ 0) ∨
    (a.toNat = 0xE ∧ c.toNat * 16 + d.toNat ∉ [0x9E, 0xA1]) ∨
    (a.toNat = 0xF ∧ c.toNat * 16 + d.toNat ∉ [0x07, 0x0A, 0x15, 0x18, 0x1E, 0x29, 0x33, 0x55, 0x65]) := by
  have h8 : ∀ d : BitVec 4, (¬ d = 0 ∧ ¬ d = 1 ∧ ¬ d = 2 ∧ ¬ d = 3 ∧ ¬ d = 4 ∧ ¬ d = 5 ∧ ¬ d = 6 ∧ ¬ d = 7 ∧ ¬ d = 0xE) ↔
      d.toNat ∈ [8, 9, 0xA, 0xB, 0xC, 0xD, 0xF] := by decide
  have h0 : d.toNat = 0 ↔ d = 0 := by rw [← BitVec.toNat_inj]; rfl
  simp only [decode_eq_none_iff, Signature.accepts_ofNibbles, opcodes, opcodesFlow, opcodesAlu, opcodesMiddle, opcodesF,
    List.forall_mem_append, List.forall_mem_cons, Opcode.signature, nibbleMeets]
  obtain ⟨a⟩ := a
  fin_cases a <;> simp [lowNibbles_eq_iff, h0, ← h8]

/-- Settles O5: a word's digits are its nibbles, and a row's literals stand in the first, the third and the last. -/
theorem decodeMissesAreTheListedWords : Obligations.DecodeMissesAreTheListedWords := by
  intro w
  obtain ⟨a, b, c, d, rfl⟩ := Word.nibbles w
  have hb := b.isLt; have hc := c.isLt; have hd := d.isLt
  have hfirst : (ofNibbles a b c d).toNat / 4096 = a.toNat := by rw [toNat_ofNibbles]; omega
  have hlast : (ofNibbles a b c d).toNat % 16 = d.toNat := by rw [toNat_ofNibbles]; omega
  have hlow : (ofNibbles a b c d).toNat % 256 = c.toNat * 16 + d.toNat := by rw [toNat_ofNibbles]; omega
  rw [hfirst, hlast, hlow]
  exact decode_ofNibbles_eq_none_iff a b c d

/-- Settles O6: each word is the word of its instruction, and the last one is found in no row. -/
theorem wordsOfTheTableDecode : Obligations.WordsOfTheTableDecode :=
  ⟨decode_ldVxKk 0 5, decode_ldINnn 0, decode_drwVxVyN 0 0 5, decode_subnVxVy 0xA 0xB, decode_jpV0Nnn 0xABC,
    decode_sknpVx 0xA, decode_ldMemVx 0xA, by decide⟩

end Sys2Proof
end

section
/-! What a handler can do, told once (40_step.md R63, R68): it raises a fault whose cause holds, or it leaves one of the effects
below with no cause holding; `LD Vx,K` has no answer outside `RUN(k)` (log 11). -/

namespace Sys2Proof.Machine

/-! ### Effects and answers -/

/-- What the handler of an instruction leaves when it raises no fault, by what it writes. -/
inductive Effect (s : State) : Instr → State → Prop where
  | cls : Effect s .cls s.clearScreen
  | sys (nnn : Addr12) : Effect s (.sys nnn) s
  | ret {j : Fin 16} {t : Word} (hj : index16 s.sp = some j) (ht : s.readStack j = some t) :
      Effect s .ret ((s.setPc t).setSp (s.sp - 1))
  | call (nnn : Addr12) {j : Fin 16} (hj : index16 (s.sp + 1) = some j) :
      Effect s (.call nnn) (jumpTo (zext16 nnn) ((s.setSp (s.sp + 1)).writeStack j s.pc))
  | setPc {i : Instr} (hi : writesPc i = true) (w : Word) : Effect s i (s.setPc w)
  | writeV {i : Instr} {x : RegIx} (hx : writesV i x = true) (b : Byte) : Effect s i (s.writeV x b)
  | writeFlagged {i : Instr} {x : RegIx} (hf : writesV i vf = true) (hx : writesV i x = true) (f b : Byte) :
      Effect s i ((s.writeV vf f).writeV x b)
  | drawRandom (x : RegIx) (kk b : Byte) : Effect s (.rndVxKk x kk) ((s.setDraws (s.draws + 1)).writeV x b)
  | loadBlock (x : RegIx) (a : Nat) : Effect s (.ldVxMem x) { s with v := (s.loadVs a (regsUpTo x)).v }
  | writeI {i : Instr} (hi : (∃ a, i = .ldINnn a) ∨ (∃ x, i = .addIVx x) ∨ ∃ x, i = .ldFVx x) (w : Word) :
      Effect s i (s.writeI w)
  | store {i : Instr} (hi : (∃ x, i = .ldBVx x) ∨ ∃ x, i = .ldMemVx x) (a : Nat) (bs : List Byte) :
      Effect s i (s.setMem (Memory.writeRange s.mem a bs))
  | draw (x y : RegIx) (n : Fin 16) (g : Grid) (d : Bool) (f : Byte) :
      Effect s (.drwVxVyN x y n) (((s.setFb g).setDirty d).writeV vf f)
  | setDt (x : RegIx) (b : Byte) : Effect s (.ldDtVx x) (s.setDt b)
  | setSt (x : RegIx) (b : Byte) (e : Option Event) : Effect s (.ldStVx x) { s with st := b, trace := s.trace ++ e.toList }
  | startWait (x : RegIx) {k : Fin stepsPerFiring} (hk : s.clock = .run k) :
      Effect s (.ldVxK x) { s with trace := s.push.trace, dirty := false, pressPending := s.startWait.pressPending,
                                   clock := .wait x k }

/-- The cause of no fault code holds (R121). -/
def Faultless (i : Instr) (s : State) : Prop := ∀ code, ¬ FaultCause i s code

/-- What a handler answers (R119, R121). -/
inductive Answer (i : Instr) (s : State) : Result → Prop where
  | fault {code : FaultCode} (hcause : FaultCause i s code) : Answer i s (raiseFault code s)
  | effect {t : State} (hno : Faultless i s) (ht : Effect s i t) : Answer i s (.next t)
  | outsideRun {x : RegIx} (hi : i = .ldVxK x) (hrun : ∀ k, s.clock ≠ .run k) : Answer i s (.fault .handlerOutsideRun)

/-- The start of a key wait, field by field (R114). -/
theorem State.setClock_startWait_push (s : State) (p : ClockPhase) : s.push.startWait.setClock p =
    { s with trace := s.push.trace, dirty := false, pressPending := s.startWait.pressPending, clock := p } := by
  simp only [State.startWait_eq, State.push_eq]
  rfl

/-- No cause holds when every cell read is set and every index is below 16 (R121). -/
theorem faultless_iff {i : Instr} {s : State} : Faultless i s ↔
    (∀ r ∈ readsV i, s.readV r ≠ none) ∧ (readsI i = true → s.ireg ≠ none) ∧
      (i = .ret → s.sp.toNat < 16 ∧ ∀ j : Fin 16, j.val = s.sp.toNat → s.readStack j ≠ none) ∧
      (∀ nnn, i = .call nnn → (s.sp.toNat + 1) % 256 < 16) ∧
      ∀ x, i = .skpVx x ∨ i = .sknpVx x → ∀ b, s.readV x = some b → b.toNat < 16 := by
  constructor
  · intro h
    refine ⟨fun r hr hnone => h .unsetRead (.inl (.inl ⟨r, hr, hnone⟩)), fun hi hnone => h .unsetRead (.inl (.inr ⟨hi, hnone⟩)),
      fun hret => ⟨Nat.lt_of_not_le fun hsp => h .stackIndex (.inl ⟨hret, hsp⟩),
        fun j hj hnone => h .unsetRead (.inr ⟨hret, j, hj, hnone⟩)⟩,
      fun nnn hcall => Nat.lt_of_not_le fun hsp => h .stackIndex (.inr ⟨nnn, hcall, hsp⟩),
      fun x hx b hb => Nat.lt_of_not_le fun hkey => h .keyIndex ⟨x, b, hx, hb, hkey⟩⟩
  · rintro ⟨hv, hireg, hret, hcall, hkey⟩ (_ | _ | _)
    · rintro (⟨hi, hsp⟩ | ⟨nnn, hi, hsp⟩)
      · exact (hret hi).1.not_ge hsp
      · exact (hcall nnn hi).not_ge hsp
    · rintro ((⟨r, hr, hnone⟩ | ⟨hi, hnone⟩) | ⟨hi, j, hj, hnone⟩)
      · exact hv r hr hnone
      · exact hireg hi hnone
      · exact (hret hi).2 j hj hnone
    · rintro ⟨x, b, hx, hb, hindex⟩
      exact (hkey x hx b hb).not_ge hindex

/-- `SP` one up, as a byte (R18). -/
theorem toNat_sp_add_one (sp : Byte) : (sp + 1).toNat = (sp.toNat + 1) % 256 := BitVec.toNat_add sp 1

section
variable {i : Instr} {s : State}

theorem Answer.of_needSet {α : Type} {cell : Option α} {k : α → Result} (hnone : cell = none → readsUnset i s)
    (hsome : ∀ a, cell = some a → Answer i s (k a)) : Answer i s (needSet cell s k) := by
  cases cell with
  | none => exact .fault (code := .unsetRead) (.inl (hnone rfl))
  | some a => exact hsome a rfl

theorem Answer.of_readV {x : RegIx} {k : Byte → Result} (hx : x ∈ readsV i)
    (hsome : ∀ a, s.readV x = some a → Answer i s (k a)) : Answer i s (needSet (s.readV x) s k) :=
  .of_needSet (fun hnone => .inl ⟨x, hx, hnone⟩) hsome

theorem Answer.of_readI {k : Word → Result} (hi : readsI i = true)
    (hsome : ∀ a, s.ireg = some a → Answer i s (k a)) : Answer i s (needSet s.ireg s k) :=
  .of_needSet (fun hnone => .inr ⟨hi, hnone⟩) hsome

theorem Answer.of_skipIf {c : Bool} (hno : Faultless i s) (hi : writesPc i = true) : Answer i s (skipIf c s) := by
  cases c with
  | false => exact .effect hno (.setPc hi s.pc)
  | true => exact .effect hno (.setPc hi (s.pc + 2))

end

/-- Every handler answers in one of these ways. -/
theorem exec_answer (i : Instr) (s : State) : Answer i s (exec i s) := by
  cases i with
  | cls => exact .effect (by simp [faultless_iff, readsV, readsI]) .cls
  | sys nnn => exact .effect (by simp [faultless_iff, readsV, readsI]) (.sys nnn)
  | ret =>
    show Answer _ s (execRet s)
    unfold execRet
    cases hj : index16 s.sp with
    | none => exact .fault (.inl ⟨rfl, index16_eq_none.1 hj⟩)
    | some j =>
      have hsp : s.sp.toNat = j.val := index16_eq_some.1 hj
      show Answer _ s (needSet (s.readStack j) s _)
      cases ht : s.readStack j with
      | none => exact .fault (code := .unsetRead) (.inr ⟨rfl, j, hsp.symm, ht⟩)
      | some t =>
        refine .effect ?_ (.ret hj ht)
        simp [faultless_iff, readsV, readsI, hsp, Fin.val_inj, ht]
  | call nnn =>
    show Answer _ s (execCall nnn s)
    unfold execCall
    cases hj : index16 (s.sp + 1) with
    | none => exact .fault (.inr ⟨nnn, rfl, (index16_eq_none.1 hj).trans_eq (toNat_sp_add_one s.sp)⟩)
    | some j =>
      have hlt : (s.sp.toNat + 1) % 256 = j.val := (toNat_sp_add_one s.sp).symm.trans (index16_eq_some.1 hj)
      exact .effect (by simp [faultless_iff, readsV, readsI, hlt]) (.call nnn hj)
  | jp =>
    exact .effect (by simp [faultless_iff, readsV, readsI]) (.setPc rfl _)
  | jpV0Nnn =>
    refine .of_readV (by simp [readsV]) fun a ha => .effect ?_ (.setPc rfl _)
    simp [faultless_iff, readsV, readsI, ha]
  | seVxKk | sneVxKk =>
    refine .of_readV (by simp [readsV]) fun a ha => .of_skipIf ?_ rfl
    simp [faultless_iff, readsV, readsI, ha]
  | seVxVy | sneVxVy =>
    refine .of_readV (by simp [readsV]) fun a ha => .of_readV (by simp [readsV]) fun b hb => .of_skipIf ?_ rfl
    simp [faultless_iff, readsV, readsI, ha, hb]
  | skpVx | sknpVx =>
    refine .of_readV (by simp [readsV]) fun b hb => ?_
    unfold skipOnKey
    cases hk : index16 b with
    | none => exact .fault (code := .keyIndex) ⟨_, b, by simp, hb, index16_eq_none.1 hk⟩
    | some k =>
      have hlt : b.toNat = k.val := index16_eq_some.1 hk
      refine .of_skipIf ?_ rfl
      simp [faultless_iff, readsV, readsI, hb, hlt]
  | ldVxKk | ldVxDt =>
    exact .effect (by simp [faultless_iff, readsV, readsI]) (.writeV (by simp [writesV]) _)
  | addVxKk | ldVxVy =>
    refine .of_readV (by simp [readsV]) fun a ha => .effect ?_ (.writeV (by simp [writesV]) _)
    simp [faultless_iff, readsV, readsI, ha]
  | orVxVy | andVxVy | xorVxVy =>
    refine .of_readV (by simp [readsV]) fun a ha => .of_readV (by simp [readsV]) fun b hb =>
      .effect ?_ (.writeV (by simp [writesV]) _)
    simp [faultless_iff, readsV, readsI, ha, hb]
  | addVxVy | subVxVy | subnVxVy =>
    refine .of_readV (by simp [readsV]) fun a ha => .of_readV (by simp [readsV]) fun b hb =>
      .effect ?_ (.writeFlagged (by simp [writesV, vf]) (by simp [writesV]) _ _)
    simp [faultless_iff, readsV, readsI, ha, hb]
  | shrVx | shlVx =>
    refine .of_readV (by simp [readsV]) fun a ha =>
      .effect ?_ (.writeFlagged (by simp [writesV, vf]) (by simp [writesV]) _ _)
    simp [faultless_iff, readsV, readsI, ha]
  | rndVxKk x kk =>
    exact .effect (by simp [faultless_iff, readsV, readsI]) (.drawRandom x kk _)
  | ldINnn nnn =>
    exact .effect (by simp [faultless_iff, readsV, readsI]) (.writeI (.inl ⟨nnn, rfl⟩) _)
  | addIVx x =>
    refine .of_readI rfl fun a ha => .of_readV (by simp [readsV]) fun b hb =>
      .effect ?_ (.writeI (.inr (.inl ⟨x, rfl⟩)) _)
    simp [faultless_iff, readsV, ha, hb]
  | ldFVx x =>
    refine .of_readV (by simp [readsV]) fun b hb => .effect ?_ (.writeI (.inr (.inr ⟨x, rfl⟩)) _)
    simp [faultless_iff, readsV, readsI, hb]
  | drwVxVyN x y n =>
    refine .of_readV (by simp [readsV]) fun a ha => .of_readV (by simp [readsV]) fun b hb => .of_readI rfl fun w hw =>
      .effect ?_ (.draw x y n _ _ _)
    simp [faultless_iff, readsV, ha, hb, hw]
  | ldBVx x =>
    refine .of_readV (by simp [readsV]) fun b hb => .of_readI rfl fun w hw => .effect ?_ (.store (.inl ⟨x, rfl⟩) _ _)
    simp [faultless_iff, readsV, hb, hw]
  | ldMemVx x =>
    have hreads : ∀ r, r ∈ readsV (.ldMemVx x) ↔ r ∈ regsUpTo x := by simp [readsV, mem_regsUpTo]
    refine .of_readI rfl fun w hw => .of_needSet (fun hnone => ?_) fun bs hbs => .effect ?_ (.store (.inr ⟨x, rfl⟩) _ _)
    · obtain ⟨r, hr, hunset⟩ := State.readVs_eq_none.1 hnone
      exact .inl ⟨r, (hreads r).2 hr, hunset⟩
    · have hset : ¬ ∃ r ∈ regsUpTo x, s.readV r = none := by simp [← State.readVs_eq_none, hbs]
      simpa [faultless_iff, hreads, hw] using hset
  | ldVxMem x =>
    refine .of_readI rfl fun w hw => .effect ?_ (State.loadVs_eq _ s _ ▸ .loadBlock x _)
    simp [faultless_iff, readsV, hw]
  | ldDtVx x =>
    refine .of_readV (by simp [readsV]) fun b hb => .effect ?_ (.setDt x b)
    simp [faultless_iff, readsV, readsI, hb]
  | ldStVx x =>
    refine .of_readV (by simp [readsV]) fun b hb => .effect ?_ (State.emitOption_eq _ _ ▸ .setSt x b _)
    simp [faultless_iff, readsV, readsI, hb]
  | ldVxK x =>
    have hno : Faultless (.ldVxK x) s := by simp [faultless_iff, readsV, readsI]
    show Answer _ s (execLdVxK x s)
    unfold execLdVxK
    cases hc : s.clock with
    | run k => exact .effect hno (s.setClock_startWait_push _ ▸ .startWait x hc)
    | wait | blockEnd | faulted | stopped => exact .outsideRun rfl fun k => by simp [hc]

end Sys2Proof.Machine
end

section
/-! What follows from the answers of the handlers: every instruction answers (60_exceptions.md R119), the causes of the faults
(R121, R122), and what an instruction leaves unchanged (10_state.md R14 to R21, R25, R27). -/

namespace Sys2Proof.Machine

section
variable {i : Instr} {s t : State}

/-- A handler that answers a next state has raised a fault whose cause holds, or has left one of its effects. -/
theorem exec_eq_next (h : exec i s = .next t) :
    (∃ code, FaultCause i s code ∧ t = s.faulted code) ∨ (Faultless i s ∧ Effect s i t) := by
  have ha := exec_answer i s
  generalize exec i s = r at h ha
  cases ha with
  | fault hcause => exact .inl ⟨_, hcause, (Host.Outcome.next.inj h).symm⟩
  | effect hno ht => cases h; exact .inr ⟨hno, ht⟩
  | outsideRun => cases h

/-- The one handler that can stop is that of `LD Vx,K`, outside `RUN(k)` (log 11). -/
theorem exec_answers (h : (∃ k, s.clock = .run k) ∨ ∀ x, i ≠ .ldVxK x) : ∃ t, exec i s = .next t := by
  have ha := exec_answer i s
  generalize exec i s = r at ha ⊢
  cases ha with
  | fault => exact ⟨_, rfl⟩
  | effect => exact ⟨_, rfl⟩
  | outsideRun hi hrun => exact (h.elim (fun ⟨k, hk⟩ => hrun k hk) fun hne => hne _ hi).elim

/-- Settles O13: a checked read and an index check answer next states, and `LD Vx,K` has one in `RUN(k)` alone. -/
theorem everyInstructionAnswers : Obligations.EveryInstructionAnswers := by
  refine ⟨fun i s k hk => exec_answers (.inl ⟨k, hk⟩), fun i s hi => exec_answers (.inr hi), fun x s hrun => ?_⟩
  show execLdVxK x s = _
  cases hc : s.clock with
  | run k => exact absurd hc (hrun k)
  | wait | blockEnd | faulted | stopped => simp only [execLdVxK, hc]

/-! ### Faults -/

/-- No two codes have their causes at once (R122). -/
theorem FaultCause.unique {c c' : FaultCode} (h : FaultCause i s c) (h' : FaultCause i s c') : c = c' := by
  have stack_unset (h : FaultCause i s .stackIndex) (h' : FaultCause i s .unsetRead) : False := by
    obtain ⟨rfl, hsp⟩ | ⟨nnn, rfl, -⟩ := h
    · obtain hreads | ⟨-, j, hj, -⟩ := h'
      · simp [readsUnset, readsV, readsI] at hreads
      · omega
    · simp [FaultCause, readsUnset, readsV, readsI] at h'
  have stack_key (h : FaultCause i s .stackIndex) (h' : FaultCause i s .keyIndex) : False := by
    obtain ⟨x, b, rfl | rfl, -⟩ := h' <;> simp [FaultCause] at h
  have unset_key (h : FaultCause i s .unsetRead) (h' : FaultCause i s .keyIndex) : False := by
    obtain ⟨x, b, rfl | rfl, hb, -⟩ := h' <;> simp [FaultCause, readsUnset, readsV, readsI, hb] at h
  cases c <;> cases c'
  case stackIndex.unsetRead => exact (stack_unset h h').elim
  case unsetRead.stackIndex => exact (stack_unset h' h).elim
  case stackIndex.keyIndex => exact (stack_key h h').elim
  case keyIndex.stackIndex => exact (stack_key h' h).elim
  case unsetRead.keyIndex => exact (unset_key h h').elim
  case keyIndex.unsetRead => exact (unset_key h' h).elim
  all_goals rfl

/-- An effect keeps the phase, or starts a key wait. -/
theorem Effect.clock (h : Effect s i t) : t.clock = s.clock ∨ ∃ x k, t.clock = .wait x k := by
  cases h with
  | startWait x => exact .inr ⟨x, _, rfl⟩
  | _ => exact .inl rfl

/-- In `RUN(k)` a handler that leaves a faulted clock has raised that fault (R68). -/
theorem eq_faulted_of_exec {k : Fin stepsPerFiring} {code : FaultCode} {p w : Word} (hk : s.clock = .run k)
    (h : exec i s = .next t) (ht : t.clock = .faulted code p w) : FaultCause i s code ∧ t = s.faulted code := by
  obtain ⟨c, hcause, rfl⟩ | ⟨-, heff⟩ := exec_eq_next h
  · cases ht
    exact ⟨hcause, rfl⟩
  · obtain hkeep | ⟨x, j, hwait⟩ := heff.clock
    · rw [hkeep, hk] at ht; cases ht
    · rw [hwait] at ht; cases ht

/-- Settles O11: a handler answers a fault with its cause or an effect with none, and no two causes hold at once. -/
theorem faultCodesHaveTheirCauses : Obligations.FaultCodesHaveTheirCauses := by
  intro i s k code hk
  constructor
  · rintro ⟨t, p, w, h, ht⟩
    exact (eq_faulted_of_exec hk h ht).1
  · intro hcause
    obtain ⟨t, h⟩ := exec_answers (i := i) (.inl ⟨k, hk⟩)
    obtain ⟨c, hc, rfl⟩ | ⟨hno, -⟩ := exec_eq_next h
    · obtain rfl := hc.unique hcause
      exact ⟨_, _, _, h, rfl⟩
    · exact absurd hcause (hno code)

/-! ### Frames over all instructions -/

/-- An effect writes no `V` register but the instruction's own (R14, R15). -/
theorem Effect.readV_eq (h : Effect s i t) {r : RegIx} (hr : writesV i r = false) : t.readV r = s.readV r := by
  have ne_of_writes {x : RegIx} (hx : writesV i x = true) : r ≠ x := by
    rintro rfl
    exact Bool.false_ne_true (hr.symm.trans hx)
  cases h with
  | writeV hx b => exact s.readV_writeV_of_ne _ r b (ne_of_writes hx)
  | writeFlagged hf hx f b =>
    exact (State.readV_writeV_of_ne _ _ r b (ne_of_writes hx)).trans (s.readV_writeV_of_ne _ r f (ne_of_writes hf))
  | drawRandom x kk b => exact State.readV_writeV_of_ne _ x r b (ne_of_writes (beq_self_eq_true x))
  | draw x y n g d f => exact State.readV_writeV_of_ne _ vf r f (ne_of_writes rfl)
  | loadBlock x a =>
    have hx : ¬ r ≤ x := of_decide_eq_false hr
    exact (s.readV_loadVs_regsUpTo a x r).trans (if_neg hx)
  | _ => rfl

/-- Settles O53: a fault writes no register, and an effect its own ones. -/
theorem onlyWrittenRegistersChange : Obligations.OnlyWrittenRegistersChange := by
  intro i s t r h hr
  obtain ⟨code, -, rfl⟩ | ⟨-, heff⟩ := exec_eq_next h
  · rfl
  · exact heff.readV_eq hr

theorem Effect.pc_eq (h : Effect s i t) (hi : writesPc i = false) : t.pc = s.pc := by
  cases h with
  | ret | call => cases hi
  | setPc hpc => exact absurd (hi.symm.trans hpc) Bool.false_ne_true
  | _ => rfl

theorem Effect.ireg_eq (h : Effect s i t) (hld : ∀ a, i ≠ .ldINnn a) (hadd : ∀ x, i ≠ .addIVx x) (hf : ∀ x, i ≠ .ldFVx x) :
    t.ireg = s.ireg := by
  cases h with
  | writeI hi => obtain ⟨a, rfl⟩ | ⟨x, rfl⟩ | ⟨x, rfl⟩ := hi <;> simp at hld hadd hf
  | _ => rfl

theorem Effect.sp_eq (h : Effect s i t) (hcall : ∀ a, i ≠ .call a) (hret : i ≠ .ret) : t.sp = s.sp := by
  cases h with
  | ret => exact absurd rfl hret
  | call nnn => exact absurd rfl (hcall nnn)
  | _ => rfl

theorem Effect.stack_eq (h : Effect s i t) (hcall : ∀ a, i ≠ .call a) : t.stack = s.stack := by
  cases h with
  | call nnn => exact absurd rfl (hcall nnn)
  | _ => rfl

theorem Effect.dt_eq (h : Effect s i t) (hi : ∀ x, i ≠ .ldDtVx x) : t.dt = s.dt := by
  cases h with
  | setDt x => exact absurd rfl (hi x)
  | _ => rfl

theorem Effect.st_eq (h : Effect s i t) (hi : ∀ x, i ≠ .ldStVx x) : t.st = s.st := by
  cases h with
  | setSt x => exact absurd rfl (hi x)
  | _ => rfl

theorem Effect.mem_eq (h : Effect s i t) (hb : ∀ x, i ≠ .ldBVx x) (hmem : ∀ x, i ≠ .ldMemVx x) : t.mem = s.mem := by
  cases h with
  | store hi =>
    obtain ⟨x, rfl⟩ | ⟨x, rfl⟩ := hi
    · exact absurd rfl (hb x)
    · exact absurd rfl (hmem x)
  | _ => rfl

theorem Effect.fb_eq (h : Effect s i t) (hcls : i ≠ .cls) (hdrw : ∀ x y n, i ≠ .drwVxVyN x y n) : t.fb = s.fb := by
  cases h with
  | cls => exact absurd rfl hcls
  | draw x y n => exact absurd rfl (hdrw x y n)
  | _ => rfl

theorem Effect.dirty_eq (h : Effect s i t) (hcls : i ≠ .cls) (hdrw : ∀ x y n, i ≠ .drwVxVyN x y n) (hk : ∀ x, i ≠ .ldVxK x) :
    t.dirty = s.dirty := by
  cases h with
  | cls => exact absurd rfl hcls
  | draw x y n => exact absurd rfl (hdrw x y n)
  | startWait x => exact absurd rfl (hk x)
  | _ => rfl

theorem Effect.pressPending_eq (h : Effect s i t) (hk : ∀ x, i ≠ .ldVxK x) : t.pressPending = s.pressPending := by
  cases h with
  | startWait x => exact absurd rfl (hk x)
  | _ => rfl

theorem Effect.draws_eq (h : Effect s i t) (hi : ∀ x kk, i ≠ .rndVxKk x kk) : t.draws = s.draws := by
  cases h with
  | drawRandom x kk => exact absurd rfl (hi x kk)
  | _ => rfl

/-- The keys, the last key, the timer clock's phase, the configuration and the turns to come: what the instruction clock never
changes (60_exceptions.md R127). -/
def SameOutside (s t : State) : Prop :=
  t.keys = s.keys ∧ t.lastKey = s.lastKey ∧ t.timer = s.timer ∧ t.config = s.config ∧ t.schedule = s.schedule ∧
    t.round = s.round

theorem Effect.sameOutside (h : Effect s i t) : SameOutside s t := by
  cases h <;> exact ⟨rfl, rfl, rfl, rfl, rfl, rfl⟩

theorem exec_sameOutside (h : exec i s = .next t) : SameOutside s t := by
  obtain ⟨code, -, rfl⟩ | ⟨-, heff⟩ := exec_eq_next h
  · exact ⟨rfl, rfl, rfl, rfl, rfl, rfl⟩
  · exact heff.sameOutside

/-- Settles O54: a fault writes the trace and the phase alone, and an effect writes what its instruction writes. -/
theorem onlyWritersChangeSpecialState : Obligations.OnlyWritersChangeSpecialState := by
  intro i s t h
  obtain ⟨code, -, rfl⟩ | ⟨-, heff⟩ := exec_eq_next h
  · simp [State.memRead]
  · exact ⟨heff.pc_eq, heff.ireg_eq, heff.sp_eq, heff.stack_eq, heff.dt_eq, heff.st_eq,
      fun hb hmem => State.memRead_congr (heff.mem_eq hb hmem), fun hcls hdrw => ⟨heff.fb_eq hcls hdrw, heff.dirty_eq hcls hdrw⟩,
      heff.pressPending_eq, heff.draws_eq, heff.sameOutside⟩

end

end Sys2Proof.Machine
end

section
/-! What a turn of each agent can do and what it leaves unchanged (60_exceptions.md R127), the phases of the instruction clock
(10_state.md R28), and that a fault and a stop are final (40_step.md R68, R69). -/

namespace Sys2Proof.Machine

section
variable {s t : State}

/-! ### The turns of the timer clock and of the host -/

/-- A turn of the timer clock writes the timers and the trace, with at most one event (R127, R130). -/
theorem eq_of_tick (h : act .tick s = .next t) : ∃ (d b : Byte) (e : Option Event),
    t = { s with dt := d, st := b, trace := s.trace ++ e.toList } := by
  obtain rfl : timerTurn s = t := Host.Outcome.next.inj h
  unfold timerTurn
  split
  · exact ⟨_, _, _, State.emitOption_eq _ _⟩
  · exact ⟨s.dt, s.st, none, by simp⟩

theorem timerTurn_of_stopped (h : s.timer = .stopped) : timerTurn s = s := by rw [timerTurn, h]

/-- A key event writes the latch (R127, R133). -/
theorem eq_of_keyEvent {k : KeyIx} {pressed : Bool} (h : act (.key k pressed) s = .next t) :
    ∃ (keys : Vector Bool 16) (last : Option KeyIx) (pending : Bool),
      t = { s with keys := keys, lastKey := last, pressPending := pending } := by
  cases h
  cases pressed <;> exact ⟨_, _, _, rfl⟩

/-- A stop leaves a fault as it is and ends the clock in every other phase (R69). -/
theorem State.stop_clock (s : State) : ((∃ c p w, s.clock = .faulted c p w) ∧ s.stop.clock = s.clock) ∨
    ((∀ c p w, s.clock ≠ .faulted c p w) ∧ s.stop.clock = .stopped) := by
  unfold State.stop
  cases hc : s.clock with
  | faulted c p w => exact .inl ⟨⟨c, p, w, rfl⟩, rfl⟩
  | run | wait | blockEnd | stopped => exact .inr ⟨fun _ _ _ => ClockPhase.noConfusion, rfl⟩

theorem State.stop_stop (s : State) : s.stop.stop = s.stop := by
  unfold State.stop
  cases s.clock <;> rfl

/-! ### The turns of the instruction clock -/

/-- What follows the handler writes `PC` and the phase (R63). -/
theorem State.finishStep_frame (s : State) : ∃ (pc : Word) (c : ClockPhase), s.finishStep = { s with pc := pc, clock := c } := by
  unfold State.finishStep
  split
  · exact ⟨_, _, rfl⟩
  all_goals exact ⟨s.pc, s.clock, rfl⟩

theorem clockTurn_sameOutside (h : clockTurn s = .next t) : SameOutside s t := by
  obtain ⟨k, i, u, -, -, hu, rfl⟩ | ⟨k, -, -, rfl⟩ | ⟨x, k, key, -, -, -, rfl⟩ | ⟨-, rfl⟩ | ⟨-, rfl⟩ := clockTurn_cases h
  · obtain ⟨pc, c, hfinish⟩ := u.finishStep_frame
    rw [hfinish]
    have hsame : SameOutside s u := exec_sameOutside hu
    exact hsame
  · exact ⟨rfl, rfl, rfl, rfl, rfl, rfl⟩
  · exact ⟨rfl, rfl, rfl, rfl, rfl, rfl⟩
  · rw [State.endBlock, State.push_eq]
    exact ⟨rfl, rfl, rfl, rfl, rfl, rfl⟩
  · exact ⟨rfl, rfl, rfl, rfl, rfl, rfl⟩

/-- A turn in `RUN(k)` goes on to the next phase, starts a key wait, or is a fault with no other effect (R63, R68, R114). -/
theorem clockTurn_run_cases {k : Fin stepsPerFiring} (hk : s.clock = .run k) (h : clockTurn s = .next t) :
    t.clock = nextPhase k ∨ (∃ x, decode s.fetchWord = some (.ldVxK x) ∧ t.clock = .wait x k) ∨ ∃ code, t = s.faulted code := by
  rw [clockTurn_of_run hk] at h
  cases hd : decode s.fetchWord with
  | none =>
    rw [instructionStep_of_miss hd, State.finishStep_of_run hk] at h
    cases h
    exact .inl rfl
  | some i =>
    rw [instructionStep_of_decode hd] at h
    obtain ⟨u, hu, rfl⟩ := onNext_eq_next h
    obtain hkeep | ⟨code, rfl⟩ | ⟨x, j, rfl, hj, rfl⟩ := exec_phase hu
    · rw [State.finishStep_of_run (hkeep.trans hk)]
      exact .inl rfl
    · exact .inr (.inr ⟨code, rfl⟩)
    · cases hk.symm.trans hj
      exact .inr (.inl ⟨x, rfl, rfl⟩)

/-- In a phase with no enabled step the turn passes (log 7). -/
theorem clockTurn_of_not_enabled (h : s.clockEnabled = false) : clockTurn s = .next s := by
  cases hc : s.clock with
  | wait x k =>
    have hp : s.pressPending = false := by simpa only [State.clockEnabled, hc] using h
    simp [clockTurn, hc, hp]
  | run | blockEnd => simp [State.clockEnabled, hc] at h
  | faulted | stopped => simp only [clockTurn, hc]

/-- Every turn answers where a pending press has its key (R115). -/
theorem act_answers (m : Move) (h : s.pressHasKey = true) : ∃ t, act m s = .next t := by
  cases m with
  | clock =>
    show ∃ t, clockTurn s = .next t
    cases hc : s.clock with
    | run k =>
      rw [clockTurn_of_run hc]
      cases hd : decode s.fetchWord with
      | none => exact ⟨_, instructionStep_of_miss hd⟩
      | some i =>
        obtain ⟨u, hu⟩ := exec_answers (i := i) (.inl ⟨k, hc⟩)
        exact ⟨u.finishStep, by rw [instructionStep_of_decode hd, hu]; rfl⟩
    | wait x k =>
      cases hp : s.pressPending with
      | false => exact ⟨s, by simp [clockTurn, hc, hp]⟩
      | true =>
        obtain ⟨key, hkey⟩ : ∃ key, s.lastKey = some key := by
          simpa [State.pressHasKey, hp, Option.isSome_iff_exists] using h
        exact ⟨_, by simp only [clockTurn, hc, hp, State.completeWait, hkey]; rfl⟩
    | blockEnd => exact ⟨s.endBlock, by simp only [clockTurn, hc]⟩
    | faulted | stopped => exact ⟨s, by simp only [clockTurn, hc]⟩
  | tick | key | stop => exact ⟨_, rfl⟩

end

/-! ### The obligations -/

/-- Settles O52: each turn writes what its frame names. -/
theorem agentsKeepToTheirState : Obligations.AgentsKeepToTheirState := by
  refine ⟨fun s t h => ?_, fun s t k p h => ?_, fun s t h => ?_, fun s t h => clockTurn_sameOutside h⟩
  · obtain ⟨d, b, e, rfl⟩ := eq_of_tick h
    rfl
  · obtain ⟨keys, last, pending, rfl⟩ := eq_of_keyEvent h
    rfl
  · cases h
    rfl

/-- Settles O10: the phase after a turn, by the phase before it. -/
theorem clockPhaseTransitions : Obligations.ClockPhaseTransitions := by
  refine ⟨fun s t h => ?_, fun s t h => ?_, fun s t k p h => ?_, fun s t h => ?_⟩
  · replace h : clockTurn s = .next t := h
    cases hc : s.clock with
    | run k =>
      refine (clockTurn_run_cases hc h).imp_right (.imp_right ?_)
      rintro ⟨code, rfl⟩
      exact ⟨code, rfl⟩
    | wait x k =>
      rw [clockTurn, hc] at h
      show if s.pressPending then t.clock = nextPhase k else t = s
      split_ifs with hp
      · simp only [hp, if_true, State.completeWait] at h
        split at h <;> cases h
        rfl
      · simp only [hp] at h
        exact (Host.Outcome.next.inj h).symm
    | blockEnd =>
      rw [clockTurn, hc] at h
      cases h
      rfl
    | faulted | stopped =>
      rw [clockTurn, hc] at h
      exact (Host.Outcome.next.inj h).symm
  · obtain ⟨d, b, e, rfl⟩ := eq_of_tick h
    rfl
  · obtain ⟨keys, last, pending, rfl⟩ := eq_of_keyEvent h
    rfl
  · cases h
    exact s.stop_clock.elim (fun ⟨hf, hkeep⟩ => .inr ⟨hkeep, hf⟩) fun ⟨_, hstop⟩ => .inl hstop

/-- Settles O12: a handler raises a fault before it writes, and the turns after it write timers, trace and latch alone. -/
theorem faultHasNoEffectAndIsFinal : Obligations.FaultHasNoEffectAndIsFinal := by
  refine ⟨fun i s t k code p w hk h ht => ?_, fun m s t code p w hc h => ?_, fun s code p w hc htimer => ?_⟩
  · obtain ⟨-, rfl⟩ := eq_faulted_of_exec hk h ht
    cases ht
    exact ⟨rfl, rfl, rfl⟩
  · have hoff : s.clockEnabled = false := by simp only [State.clockEnabled, hc]
    refine ⟨hoff, ?_⟩
    cases m with
    | clock =>
      cases (clockTurn_of_not_enabled hoff).symm.trans h
      exact ⟨rfl, rfl, rfl, rfl, rfl, rfl, rfl, rfl, rfl⟩
    | tick =>
      obtain ⟨d, b, e, rfl⟩ := eq_of_tick h
      exact ⟨rfl, rfl, rfl, rfl, rfl, rfl, rfl, rfl, rfl⟩
    | key k pressed =>
      obtain ⟨keys, last, pending, rfl⟩ := eq_of_keyEvent h
      exact ⟨rfl, rfl, rfl, rfl, rfl, rfl, rfl, rfl, rfl⟩
    | stop =>
      cases h
      obtain ⟨-, hkeep⟩ | ⟨hnot, -⟩ := s.stop_clock
      · exact ⟨hkeep, rfl, rfl, rfl, rfl, rfl, rfl, rfl, rfl⟩
      · exact absurd hc (hnot code p w)
  · exact ⟨State.timerEnabled_iff.2 htimer, congrArg _ (timerTurn_of_running htimer), fun k pressed => ⟨rfl, rfl⟩⟩

/-- Settles O51: a stop writes the two phases, and where both clocks have ended no turn has anything left to do but the latch. -/
theorem stopEndsBothClocks : Obligations.StopEndsBothClocks := by
  refine ⟨fun s t h => ?_, fun s => ⟨rfl, s.stop, rfl⟩, fun m s t htimer hoff hwait h => ?_⟩
  · cases h
    refine ⟨rfl, congrArg Host.Outcome.next s.stop_stop, ?_⟩
    obtain ⟨⟨c, p, w, hf⟩, hkeep⟩ | hstop := s.stop_clock
    · exact .inl ⟨c, p, w, hf, hkeep⟩
    · exact .inr hstop
  · have hsame {u : State} (hu : u.clock = s.clock) : u.clockEnabled = false := by
      unfold State.clockEnabled at hoff ⊢
      rw [hu]
      cases hc : s.clock with
      | wait x k => exact absurd hc (hwait x k)
      | run | blockEnd => simp [hc] at hoff
      | faulted | stopped => rfl
    cases m with
    | clock =>
      cases (clockTurn_of_not_enabled hoff).symm.trans h
      exact ⟨rfl, htimer, rfl, hoff⟩
    | tick =>
      cases (congrArg Host.Outcome.next (timerTurn_of_stopped htimer)).symm.trans h
      exact ⟨rfl, htimer, rfl, hoff⟩
    | key k pressed =>
      obtain ⟨keys, last, pending, rfl⟩ := eq_of_keyEvent h
      exact ⟨rfl, htimer, rfl, hsame rfl⟩
    | stop =>
      cases h
      have hkeep : s.stop.clock = s.clock := by
        unfold State.stop
        cases hc : s.clock with
        | wait x k => exact absurd hc (hwait x k)
        | run | blockEnd => simp [State.clockEnabled, hc] at hoff
        | faulted | stopped => rfl
      exact ⟨rfl, rfl, hkeep, hsame hkeep⟩

/-- Settles O55: a turn at a push emits the frame or nothing, and any other turn at most one event that is no frame. -/
theorem traceGrowsByAtMostOneEvent : Obligations.TraceGrowsByAtMostOneEvent := by
  intro m s t h
  by_cases hpush : m = .clock ∧ s.AtPush
  · obtain ⟨rfl, hat⟩ := hpush
    obtain ⟨u, hu, htrace, -⟩ := act_clock_of_atPush hat
    cases hu.symm.trans h
    rw [htrace, State.push_eq]
    by_cases hdirty : s.dirty = true
    · exact ⟨[.present s.fb], if_pos hdirty, le_rfl⟩
    · exact ⟨[], (if_neg hdirty).trans (List.append_nil _).symm, Nat.zero_le 1⟩
  · obtain ⟨e, htrace, -⟩ := act_emitsNoFrame h hpush
    exact ⟨e.toList, htrace, by cases e <;> simp⟩

/-- With no turn to come, none is scheduled and no clock is enabled. -/
theorem State.of_nextMove_eq_none {s : State} (h : s.nextMove = none) :
    s.schedule = [] ∧ s.clockEnabled = false ∧ s.timerEnabled = false := by
  have hturns : s.turns = [] := List.head?_eq_none_iff.1 h
  cases hl : s.schedule with
  | cons m l => rw [State.turns_of_cons hl] at hturns; cases hturns
  | nil =>
    have hoff : ¬ (s.clockEnabled = true ∨ s.timerEnabled = true) := fun hon => by
      have hmem := s.mem_fairRound (.inl rfl)
      rw [← State.turns_of_nil hl hon, hturns] at hmem
      cases hmem
    simpa using hoff

/-- Settles O58: a turn to come answers, since a pending press has its key. -/
theorem stepStopsOnlyWithNoAgentEnabled : Obligations.StepStopsOnlyWithNoAgentEnabled := by
  intro s hinv
  have hpress : s.pressHasKey = true := by simp_all [State.inv]
  cases hm : s.nextMove with
  | none => exact .inr ⟨by simp only [step, hm], State.of_nextMove_eq_none hm⟩
  | some m =>
    obtain ⟨t, ht⟩ := act_answers (s := s.popTurn) m hpress
    exact .inl ⟨t, (step_eq_act hm).trans ht⟩

end Sys2Proof.Machine
end

section
/-! The invariant: it holds after reset, and every step keeps it (10_state.md R26, R29; 40_step.md R68; 60_exceptions.md R121;
45_input_timers.md R115). What it says of the data and what it says of the two phases are kept apart, since a turn's advance
changes the phase and no data. -/

namespace Sys2Proof.Machine

/-! ### The two halves of the invariant -/

theorem all_isSome_iff {α : Type} {n : Nat} (cells : Vector (Option α) n) :
    cells.toList.all Option.isSome = true ↔ ∀ r : Fin n, cells.get r ≠ none := by
  rw [List.all_eq_true]
  simp only [Vector.mem_toList_iff, Vector.mem_iff_getElem, Option.isSome_iff_ne_none, Vector.get_eq_getElem]
  exact ⟨fun h r => h _ ⟨r.val, r.isLt, rfl⟩, fun h a ⟨j, hj, ha⟩ => ha ▸ h ⟨j, hj⟩⟩

/-- Every `V` register, `I` and every stack entry holds a value (R26). -/
structure State.CellsSet (s : State) : Prop where
  v : ∀ r, s.readV r ≠ none
  ireg : s.ireg ≠ none
  stack : ∀ j, s.readStack j ≠ none

theorem State.allSet_iff {s : State} : s.allSet = true ↔ s.CellsSet := by
  simp only [State.allSet, Bool.and_eq_true, all_isSome_iff, Option.isSome_iff_ne_none]
  exact ⟨fun ⟨⟨hv, hi⟩, hstack⟩ => ⟨hv, hi, hstack⟩, fun ⟨hv, hi, hstack⟩ => ⟨⟨hv, hi⟩, hstack⟩⟩

/-- What the invariant says of memory, the registers, `SP` and the latch. -/
structure State.DataInv (s : State) : Prop where
  mem : Memory.wf s.mem = true
  cells : s.config.resetPolicy = .zero → s.CellsSet
  sp : s.spLegal = true
  press : s.pressHasKey = true

/-- What the invariant says of the phases of the two clocks. -/
structure State.PhaseInv (s : State) : Prop where
  together : s.stopTogether = true
  reported : s.faultReported = true

theorem State.inv_iff {s : State} : s.inv = true ↔ s.DataInv ∧ s.PhaseInv := by
  have hcells : s.policyKept = true ↔ (s.config.resetPolicy = .zero → s.CellsSet) := by
    unfold State.policyKept
    cases s.config.resetPolicy <;> simp [State.allSet_iff]
  simp only [State.inv, Bool.and_eq_true, hcells]
  constructor
  · rintro ⟨⟨⟨⟨⟨hmem, hset⟩, hsp⟩, hpress⟩, htogether⟩, hreported⟩
    exact ⟨⟨hmem, hset, hsp, hpress⟩, ⟨htogether, hreported⟩⟩
  · rintro ⟨⟨hmem, hset, hsp, hpress⟩, ⟨htogether, hreported⟩⟩
    exact ⟨⟨⟨⟨⟨hmem, hset⟩, hsp⟩, hpress⟩, htogether⟩, hreported⟩

theorem State.pressHasKey_iff {s : State} : s.pressHasKey = true ↔ (s.pressPending = true → s.lastKey ≠ none) := by
  unfold State.pressHasKey
  cases s.pressPending <;> simp [Option.isSome_iff_ne_none]

theorem State.spLegal_iff {s : State} : s.spLegal = true ↔ s.sp.toNat < 16 ∨ s.sp.toNat = 255 := by
  have h255 : s.sp = 255 ↔ s.sp.toNat = 255 := (BitVec.toNat_inj (y := 255)).symm
  simp only [State.spLegal, Bool.or_eq_true, decide_eq_true_eq, beq_iff_eq, h255]

/-! ### Writes keep the cells set -/

section
variable {i : Instr} {s t : State}

theorem State.CellsSet.writeV (h : s.CellsSet) (x : RegIx) (b : Byte) : (s.writeV x b).CellsSet := by
  refine ⟨fun r => ?_, h.ireg, h.stack⟩
  rw [State.readV_writeV]
  split
  · exact Option.some_ne_none b
  · exact h.v r

theorem State.CellsSet.writeStack (h : s.CellsSet) (j : Fin 16) (w : Word) : (s.writeStack j w).CellsSet := by
  refine ⟨h.v, h.ireg, fun r => ?_⟩
  by_cases hr : r = j
  · subst hr
    exact (s.readStack_writeStack_self r w).trans_ne (Option.some_ne_none w)
  · rw [State.readStack_writeStack_of_ne s j r w hr]
    exact h.stack r

theorem State.CellsSet.loadBlock (h : s.CellsSet) (x : RegIx) (a : Nat) :
    { s with v := (s.loadVs a (regsUpTo x)).v : State }.CellsSet := by
  refine ⟨fun r => ?_, h.ireg, h.stack⟩
  show (s.loadVs a (regsUpTo x)).readV r ≠ none
  rw [State.readV_loadVs_regsUpTo]
  split
  · exact Option.some_ne_none _
  · exact h.v r

/-- An effect leaves no cell unset. -/
theorem Effect.cellsSet (heff : Effect s i t) (h : s.CellsSet) : t.CellsSet := by
  cases heff with
  | call nnn hj => exact ⟨h.v, h.ireg, (h.writeStack _ s.pc).stack⟩
  | writeV hx b => exact h.writeV _ b
  | writeFlagged hf hx f b => exact (h.writeV vf f).writeV _ b
  | drawRandom x kk b => exact ⟨(h.writeV x b).v, h.ireg, h.stack⟩
  | loadBlock x a => exact h.loadBlock x a
  | writeI hi w => exact ⟨h.v, Option.some_ne_none w, h.stack⟩
  | draw x y n g d f => exact ⟨(h.writeV vf f).v, h.ireg, h.stack⟩
  | _ => exact ⟨h.v, h.ireg, h.stack⟩

/-! ### Turns keep the data half -/

/-- `SP` stays in 0..15 and 255: `RET` takes 1 from an index below 16, and `CALL` leaves one below 16 (R75, R77). -/
theorem Effect.spLegal (heff : Effect s i t) (h : s.spLegal = true) : t.spLegal = true := by
  cases heff with
  | ret hj ht =>
    have hsp : s.sp.toNat < 16 := (index16_eq_some.1 hj).trans_lt (Fin.isLt _)
    have hsub : (s.sp - 1).toNat = (255 + s.sp.toNat) % 256 := BitVec.toNat_sub s.sp 1
    have hlegal : (s.sp - 1).toNat < 16 ∨ (s.sp - 1).toNat = 255 := by omega
    exact State.spLegal_iff.2 hlegal
  | call nnn hj =>
    have hsp : (s.sp + 1).toNat < 16 := (index16_eq_some.1 hj).trans_lt (Fin.isLt _)
    exact State.spLegal_iff.2 (.inl hsp)
  | _ => exact h

theorem Effect.mem_wf (heff : Effect s i t) (h : Memory.wf s.mem = true) : Memory.wf t.mem = true := by
  cases heff with
  | store hi a bs => exact Memory.wf_writeRange bs s.mem a h
  | _ => exact h

/-- The start of a key wait can only clear `PRESS_PENDING` (R114). -/
theorem State.pressPending_of_startWait (h : s.startWait.pressPending = true) : s.pressPending = true := by
  rw [State.startWait_eq] at h
  by_contra hp
  simp [hp] at h

theorem Effect.pressHasKey (heff : Effect s i t) (h : s.pressHasKey = true) : t.pressHasKey = true := by
  cases heff with
  | startWait x hk =>
    have hkey := State.pressHasKey_iff.1 h
    exact State.pressHasKey_iff.2 fun hp => hkey (State.pressPending_of_startWait (s := s) hp)
  | _ => exact h

theorem Effect.dataInv (heff : Effect s i t) (h : s.DataInv) : t.DataInv := by
  obtain ⟨-, -, -, hconfig, -, -⟩ := heff.sameOutside
  exact ⟨heff.mem_wf h.mem, fun hz => heff.cellsSet (h.cells (hconfig ▸ hz)), heff.spLegal h.sp, heff.pressHasKey h.press⟩

theorem exec_dataInv (he : exec i s = .next t) (h : s.DataInv) : t.DataInv := by
  obtain ⟨code, -, rfl⟩ | ⟨-, heff⟩ := exec_eq_next he
  · exact ⟨h.mem, fun hz => ⟨(h.cells hz).v, (h.cells hz).ireg, (h.cells hz).stack⟩, h.sp, h.press⟩
  · exact heff.dataInv h

/-- The data half of the invariant says nothing of `PC`, the timers, the screen, the phases, the trace or the keys. -/
theorem State.DataInv.congr (h : s.DataInv) (hmem : t.mem = s.mem) (hv : t.v = s.v) (hireg : t.ireg = s.ireg)
    (hstack : t.stack = s.stack) (hconfig : t.config = s.config) (hsp : t.sp = s.sp)
    (hpress : t.pressHasKey = true) : t.DataInv := by
  refine ⟨hmem ▸ h.mem, fun hz => ?_, ?_, hpress⟩
  · have hset := h.cells (hconfig ▸ hz)
    exact ⟨fun r => State.readV_congr hv r ▸ hset.v r, hireg ▸ hset.ireg,
      fun j => by simpa only [State.readStack, hstack] using hset.stack j⟩
  · simpa only [State.spLegal, hsp] using h.sp

theorem clockTurn_dataInv (ht : clockTurn s = .next t) (h : s.DataInv) : t.DataInv := by
  obtain ⟨k, i, u, -, -, hu, rfl⟩ | ⟨k, -, -, rfl⟩ | ⟨x, k, key, -, -, -, rfl⟩ | ⟨-, rfl⟩ | ⟨-, rfl⟩ := clockTurn_cases ht
  · obtain ⟨pc, c, hfinish⟩ := u.finishStep_frame
    have hu := exec_dataInv hu h
    rw [hfinish]
    exact hu.congr rfl rfl rfl rfl rfl rfl hu.press
  · exact h.congr rfl rfl rfl rfl rfl rfl h.press
  · have hset (hz : s.config.resetPolicy = .zero) := (h.cells hz).writeV x (BitVec.ofNat 8 key.val)
    exact ⟨h.mem, fun hz => ⟨(hset hz).v, (hset hz).ireg, (hset hz).stack⟩, h.sp, rfl⟩
  · rw [State.endBlock, State.push_eq]
    exact h.congr rfl rfl rfl rfl rfl rfl h.press
  · exact h

theorem act_dataInv {m : Move} (ht : act m s = .next t) (h : s.DataInv) : t.DataInv := by
  cases m with
  | clock => exact clockTurn_dataInv ht h
  | tick =>
    obtain ⟨d, b, e, rfl⟩ := eq_of_tick ht
    exact h.congr rfl rfl rfl rfl rfl rfl h.press
  | key k pressed =>
    cases ht
    cases pressed with
    | false => exact h.congr rfl rfl rfl rfl rfl rfl h.press
    | true => exact h.congr rfl rfl rfl rfl rfl rfl rfl
  | stop =>
    cases ht
    exact h.congr rfl rfl rfl rfl rfl rfl h.press

/-! ### Turns keep the half about the phases -/

/-- A phase in which the instruction clock has not ended. -/
def ClockPhase.Live (p : ClockPhase) : Prop := p ≠ .stopped ∧ ∀ code pc word, p ≠ .faulted code pc word

theorem ClockPhase.live_nextPhase (k : Fin stepsPerFiring) : (nextPhase k).Live := by
  unfold nextPhase
  split <;> exact ⟨nofun, nofun⟩

/-- With the instruction clock live, the invariant asks that the timer clock runs (R29). -/
theorem State.phaseInv_iff_of_live (h : s.clock.Live) : s.PhaseInv ↔ s.timer = .running := by
  cases hc : s.clock with
  | stopped => exact absurd hc h.1
  | faulted code pc word => exact absurd hc (h.2 code pc word)
  | run | wait | blockEnd =>
    have hreported : s.faultReported = true := by simp only [State.faultReported, hc]
    have htogether : s.stopTogether = true ↔ s.timer = .running := by
      cases ht : s.timer <;> simp [State.stopTogether, ht, hc]
    exact ⟨fun hinv => htogether.1 hinv.together, fun hrun => ⟨htogether.2 hrun, hreported⟩⟩

/-- A fault taken with the timer clock running has reported itself at its own word (R68). -/
theorem State.phaseInv_faulted (code : FaultCode) (h : s.timer = .running) : (s.faulted code).PhaseInv := by
  refine ⟨?_, ?_⟩
  · simp only [State.stopTogether, State.faulted_timer, h, State.faulted_clock]
  · simp [State.faultReported]

/-- Where phases and `PC` are kept and the trace grows, the half about the phases is kept. -/
theorem State.PhaseInv.congr (h : s.PhaseInv) (hclock : t.clock = s.clock) (htimer : t.timer = s.timer) (hpc : t.pc = s.pc)
    {l : List Event} (htrace : t.trace = s.trace ++ l) : t.PhaseInv := by
  refine ⟨?_, ?_⟩
  · simpa only [State.stopTogether, hclock, htimer] using h.together
  · have hreported := h.reported
    unfold State.faultReported at hreported ⊢
    rw [hclock]
    cases hc : s.clock with
    | faulted code pc word =>
      simp only [hc, Bool.and_eq_true, List.contains_iff_mem, beq_iff_eq] at hreported ⊢
      exact ⟨htrace ▸ List.mem_append_left l hreported.1, hpc ▸ hreported.2⟩
    | run | wait | blockEnd | stopped => rfl

theorem clockTurn_phaseInv (ht : clockTurn s = .next t) (h : s.PhaseInv) : t.PhaseInv := by
  obtain ⟨-, -, htimer, -, -, -⟩ := clockTurn_sameOutside ht
  cases hc : s.clock with
  | run k =>
    have hrun : s.timer = .running := (State.phaseInv_iff_of_live (hc ▸ ⟨nofun, nofun⟩)).1 h
    obtain hnext | ⟨x, -, hwait⟩ | ⟨code, rfl⟩ := clockTurn_run_cases hc ht
    · exact (State.phaseInv_iff_of_live (hnext ▸ ClockPhase.live_nextPhase k)).2 (htimer.trans hrun)
    · exact (State.phaseInv_iff_of_live (hwait ▸ ⟨nofun, nofun⟩)).2 (htimer.trans hrun)
    · exact State.phaseInv_faulted code hrun
  | wait x k =>
    have hrun : s.timer = .running := (State.phaseInv_iff_of_live (hc ▸ ⟨nofun, nofun⟩)).1 h
    have hphase := clockPhaseTransitions.1 s t ht
    simp only [hc] at hphase
    split_ifs at hphase with hp
    · exact (State.phaseInv_iff_of_live (hphase ▸ ClockPhase.live_nextPhase k)).2 (htimer.trans hrun)
    · exact hphase ▸ h
  | blockEnd =>
    have hrun : s.timer = .running := (State.phaseInv_iff_of_live (hc ▸ ⟨nofun, nofun⟩)).1 h
    have hphase := clockPhaseTransitions.1 s t ht
    simp only [hc] at hphase
    exact (State.phaseInv_iff_of_live (hphase ▸ ⟨nofun, nofun⟩)).2 (htimer.trans hrun)
  | faulted | stopped =>
    have hoff : s.clockEnabled = false := by simp only [State.clockEnabled, hc]
    cases (clockTurn_of_not_enabled hoff).symm.trans ht
    exact h

/-- A stop ends both clocks, or the timer clock beside a reported fault (R136). -/
theorem State.PhaseInv.stop (h : s.PhaseInv) : s.stop.PhaseInv := by
  have hreported := h.reported
  unfold State.faultReported at hreported
  cases hc : s.clock with
  | faulted code pc word =>
    refine ⟨by simp [State.stopTogether, State.stop, ClockPhase.afterStop, hc], ?_⟩
    simpa [State.faultReported, State.stop, ClockPhase.afterStop, hc] using hreported
  | run | wait | blockEnd | stopped =>
    exact ⟨by simp [State.stopTogether, State.stop, ClockPhase.afterStop, hc],
      by simp [State.faultReported, State.stop, ClockPhase.afterStop, hc]⟩

theorem act_phaseInv {m : Move} (ht : act m s = .next t) (h : s.PhaseInv) : t.PhaseInv := by
  cases m with
  | clock => exact clockTurn_phaseInv ht h
  | tick =>
    obtain ⟨d, b, e, rfl⟩ := eq_of_tick ht
    exact h.congr rfl rfl rfl rfl
  | key k pressed =>
    obtain ⟨keys, last, pending, rfl⟩ := eq_of_keyEvent ht
    exact h.congr rfl rfl rfl (List.append_nil _).symm
  | stop =>
    cases ht
    exact h.stop

end

/-! ### The obligations -/

/-- Settles O57: a step is one agent's turn, and a turn of each agent keeps both halves of the invariant. -/
theorem everyStepKeepsTheInvariant : Obligations.EveryStepKeepsTheInvariant := by
  intro s t hinv hstep
  obtain ⟨m, -, hact⟩ := step_eq_next hstep
  have hpop : s.popTurn.inv = true := hinv
  obtain ⟨hdata, hphase⟩ := State.inv_iff.1 hpop
  exact State.inv_iff.2 ⟨act_dataInv hact hdata, act_phaseInv hact hphase⟩

/-- Under `ZERO` reset leaves every cell at 0 (R26, R32). -/
theorem State.cellsSet_boot {c : Config} (rom : List Byte) (hz : c.resetPolicy = .zero) : (State.boot c rom).CellsSet := by
  refine ⟨fun r => ?_, ?_, fun j => ?_⟩
  · simp [State.boot, State.blank, State.readV, hz, resetCell, Vector.get_eq_getElem]
  · simp [State.boot, State.blank, hz, resetCell]
  · simp [State.boot, State.blank, State.readStack, hz, resetCell, Vector.get_eq_getElem]

theorem State.inv_boot (c : Config) (rom : List Byte) : (State.boot c rom).inv = true :=
  State.inv_iff.2 ⟨⟨Memory.wf_load _ rom rfl, State.cellsSet_boot rom, rfl, rfl⟩, ⟨rfl, rfl⟩⟩

/-- Settles O56: the load keeps memory canonical, and reset is the start with an empty ROM. -/
theorem invariantHoldsAtReset : Obligations.InvariantHoldsAtReset :=
  ⟨State.inv_boot Config.standard [], State.inv_boot⟩

/-- Settles O37: the table of R32, with the ROM's bytes read as the load left them. -/
theorem resetLeavesTheTable : Obligations.ResetLeavesTheTable := by
  intro c rom
  have hcell {n : Nat} : (resetCell c.resetPolicy : Option (BitVec n)) = if c.resetPolicy = .unset then none else some 0 := by
    cases c.resetPolicy <;> rfl
  refine ⟨fun r => ?_, hcell, rfl, rfl, fun j => ?_, rfl, rfl, State.memRead_boot c rom, Grid.cell_unlit, rfl, fun k => ?_, rfl,
    rfl, rfl, rfl, rfl, rfl, rfl⟩
  · rw [← hcell]
    simp [State.boot, State.blank, State.readV, Vector.get_eq_getElem]
  · rw [← hcell]
    simp [State.boot, State.blank, State.readStack, Vector.get_eq_getElem]
  · simp [State.boot, State.blank, State.readKey, Vector.get_eq_getElem]

end Sys2Proof.Machine
end

section
/-! `SYS`, `CALL` and `RET` (41_flow.md R74, R75, R77), a `CALL` and its `RET` together, and the jump to itself that ends a run
(60_exceptions.md R140). -/

namespace Sys2Proof.Machine

section
variable {s t : State}

/-! ### The handlers -/

theorem exec_call_of_index {j : Fin 16} (nnn : Addr12) (hj : index16 (s.sp + 1) = some j) :
    exec (.call nnn) s = .next (jumpTo (zext16 nnn) ((s.setSp (s.sp + 1)).writeStack j s.pc)) := by
  show execCall nnn s = _
  rw [execCall, hj]

theorem exec_call_of_no_index (nnn : Addr12) (h : index16 (s.sp + 1) = none) :
    exec (.call nnn) s = raiseFault .stackIndex s := by
  show execCall nnn s = _
  rw [execCall, h]

theorem exec_ret_of_index {j : Fin 16} (hj : index16 s.sp = some j) :
    exec .ret s = needSet (s.readStack j) s fun t => .next ((s.setPc t).setSp (s.sp - 1)) := by
  show execRet s = _
  rw [execRet, hj]

theorem exec_ret_of_no_index (h : index16 s.sp = none) : exec .ret s = raiseFault .stackIndex s := by
  show execRet s = _
  rw [execRet, h]

/-- Settles O14: the handler of `SYS` answers the state it is given. -/
theorem sysDoesNothing : Obligations.SysDoesNothing := fun _ _ hcls hret =>
  completes_of_exec (decode_sys hcls hret) rfl rfl

/-- Settles O16: the index of the entry is the incremented `SP`, mod 256. -/
theorem callPushesItsAddress : Obligations.CallPushesItsAddress := by
  refine ⟨fun s nnn h => ?_, fun s nnn h => ?_⟩
  · have hj : index16 (s.sp + 1) = some ⟨_, h⟩ := index16_eq_some.2 (toNat_sp_add_one s.sp)
    exact completes_of_exec (decode_call nnn) (exec_call_of_index nnn hj) rfl
  · have hj : index16 (s.sp + 1) = none := index16_eq_none.2 (h.trans_eq (toNat_sp_add_one s.sp).symm)
    exact raises_of_exec (decode_call nnn) (exec_call_of_no_index nnn hj)

/-- Settles O17: the index is checked first, and the entry is read only below 16. -/
theorem retPopsTheAddress : Obligations.RetPopsTheAddress := by
  have hindex (s : State) (h : s.sp.toNat < 16) : index16 s.sp = some ⟨_, h⟩ := index16_eq_some.2 rfl
  refine ⟨fun s h t ht => ?_, fun s h ht => ?_, fun s h => ?_⟩
  · exact completes_of_exec decode_ret ((exec_ret_of_index (hindex s h)).trans (needSet_of_eq_some ht s _)) rfl
  · exact raises_of_exec decode_ret ((exec_ret_of_index (hindex s h)).trans (needSet_of_eq_none ht s _))
  · exact raises_of_exec decode_ret (exec_ret_of_no_index (index16_eq_none.2 h))

/-! ### A `CALL` and its `RET` -/

/-- In `RUN(k)`, a turn of the instruction clock whose handler keeps the phase ends with the advance (R63). -/
theorem clockTurn_of_exec {k : Fin stepsPerFiring} {i : Instr} (hk : s.clock = .run k) (hd : decode s.fetchWord = some i)
    (he : exec i s = .next t) (hc : t.clock = s.clock) : clockTurn s = .next (t.advance k) := by
  rw [clockTurn_of_run hk, instructionStep_of_decode hd, he, ← State.finishStep_of_run (hc.trans hk)]
  rfl

theorem clockTurn_of_blockEnd (h : s.clock = .blockEnd) : clockTurn s = .next s.endBlock := by rw [clockTurn, h]

theorem nextPhase_of_lt {k : Fin stepsPerFiring} (h : k.val < 9) : nextPhase k = .run ⟨k.val + 1, Nat.succ_lt_succ h⟩ :=
  dif_pos (Nat.succ_lt_succ h)

theorem nextPhase_of_eq_nine {k : Fin stepsPerFiring} (h : k.val = 9) : nextPhase k = .blockEnd :=
  dif_neg (by simp [h])

/-- `t` stands where a `CALL nnn` in `s` has led: at `nnn`, with the address of the `CALL` in entry `j`, which is the one at
`SP`, and with nothing else of `V`, `I` and memory changed (R77). -/
structure AtCallee (s : State) (nnn : Addr12) (j : Fin 16) (t : State) : Prop where
  pc : t.pc = nnn.setWidth 16
  sp : t.sp = s.sp + 1
  index : index16 t.sp = some j
  entry : t.readStack j = some s.pc
  v : t.v = s.v
  ireg : t.ireg = s.ireg
  mem : t.mem = s.mem

theorem atCallee_call {j : Fin 16} (nnn : Addr12) (k : Fin stepsPerFiring) (hj : index16 (s.sp + 1) = some j) :
    AtCallee s nnn j ((jumpTo (zext16 nnn) ((s.setSp (s.sp + 1)).writeStack j s.pc)).advance k) where
  pc := BitVec.sub_add_cancel (zext16 nnn) 2
  sp := rfl
  index := hj
  entry := (s.setSp (s.sp + 1)).readStack_writeStack_self j s.pc
  v := rfl
  ireg := rfl
  mem := rfl

section
variable {nnn : Addr12} {j : Fin 16}

/-- The block end between a `CALL` and its `RET` leaves all of this as it is (R67). -/
theorem AtCallee.endBlock (h : AtCallee s nnn j t) : AtCallee s nnn j t.endBlock := by
  have hb : t.endBlock = { t with dirty := false, clock := .run 0, trace := t.push.trace } := by
    rw [State.endBlock, State.push_eq]
    rfl
  rw [hb]
  exact ⟨h.pc, h.sp, h.index, h.entry, h.v, h.ireg, h.mem⟩

/-- With a `RET` at `nnn`, the turn resumes after the `CALL` (R75). -/
theorem AtCallee.clockTurn_ret {k : Fin stepsPerFiring} (h : AtCallee s nnn j t) (hk : t.clock = .run k)
    (hhi : s.memRead nnn.toNat = 0x00#8) (hlo : s.memRead (nnn.toNat + 1) = 0xEE#8) : ∃ u, clockTurn t = .next u ∧
    u.pc = s.pc + 2 ∧ u.sp = s.sp ∧ u.v = s.v ∧ u.ireg = s.ireg ∧ u.mem = s.mem := by
  have hpc : t.pc.toNat = nnn.toNat := by rw [h.pc, BitVec.toNat_setWidth_of_le (by decide)]
  have hd : decode t.fetchWord = some .ret := by
    rw [State.fetchWord, hpc, State.memRead_congr h.mem, State.memRead_congr h.mem, hhi, hlo]
    exact decode_ret
  have hsp : t.sp - 1 = s.sp := by rw [h.sp, BitVec.add_sub_cancel]
  exact ⟨_, clockTurn_of_exec hk hd ((exec_ret_of_index h.index).trans (needSet_of_eq_some h.entry t _)) rfl, rfl, hsp, h.v,
    h.ireg, h.mem⟩

end

/-- Settles O20: the entry that `CALL` writes is the one that `RET` reads, and the block end between them touches neither. -/
theorem callThenRetResumesAfterTheCall : Obligations.CallThenRetResumesAfterTheCall := by
  intro s k nnn hk hword hsp hhi hlo
  have hj : index16 (s.sp + 1) = some ⟨_, hsp⟩ := index16_eq_some.2 (toNat_sp_add_one s.sp)
  have hcall := clockTurn_of_exec hk (hword ▸ decode_call nnn) (exec_call_of_index nnn hj) rfl
  have hat := atCallee_call nnn k hj
  generalize ht : (jumpTo (zext16 nnn) ((s.setSp (s.sp + 1)).writeStack ⟨_, hsp⟩ s.pc)).advance k = t at hcall hat
  have hclock : t.clock = nextPhase k := by rw [← ht]; rfl
  obtain hlt | hnine : k.val < 9 ∨ k.val = 9 := (Nat.le_of_lt_succ k.isLt).lt_or_eq
  · obtain ⟨u, hret, hu⟩ := hat.clockTurn_ret (hclock.trans (nextPhase_of_lt hlt)) hhi hlo
    exact ⟨t, u, hcall, hat.pc, fun _ => hret, fun h => absurd h hlt.ne, hu⟩
  · have hend : t.clock = .blockEnd := hclock.trans (nextPhase_of_eq_nine hnine)
    obtain ⟨u, hret, hu⟩ := hat.endBlock.clockTurn_ret (k := 0) rfl hhi hlo
    exact ⟨t, u, hcall, hat.pc, fun h => absurd hnine h.ne, fun _ => ⟨_, hend, clockTurn_of_blockEnd hend, hret⟩, hu⟩

/-! ### The end of a run -/

theorem State.ended_iff : s.ended = true ↔
    (∃ k, s.clock = .run k) ∧ s.pc.toNat < memSize ∧ s.fetchWord = 0x1000 + s.pc := by
  unfold State.ended
  cases s.clock <;> simp

/-- The word of the jump to an address below 0x1000 (R140). -/
theorem jumpWord_eq_append {pc : Word} (h : pc.toNat < memSize) : 0x1000 + pc = 0x1#4 ++ pc.setWidth 12 := by
  have hlt : pc.toNat < 4096 := h
  apply BitVec.eq_of_toNat_eq
  have hadd : (0x1000 + pc).toNat = (4096 + pc.toNat) % 65536 := BitVec.toNat_add _ pc
  rw [toNat_append_add, hadd, BitVec.toNat_setWidth, BitVec.toNat_ofNat]
  omega

theorem setWidth_setWidth_of_lt {pc : Word} (h : pc.toNat < memSize) : (pc.setWidth 12).setWidth 16 = pc := by
  have hlt : pc.toNat < 4096 := h
  apply BitVec.eq_of_toNat_eq
  rw [BitVec.toNat_setWidth, BitVec.toNat_setWidth]
  omega

/-- At the end of a run the turn of the instruction clock jumps to where it stands. -/
theorem clockTurn_of_ended {k : Fin stepsPerFiring} (h : s.ended = true) (hk : s.clock = .run k) :
    clockTurn s = .next { s with clock := nextPhase k } := by
  obtain ⟨-, hlt, hword⟩ := State.ended_iff.1 h
  have hd : decode s.fetchWord = some (.jp (s.pc.setWidth 12)) := by
    rw [hword, jumpWord_eq_append hlt]
    exact decode_jp _
  have hpc : biased (zext16 (s.pc.setWidth 12)) + 2 = s.pc :=
    (BitVec.sub_add_cancel _ _).trans (setWidth_setWidth_of_lt hlt)
  rw [clockTurn_of_exec hk hd rfl rfl, State.advance, jumpTo, State.setPc_pc, hpc]
  rfl

/-- Settles O60: the jump is to its own word, and the block end writes neither memory nor `PC`. -/
theorem endedRunsStayEnded : Obligations.EndedRunsStayEnded := by
  intro s k h hk
  have hended : ∀ {t : State} {j}, t.clock = .run j → t.mem = s.mem → t.pc = s.pc → t.ended = true := by
    intro t j hj hmem hpc
    obtain ⟨-, hlt, hword⟩ := State.ended_iff.1 h
    exact State.ended_iff.2 ⟨⟨j, hj⟩, hpc ▸ hlt, by rw [State.fetchWord_congr hmem hpc, hpc, hword]⟩
  refine ⟨clockTurn_of_ended h hk, fun j => hended rfl rfl rfl, _,
    clockTurn_of_blockEnd (s := { s with clock := .blockEnd }) rfl, ?_, ?_⟩
  · rw [State.endBlock, State.push_eq]
    exact hended rfl rfl rfl
  · rw [State.endBlock, State.push_eq]
    rfl

end

end Sys2Proof.Machine
end

section
/-! `SUB`, `SUBN`, the shifts and `RND` (42_alu.md R84, R92 to R96). -/

namespace Sys2Proof.Machine

/-! ### The flags and the operands of the result -/

/-- No borrow as the byte written to `VF` (R83, R92). -/
theorem flagByte_noBorrow (a b : Byte) : flagByte (noBorrow a b) = if a.toNat ≥ b.toNat then 1 else 0 := by
  simp only [flagByte, noBorrow, decide_eq_true_eq, ge_iff_le]

/-- The lowest bit of a byte as the byte written to `VF`. -/
theorem flagByte_getLsbD_zero (a : Byte) : flagByte (a.getLsbD 0) = a &&& 1 := by
  have hand : a &&& 1 = BitVec.setWidth 8 (BitVec.ofBool (a.getLsbD 0)) := BitVec.and_one_eq_setWidth_ofBool_getLsbD
  rw [hand]
  cases a.getLsbD 0 <;> rfl

theorem flagByte_shiftedOutRight (a : Byte) : flagByte (shiftedOutRight a) = a &&& 1 := flagByte_getLsbD_zero a

/-- Bit 7 of a byte is the lowest bit of the byte moved right by 7 (R95). -/
theorem flagByte_shiftedOutLeft (a : Byte) : flagByte (shiftedOutLeft a) = (a >>> 7) &&& 1 := by
  have hbit : (a >>> 7).getLsbD 0 = a.getLsbD 7 := BitVec.getLsbD_ushiftRight a 7 0
  rw [← flagByte_getLsbD_zero, hbit]
  rfl

section
variable {s : State} {x y : RegIx} {a b f : Byte}

/-- Under `SEQUENTIAL` an operand in `VF` is read again after the flag is written, so it is the flag (R84, D4). -/
theorem resultOperand_of_sequential (f : Byte) (hc : s.config.aluVfRead = .sequential) (ha : s.readV x = some a) :
    (s.writeV vf f).resultOperand x a = if x = 15 then f else a := by
  rw [State.resultOperand, State.writeV_config, hc]
  show ((s.writeV vf f).readV x).getD a = _
  rw [State.readV_writeV, ha, apply_ite (Option.getD · a)]
  rfl

/-- Under `LATCHED` an operand is the value read before any write (R84, D4). -/
theorem resultOperand_of_latched (x : RegIx) (a f : Byte) (hc : s.config.aluVfRead = .latched) :
    (s.writeV vf f).resultOperand x a = a := by
  rw [State.resultOperand, State.writeV_config, hc]

/-! ### The handlers on set operands -/

theorem flaggedBinary_of_sequential (flag : Byte → Byte → Bool) (op : Byte → Byte → Byte) (ha : s.readV x = some a)
    (hb : s.readV y = some b) (hf : f = flagByte (flag a b)) (hc : s.config.aluVfRead = .sequential) :
    flaggedBinary flag op x y s =
      .next ((s.writeV vf f).writeV x (op (if x = 15 then f else a) (if y = 15 then f else b))) := by
  rw [← resultOperand_of_sequential f hc ha, ← resultOperand_of_sequential f hc hb, hf]
  exact (needSet_of_eq_some ha s _).trans (needSet_of_eq_some hb s _)

theorem flaggedBinary_of_latched (flag : Byte → Byte → Bool) (op : Byte → Byte → Byte) (ha : s.readV x = some a)
    (hb : s.readV y = some b) (hf : f = flagByte (flag a b)) (hc : s.config.aluVfRead = .latched) :
    flaggedBinary flag op x y s = .next ((s.writeV vf f).writeV x (op a b)) := by
  have hresult : (s.writeV vf f).writeV x (op a b) =
      (s.writeV vf f).writeV x (op ((s.writeV vf f).resultOperand x a) ((s.writeV vf f).resultOperand y b)) := by
    rw [resultOperand_of_latched x a f hc, resultOperand_of_latched y b f hc]
  rw [hresult, hf]
  exact (needSet_of_eq_some ha s _).trans (needSet_of_eq_some hb s _)

theorem flaggedUnary_of_sequential (flag : Byte → Bool) (op : Byte → Byte) (ha : s.readV x = some a)
    (hf : f = flagByte (flag a)) (hc : s.config.aluVfRead = .sequential) :
    flaggedUnary flag op x s = .next ((s.writeV vf f).writeV x (op (if x = 15 then f else a))) := by
  rw [← resultOperand_of_sequential f hc ha, hf]
  exact needSet_of_eq_some ha s _

theorem flaggedUnary_of_latched (flag : Byte → Bool) (op : Byte → Byte) (ha : s.readV x = some a)
    (hf : f = flagByte (flag a)) (hc : s.config.aluVfRead = .latched) :
    flaggedUnary flag op x s = .next ((s.writeV vf f).writeV x (op a)) := by
  have hresult : (s.writeV vf f).writeV x (op a) =
      (s.writeV vf f).writeV x (op ((s.writeV vf f).resultOperand x a)) := by
    rw [resultOperand_of_latched x a f hc]
  rw [hresult, hf]
  exact needSet_of_eq_some ha s _

end

/-! ### The obligations -/

/-- Settles O25: both subtractions are one flagged operation of two operands, under either value of `ALU_VF_READ`. -/
theorem subtractionsSetNoBorrow : Obligations.SubtractionsSetNoBorrow := by
  refine ⟨fun s x y a b f ha hb hf => ⟨fun hc => ?_, fun hc => ?_⟩, fun s x y a b f ha hb hf => ⟨fun hc => ?_, fun hc => ?_⟩,
    fun s x y hxy => ⟨?_, ?_⟩⟩
  · have hflag := hf.trans (flagByte_noBorrow a b).symm
    exact completes_of_exec (decode_subVxVy x y) (flaggedBinary_of_sequential _ _ ha hb hflag hc) rfl
  · have hflag := hf.trans (flagByte_noBorrow a b).symm
    exact completes_of_exec (decode_subVxVy x y) (flaggedBinary_of_latched _ _ ha hb hflag hc) rfl
  · have hflag := hf.trans (flagByte_noBorrow b a).symm
    exact completes_of_exec (decode_subnVxVy x y)
      (flaggedBinary_of_sequential (fun a b => noBorrow b a) (fun a b => b - a) ha hb hflag hc) rfl
  · have hflag := hf.trans (flagByte_noBorrow b a).symm
    exact completes_of_exec (decode_subnVxVy x y)
      (flaggedBinary_of_latched (fun a b => noBorrow b a) (fun a b => b - a) ha hb hflag hc) rfl
  · exact raises_of_exec (decode_subVxVy x y) (needSet_needSet_of_none hxy s _)
  · exact raises_of_exec (decode_subnVxVy x y) (needSet_needSet_of_none hxy s _)

/-- Settles O26: both shifts are one flagged operation of one operand, and `y` is read by neither. -/
theorem shiftsSetTheBitMovedOut : Obligations.ShiftsSetTheBitMovedOut := by
  refine ⟨fun s x y a f ha hf => ⟨fun hc => ?_, fun hc => ?_⟩, fun s x y a f ha hf => ⟨fun hc => ?_, fun hc => ?_⟩,
    fun s x y hx => ⟨?_, ?_⟩⟩
  · have hflag := hf.trans (flagByte_shiftedOutRight a).symm
    exact completes_of_exec (decode_shrVx x y) (flaggedUnary_of_sequential _ (fun a => a >>> 1) ha hflag hc) rfl
  · have hflag := hf.trans (flagByte_shiftedOutRight a).symm
    exact completes_of_exec (decode_shrVx x y) (flaggedUnary_of_latched _ (fun a => a >>> 1) ha hflag hc) rfl
  · have hflag := hf.trans (flagByte_shiftedOutLeft a).symm
    exact completes_of_exec (decode_shlVx x y) (flaggedUnary_of_sequential _ (fun a => a <<< 1) ha hflag hc) rfl
  · have hflag := hf.trans (flagByte_shiftedOutLeft a).symm
    exact completes_of_exec (decode_shlVx x y) (flaggedUnary_of_latched _ (fun a => a <<< 1) ha hflag hc) rfl
  · exact raises_of_exec (decode_shrVx x y) (needSet_of_eq_none hx s _)
  · exact raises_of_exec (decode_shlVx x y) (needSet_of_eq_none hx s _)

/-- Settles O27: the byte is the oracle's at the count of draws so far. -/
theorem randomByteIsMasked : Obligations.RandomByteIsMasked := fun s x kk =>
  ⟨s.drawByte, completes_of_exec (decode_rndVxKk x kk) rfl rfl⟩

end Sys2Proof.Machine
end

section
/-! The skips on a key, the key wait, the sound timer (45_input_timers.md R110, R112 to R115, R118), and the ticks and key events
that come between (60_exceptions.md R131, R133). -/

namespace Sys2Proof.Machine

section
variable {s : State}

/-! ### Keys -/

theorem skipOnKey_of_index {b : Byte} {k : KeyIx} (want : Bool → Bool) (hk : index16 b = some k) :
    skipOnKey want b s = skipIf (want (s.readKey k)) s := by
  rw [skipOnKey, hk]

theorem skipOnKey_of_no_index {b : Byte} (want : Bool → Bool) (h : 16 ≤ b.toNat) :
    skipOnKey want b s = raiseFault .keyIndex s := by
  rw [skipOnKey, index16_eq_none.2 h]

/-- A skip on a condition, with both outcomes told by `PC` (R72). -/
theorem skipIf_eq (c : Bool) (s : State) : skipIf c s = .next { s with pc := if c = true then s.pc + 2 else s.pc } := by
  cases c <;> rfl

theorem skipIf_not (c : Bool) (s : State) : skipIf (!c) s = .next { s with pc := if c = true then s.pc else s.pc + 2 } := by
  cases c <;> rfl

/-- Settles O43: the register is read first, then its value is an index or not. -/
theorem skipsOnKeys : Obligations.SkipsOnKeys := by
  refine ⟨fun s x b h hb => ?_, fun s x b h hb => ⟨?_, ?_⟩, fun s x hx => ⟨?_, ?_⟩⟩
  · have hk : index16 b = some ⟨_, h⟩ := index16_eq_some.2 rfl
    have hskp : exec (.skpVx x) s = _ :=
      (needSet_of_eq_some hb s _).trans ((skipOnKey_of_index (fun down => down) hk).trans (skipIf_eq _ s))
    have hsknp : exec (.sknpVx x) s = _ :=
      (needSet_of_eq_some hb s _).trans ((skipOnKey_of_index (fun down => !down) hk).trans (skipIf_not _ s))
    exact ⟨completes_of_exec (decode_skpVx x) hskp rfl, completes_of_exec (decode_sknpVx x) hsknp rfl⟩
  · exact raises_of_exec (decode_skpVx x) ((needSet_of_eq_some h s _).trans (skipOnKey_of_no_index _ hb))
  · exact raises_of_exec (decode_sknpVx x) ((needSet_of_eq_some h s _).trans (skipOnKey_of_no_index _ hb))
  · exact raises_of_exec (decode_skpVx x) (needSet_of_eq_none hx s _)
  · exact raises_of_exec (decode_sknpVx x) (needSet_of_eq_none hx s _)

/-! ### The key wait -/

theorem exec_ldVxK_of_run {k : Fin stepsPerFiring} (x : RegIx) (hk : s.clock = .run k) :
    exec (.ldVxK x) s = .next (s.push.startWait.setClock (.wait x k)) := by
  show execLdVxK x s = _
  rw [execLdVxK, hk]

/-- Settles O44: a push and the start of the wait, after which the step makes no advance. -/
theorem keyWaitStarts : Obligations.KeyWaitStarts := by
  rintro s t k x hk rfl
  have hexec := exec_ldVxK_of_run x hk
  rw [State.startWait_eq, State.push_eq] at hexec
  refine ⟨hexec, fun hat => ?_⟩
  rw [step_of_atWord (decode_ldVxK x) hexec hat, State.finishStep_of_not_run fun _ => ClockPhase.noConfusion]
  rfl

/-- In `WAIT(x, k)`, with a press pending, the turn of the instruction clock loads the last key (R115). -/
theorem clockTurn_of_wait {x : RegIx} {k : Fin stepsPerFiring} {key : KeyIx} (hc : s.clock = .wait x k)
    (hp : s.pressPending = true) (hkey : s.lastKey = some key) :
    clockTurn s = .next (((s.writeV x (BitVec.ofNat 8 key.val)).setPressPending false).advance k) := by
  simp only [clockTurn, hc, hp, if_true, State.completeWait, hkey]

theorem State.clockEnabled_of_wait {x : RegIx} {k : Fin stepsPerFiring} (hc : s.clock = .wait x k) :
    s.clockEnabled = s.pressPending := by
  rw [State.clockEnabled, hc]

/-- Settles O45: the completion is the clock's one step in the wait. -/
theorem keyWaitCompletes : Obligations.KeyWaitCompletes := by
  refine ⟨fun s x k hc => by rw [State.clockEnabled_of_wait hc], fun s x k key hc hp hkey hm => ?_, fun s x k hc hp => ?_⟩
  · exact (step_eq_act hm).trans (clockTurn_of_wait (s := s.popTurn) hc hp hkey)
  · exact clockTurn_of_not_enabled ((State.clockEnabled_of_wait hc).trans hp)

/-- Settles O50: a key event is the writes of the latch above. -/
theorem keyEventsChangeTheLatch : Obligations.KeyEventsChangeTheLatch := fun _ _ => ⟨rfl, rfl, rfl, rfl⟩

/-! ### The sound timer -/

/-- The tone events of a write to `ST`, as they are appended to the trace (R118). -/
theorem toList_toneEvent (c : Config) (old v : Byte) : (toneEvent c old v).toList =
    if v ≠ 0 then [.startTone] else if c.stZeroWriteStopsTone = true ∧ old ≠ 0 then [.stopTone] else [] := by
  rw [toneEvent, apply_ite Option.toList, apply_ite Option.toList]
  simp only [Bool.and_eq_true, bne_iff_ne]
  rfl

/-- Settles O47: the tone's event depends on the byte written, the old value of `ST` and the configuration. -/
theorem soundTimerIsSetAndToned : Obligations.SoundTimerIsSetAndToned := by
  refine ⟨fun s x b hb => ?_, fun s x hx => ?_⟩
  · have hexec : exec (.ldStVx x) s = .next ((s.setSt b).emitOption (toneEvent s.config s.st b)) :=
      needSet_of_eq_some hb s _
    rw [State.emitOption_eq, toList_toneEvent] at hexec
    exact completes_of_exec (decode_ldStVx x) hexec rfl
  · exact raises_of_exec (decode_ldStVx x) (needSet_of_eq_none hx s _)

/-! ### Ticks -/

theorem toNat_ofNat_sub (b : Byte) (n : Nat) : (BitVec.ofNat 8 (b.toNat - n)).toNat = b.toNat - n := by
  rw [BitVec.toNat_ofNat]
  exact Nat.mod_eq_of_lt ((Nat.sub_le _ _).trans_lt b.isLt)

/-- The event of the tick that takes a timer to zero is the one event of all ticks up to it (R131). -/
theorem stopTone_append (v n : Nat) : ((if 0 < v ∧ v ≤ n then [Event.stopTone] else []) ++ if v - n = 1 then [.stopTone] else []) =
    if 0 < v ∧ v ≤ n + 1 then [.stopTone] else [] := by
  by_cases hlast : v = n + 1
  · subst hlast
    simp
  · have hnot : ¬ v - n = 1 := by omega
    have hsame : (0 < v ∧ v ≤ n + 1) ↔ 0 < v ∧ v ≤ n := by omega
    simp only [hnot, hsame, if_false, List.append_nil]

/-- Settles O49, by induction on the number of ticks. -/
theorem ticksCountDownToZero : Obligations.TicksCountDownToZero := by
  intro n s
  induction n with
  | zero =>
    have hnone : ¬ (0 < s.st.toNat ∧ s.st.toNat ≤ 0) := by omega
    simp only [Function.iterate_zero, id, if_neg hnone, Nat.sub_zero, BitVec.ofNat_toNat, BitVec.setWidth_eq, List.append_nil]
  | succ n ih =>
    rw [Function.iterate_succ_apply', ih, State.tick_eq]
    simp only [toNat_ofNat_sub, Nat.sub_sub, List.append_assoc, stopTone_append]

end

end Sys2Proof.Machine
end

section
/-! Memory bytes and the fetched word (20_memory.md R36, R38, R47). -/

namespace Sys2Proof.Machine

/-- A read depends on its address mod 4096 (R34). -/
theorem Memory.read_congr (m : Memory) {a a' : Nat} (h : a % memSize = a' % memSize) : Memory.read m a = Memory.read m a' :=
  congrArg (Memory.byteAt m) h

/-- Settles O32: the byte written is read at its own address mod 4096, in a memory kept canonical. -/
theorem memoryWriteSetsOneByte : Obligations.MemoryWriteSetsOneByte := fun s a c b h =>
  ⟨Memory.read_write s.mem a c b h, rfl, Memory.wf_write s.mem a b h⟩

theorem toNat_mod_memSize_add (w : Word) (n : Nat) (h : n < 65536) :
    (w + BitVec.ofNat 16 n).toNat % memSize = (w.toNat + n) % memSize := by
  rw [BitVec.toNat_add, BitVec.toNat_ofNat, Nat.mod_eq_of_lt h]
  exact Nat.mod_mod_of_dvd _ (by decide)

/-- Settles O34: the word is two bytes side by side, and 4096 divides the 65536 that `PC` wraps at. -/
theorem fetchIsBigEndian : Obligations.FetchIsBigEndian := fun s =>
  ⟨toNat_append_add _ _, Memory.read_congr s.mem (toNat_mod_memSize_add s.pc 1 (by decide)).symm⟩

/-! ### A store into the next word -/

theorem hiByte_fetchWord (s : State) : hiByte s.fetchWord = s.memRead s.pc.toNat := BitVec.extractLsb'_append_eq_left

theorem loByte_fetchWord (s : State) : loByte s.fetchWord = s.memRead (s.pc.toNat + 1) := BitVec.extractLsb'_append_eq_right

/-- A byte that memory holds at the address `PC + 2` or `PC + 3` is that byte of the word fetched there. -/
theorem bytes_of_fetchWord {t : State} {pc : Word} {a : Nat} {b : Byte} (hpc : t.pc = pc + 2)
    (hb : Memory.read t.mem a = b) :
    (a % 4096 = (pc.toNat + 2) % 4096 → hiByte t.fetchWord = b) ∧
    (a % 4096 = (pc.toNat + 3) % 4096 → loByte t.fetchWord = b) := by
  have hmod : t.pc.toNat % memSize = (pc.toNat + 2) % memSize := hpc ▸ toNat_mod_memSize_add pc 2 (by decide)
  refine ⟨fun h => ?_, fun h => ?_⟩
  · rw [hiByte_fetchWord, ← hb]
    exact Memory.read_congr t.mem (hmod.trans h.symm)
  · rw [loByte_fetchWord, ← hb]
    refine Memory.read_congr t.mem (Eq.trans ?_ h.symm)
    rw [Nat.add_mod, hmod, ← Nat.add_mod]

/-- Settles O35: the step stores the bytes, and the next word is read from the memory it leaves. -/
theorem storedWordIsFetchedNext : Obligations.StoredWordIsFetchedNext := by
  refine ⟨fun s k x i hat hwf hi hset => ?_, fun s k x i v hat hwf hi hv => ?_⟩
  · obtain ⟨m, ⟨-, hstep⟩, hread, -⟩ := registersAreStored.1 s x i hwf hi hset
    refine ⟨_, hstep k hat, rfl, fun r b hr hb => bytes_of_fetchWord rfl ?_⟩
    exact Option.some.inj ((hread r hr).symm.trans hb)
  · obtain ⟨m, ⟨-, hstep⟩, hhundreds, htens, hones, -⟩ := decimalDigitsAreStored.1 s x i v hwf hi hv
    refine ⟨_, hstep k hat, rfl, fun j d hd => bytes_of_fetchWord rfl ?_⟩
    match j, hd with
    | 0, hd => cases hd; exact hhundreds
    | 1, hd => cases hd; exact htens
    | 2, hd => cases hd; exact hones

end Sys2Proof.Machine
end

section
/-! The turns to come and the block end as steps (40_step.md R67; 44_display.md R106; logs 5, 6). -/

namespace Sys2Proof.Machine

theorem step_of_schedule {s : State} {m : Move} {l : List Move} (h : s.schedule = m :: l) :
    step s = act m { s with schedule := l } := by
  have hnext : s.nextMove = some m := congrArg List.head? (State.turns_of_cons h)
  have hround : s.nextRound = s.round := by rw [State.nextRound, h]
  rw [step_eq_act hnext, State.popTurn, State.turns_of_cons h, hround]
  rfl

/-- Settles O8: a round is a list of turns that is never empty and holds no stop but those of the schedule. -/
theorem scheduledTurnIsTaken : Obligations.ScheduledTurnIsTaken := by
  refine ⟨fun s m l h => step_of_schedule h, fun s hnil hon => ?_⟩
  have hstop (n : Nat) : Move.stop ∉ freeTurns n := by simp [freeTurns]
  refine ⟨_, _, hstop (2 * s.round), hstop (2 * s.round + 1), ?_⟩
  have hturns : s.turns = s.fairRound := State.turns_of_nil hnil hon
  have hround : s.nextRound = s.round + 1 := by rw [State.nextRound, hnil]
  change step s = step { s with schedule := s.fairRound, round := s.round + 1 }
  cases hl : s.fairRound with
  | nil => exact absurd (hl ▸ s.mem_fairRound (.inl rfl)) List.not_mem_nil
  | cons m l =>
    have hnext : s.nextMove = some m := congrArg List.head? (hturns.trans hl)
    rw [step_eq_act hnext, State.popTurn, hturns, hl, hround, step_of_schedule rfl]
    rfl

/-- Settles O9: a push by `DIRTY`, and the block end as the clock's turn. -/
theorem blockEndPushes : Obligations.BlockEndPushes := by
  refine ⟨fun s h => ?_, fun s h => ?_, fun s hc hm => ?_⟩
  · rw [State.push, if_pos h]
    rfl
  · rw [State.push, h, if_neg Bool.false_ne_true]
  · rw [step_eq_act hm]
    refine (clockTurn_of_blockEnd (s := s.popTurn) hc).trans ?_
    rw [State.endBlock, State.push_eq, State.push_eq]
    rfl

end Sys2Proof.Machine
end

section
/-! `drawSprite` as marks on cells (44_display.md R104, R105): the bits that are not clipped, each with the cell it lands on. Since
a sprite has at most 15 rows of 8 bits, no two of its bits land on one cell, so each cell is negated at most once. -/

namespace Sys2Proof.Machine

/-! ### Marks -/

/-- The place of a cell of the grid: column and row. -/
abbrev CellIx := Fin screenColumns × Fin screenRows

/-- The cell at candidate coordinates, wrapped (R104). -/
def wrapCell (cx cy : Nat) : CellIx := (Fin.ofNat screenColumns cx, Fin.ofNat screenRows cy)

/-- A bit at candidate coordinates with the cell it lands on, or none if it is clipped (R104). -/
def markAt (clip : Bool) (cx cy : Nat) (bit : Bool) : Option (CellIx × Bool) :=
  if clip && offGrid cx cy then none else some (wrapCell cx cy, bit)

/-- One bit processed (R104). -/
def applyMark (d : Draw) (m : CellIx × Bool) : Draw where
  grid := if m.2 then Grid.toggle d.grid m.1.1 m.1.2 else d.grid
  collision := d.collision || (m.2 && Grid.cell d.grid m.1.1 m.1.2)
  processed := true

/-- The marks of one row of a sprite. -/
def rowMarks (clip : Bool) (x0 cy : Nat) (row : Byte) : List (CellIx × Bool) :=
  spriteColumns.filterMap fun j => markAt clip (x0 + j) cy (spriteBit row j)

/-- The marks of the rows of a sprite, the first of them at `cy`. -/
def spriteMarks (clip : Bool) (x0 : Nat) : Nat → List Byte → List (CellIx × Bool)
  | _, [] => []
  | cy, row :: rows => rowMarks clip x0 cy row ++ spriteMarks clip x0 (cy + 1) rows

theorem drawBit_eq (clip : Bool) (cx cy : Nat) (bit : Bool) (d : Draw) :
    drawBit clip cx cy bit d = (markAt clip cx cy bit).elim d (applyMark d) := by
  unfold drawBit markAt
  split <;> rfl

theorem drawRow_eq (clip : Bool) (x0 cy : Nat) (row : Byte) (d : Draw) :
    drawRow clip x0 cy row d = (rowMarks clip x0 cy row).foldl applyMark d := by
  unfold drawRow rowMarks
  rw [List.foldl_filterMap]
  congr 1
  funext d j
  rw [drawBit_eq]
  cases markAt clip (x0 + j) cy (spriteBit row j) <;> rfl

theorem drawRows_eq (clip : Bool) (x0 : Nat) : ∀ (rows : List Byte) (cy : Nat) (d : Draw),
    drawRows clip x0 cy rows d = (spriteMarks clip x0 cy rows).foldl applyMark d
  | [], _, _ => rfl
  | row :: rows, cy, d => by
    rw [drawRows, spriteMarks, List.foldl_append, drawRow_eq, drawRows_eq clip x0 rows]

/-! ### What marks on distinct cells do -/

/-- One mark negates its cell if its bit is set, and leaves every other cell. -/
theorem cell_applyMark (d : Draw) (m : CellIx × Bool) (c : CellIx) :
    Grid.cell (applyMark d m).grid c.1 c.2 = (Grid.cell d.grid c.1 c.2 ^^ decide (m = (c, true))) := by
  obtain ⟨⟨col, row⟩, bit⟩ := m
  cases bit with
  | false => simp [applyMark]
  | true =>
    have hcell := Grid.cell_toggle d.grid col c.1 row c.2
    have hsame : (c.1 = col ∧ c.2 = row) ↔ (((col, row), true) : CellIx × Bool) = (c, true) := by
      obtain ⟨c1, c2⟩ := c
      simp [eq_comm]
    simp only [applyMark, if_true, hcell, hsame]
    split_ifs with h
    · obtain rfl : (col, row) = c := congrArg Prod.fst h
      simp
    · simp [h]

section
variable {marks : List (CellIx × Bool)}

/-- Marks on distinct cells negate each cell with a set mark once. -/
theorem cell_foldl_applyMark (hdistinct : (marks.map Prod.fst).Nodup) (d : Draw) (c : CellIx) :
    Grid.cell (marks.foldl applyMark d).grid c.1 c.2 = (Grid.cell d.grid c.1 c.2 ^^ decide ((c, true) ∈ marks)) := by
  induction marks generalizing d with
  | nil => simp
  | cons m marks ih =>
    obtain ⟨hfresh, hrest⟩ := List.nodup_cons.1 hdistinct
    rw [List.foldl_cons, ih hrest, cell_applyMark]
    by_cases hm : m = (c, true)
    · subst hm
      have hnot : (c, true) ∉ marks := fun h => hfresh (List.mem_map_of_mem h)
      simp [hnot]
    · simp [hm, Ne.symm hm]

/-- Marks on distinct cells collide exactly when a set mark is on a lit cell. -/
theorem collision_foldl_applyMark (hdistinct : (marks.map Prod.fst).Nodup) (d : Draw) :
    (marks.foldl applyMark d).collision = true ↔
      d.collision = true ∨ ∃ c : CellIx, (c, true) ∈ marks ∧ Grid.cell d.grid c.1 c.2 = true := by
  induction marks generalizing d with
  | nil => simp
  | cons m marks ih =>
    obtain ⟨hfresh, hrest⟩ := List.nodup_cons.1 hdistinct
    have hlater {c : CellIx} (hc : (c, true) ∈ marks) :
        Grid.cell (applyMark d m).grid c.1 c.2 = Grid.cell d.grid c.1 c.2 := by
      have hne : m ≠ (c, true) := by
        rintro rfl
        exact hfresh (List.mem_map_of_mem hc)
      simp [cell_applyMark, hne]
    rw [List.foldl_cons, ih hrest]
    simp only [applyMark, Bool.or_eq_true, Bool.and_eq_true, List.mem_cons, or_assoc]
    refine or_congr_right ⟨?_, ?_⟩
    · rintro (⟨hbit, hlit⟩ | ⟨c, hc, hlit⟩)
      · exact ⟨m.1, .inl (Prod.ext rfl hbit.symm), hlit⟩
      · exact ⟨c, .inr hc, hlater hc ▸ hlit⟩
    · rintro ⟨c, rfl | hc, hlit⟩
      · exact .inl ⟨rfl, hlit⟩
      · exact .inr ⟨c, hc, (hlater hc).trans hlit⟩

theorem processed_foldl_applyMark (d : Draw) :
    (marks.foldl applyMark d).processed = true ↔ d.processed = true ∨ marks ≠ [] := by
  induction marks generalizing d with
  | nil => simp
  | cons m marks ih => simp [ih, applyMark]

end

/-! ### The marks of a sprite -/

theorem mem_spriteColumns {j : Nat} : j ∈ spriteColumns ↔ j < 8 := by
  simp only [spriteColumns, List.mem_cons, List.not_mem_nil, or_false]
  omega

/-- A bit at candidate coordinates is marked unless it is clipped off the grid. -/
theorem markAt_eq_some_iff {clip : Bool} {cx cy : Nat} {bit : Bool} {m : CellIx × Bool} :
    markAt clip cx cy bit = some m ↔ (clip = true → cx < 64 ∧ cy < 32) ∧ m = (wrapCell cx cy, bit) := by
  have hoff : offGrid cx cy = false ↔ cx < 64 ∧ cy < 32 := by
    simp only [offGrid, Bool.or_eq_false_iff, decide_eq_false_iff_not, Nat.not_le]
  have hkept : (clip && offGrid cx cy) = false ↔ (clip = true → cx < 64 ∧ cy < 32) := by
    cases clip <;> simp [hoff]
  unfold markAt
  rw [← hkept]
  cases clip && offGrid cx cy <;> simp [eq_comm]

theorem mem_rowMarks {clip : Bool} {x0 cy : Nat} {row : Byte} {m : CellIx × Bool} : m ∈ rowMarks clip x0 cy row ↔
    ∃ j, j < 8 ∧ (clip = true → x0 + j < 64 ∧ cy < 32) ∧ m = (wrapCell (x0 + j) cy, spriteBit row j) := by
  simp only [rowMarks, List.mem_filterMap, mem_spriteColumns, markAt_eq_some_iff]

/-- Bit `j` of row `i`, unless it is clipped, is a mark of the sprite, and there are no others. -/
theorem mem_spriteMarks {clip : Bool} {x0 : Nat} {m : CellIx × Bool} : ∀ {rows : List Byte} {cy : Nat},
    m ∈ spriteMarks clip x0 cy rows ↔ ∃ (i j : Nat) (b : Byte), j < 8 ∧ rows[i]? = some b ∧
      (clip = true → x0 + j < 64 ∧ cy + i < 32) ∧ m = (wrapCell (x0 + j) (cy + i), spriteBit b j)
  | [], cy => by simp [spriteMarks]
  | row :: rows, cy => by
    rw [spriteMarks, List.mem_append, mem_rowMarks, mem_spriteMarks]
    constructor
    · rintro (⟨j, hj, hclip, rfl⟩ | ⟨i, j, b, hj, hb, hclip, rfl⟩)
      · exact ⟨0, j, row, hj, rfl, hclip, rfl⟩
      · rw [Nat.add_right_comm cy 1 i] at hclip ⊢
        exact ⟨i + 1, j, b, hj, hb, hclip, rfl⟩
    · rintro ⟨i, j, b, hj, hb, hclip, rfl⟩
      cases i with
      | zero =>
        cases hb
        exact .inl ⟨j, hj, hclip, rfl⟩
      | succ i =>
        rw [← Nat.add_assoc, Nat.add_right_comm cy i 1] at hclip ⊢
        exact .inr ⟨i, j, b, hj, hb, hclip, rfl⟩

theorem wrapCell_eq_iff {cx cy : Nat} {c : CellIx} : wrapCell cx cy = c ↔ cx % 64 = c.1.val ∧ cy % 32 = c.2.val := by
  obtain ⟨c1, c2⟩ := c
  simp only [wrapCell, Prod.mk.injEq, Fin.ext_iff, Fin.val_ofNat]

theorem wrapCell_inj_iff {cx cy cx' cy' : Nat} :
    wrapCell cx cy = wrapCell cx' cy' ↔ cx % 64 = cx' % 64 ∧ cy % 32 = cy' % 32 :=
  wrapCell_eq_iff

/-- The marks of a row are on distinct columns. -/
theorem nodup_rowMarks (clip : Bool) (x0 cy : Nat) (row : Byte) : ((rowMarks clip x0 cy row).map Prod.fst).Nodup := by
  rw [List.Nodup, List.pairwise_map, rowMarks, List.pairwise_filterMap]
  have hcolumns : spriteColumns.Pairwise fun j j' => j < 8 ∧ j' < 8 ∧ j ≠ j' := by decide
  refine hcolumns.imp ?_
  rintro j j' ⟨hj, hj', hne⟩ m hm m' hm' heq
  obtain ⟨-, rfl⟩ := markAt_eq_some_iff.1 hm
  obtain ⟨-, rfl⟩ := markAt_eq_some_iff.1 hm'
  obtain ⟨hcol, -⟩ := wrapCell_inj_iff.1 heq
  omega

/-- The marks of at most 32 rows are on distinct cells: those of two rows are on distinct rows. -/
theorem nodup_spriteMarks (clip : Bool) (x0 : Nat) : ∀ (rows : List Byte) (cy : Nat), rows.length ≤ 32 →
    ((spriteMarks clip x0 cy rows).map Prod.fst).Nodup
  | [], _, _ => List.nodup_nil
  | row :: rows, cy, hlen => by
    rw [List.length_cons] at hlen
    rw [spriteMarks, List.map_append, List.nodup_append]
    refine ⟨nodup_rowMarks clip x0 cy row, nodup_spriteMarks clip x0 rows (cy + 1) (by omega), ?_⟩
    rintro c hc c' hc' rfl
    obtain ⟨m, hm, rfl⟩ := List.mem_map.1 hc
    obtain ⟨m', hm', heq⟩ := List.mem_map.1 hc'
    obtain ⟨j, -, -, rfl⟩ := mem_rowMarks.1 hm
    obtain ⟨i, j', b, -, hb, -, rfl⟩ := mem_spriteMarks.1 hm'
    obtain ⟨-, hrow⟩ := wrapCell_inj_iff.1 heq
    have hi : i < rows.length := (List.getElem?_eq_some_iff.1 hb).1
    omega

/-- The set marks of a sprite are the cells that its set bits land on. -/
theorem spriteHits_iff {clip : Bool} {x0 y0 : Byte} {rows : List Byte} {col : Fin screenColumns}
    {row : Fin screenRows} :
    SpriteHits clip x0 y0 rows col row ↔ ((col, row), true) ∈ spriteMarks clip x0.toNat y0.toNat rows := by
  rw [mem_spriteMarks]
  constructor
  · rintro ⟨i, j, b, hj, hb, hbit, hclip, hcol, hrow⟩
    exact ⟨i, j, b, hj, hb, hclip, Prod.ext (wrapCell_eq_iff.2 ⟨hcol, hrow⟩).symm hbit.symm⟩
  · rintro ⟨i, j, b, hj, hb, hclip, heq⟩
    obtain ⟨hcell, hbit⟩ := Prod.mk.inj heq
    obtain ⟨hcol, hrow⟩ := wrapCell_eq_iff.1 hcell.symm
    exact ⟨i, j, b, hj, hb, hbit.symm, hclip, hcol, hrow⟩

/-- A sprite has a mark exactly when some bit of it is not clipped. -/
theorem spriteProcessed_iff {clip : Bool} {x0 y0 : Byte} {rows : List Byte} :
    SpriteProcessed clip x0 y0 rows ↔ spriteMarks clip x0.toNat y0.toNat rows ≠ [] := by
  constructor
  · rintro ⟨i, j, hj, hi, hclip⟩
    exact List.ne_nil_of_mem (mem_spriteMarks.2 ⟨i, j, rows[i], hj, List.getElem?_eq_getElem hi, hclip, rfl⟩)
  · intro hne
    obtain ⟨m, hm⟩ := List.exists_mem_of_ne_nil _ hne
    obtain ⟨i, j, b, hj, hb, hclip, -⟩ := mem_spriteMarks.1 hm
    exact ⟨i, j, hj, (List.getElem?_eq_some_iff.1 hb).1, hclip⟩

/-! ### The obligations -/

/-- Settles O40: a sprite is a fold over its marks, which are on distinct cells. -/
theorem drawSpriteIsPointwiseXor : Obligations.DrawSpriteIsPointwiseXor := by
  intro g x0 y0 rows clip hlen
  have hdistinct := nodup_spriteMarks clip x0.toNat rows y0.toNat (by omega)
  have hcell (c : CellIx) : Grid.cell (drawSprite g x0 y0 rows clip).grid c.1 c.2 =
      (Grid.cell g c.1 c.2 ^^ decide ((c, true) ∈ spriteMarks clip x0.toNat y0.toNat rows)) := by
    rw [drawSprite, drawRows_eq, cell_foldl_applyMark hdistinct]
  refine ⟨fun col row hhit => ?_, fun col row hmiss => ?_, ?_, ?_⟩
  · simpa [spriteHits_iff.1 hhit] using hcell (col, row)
  · simpa [mt spriteHits_iff.2 hmiss] using hcell (col, row)
  · rw [drawSprite, drawRows_eq, collision_foldl_applyMark hdistinct, Prod.exists]
    simp only [Bool.false_eq_true, false_or, ← spriteHits_iff]
  · rw [drawSprite, drawRows_eq, processed_foldl_applyMark, spriteProcessed_iff]
    simp only [Bool.false_eq_true, false_or]

/-- Settles O41: the cells that a sprite negates do not depend on the grid, and negating twice is no change. -/
theorem drawingTwiceRestoresTheGrid : Obligations.DrawingTwiceRestoresTheGrid := by
  intro g x0 y0 rows clip hlen
  obtain ⟨hhit, hmiss, -, -⟩ := drawSpriteIsPointwiseXor g x0 y0 rows clip hlen
  obtain ⟨hhit', hmiss', hcollision', -⟩ :=
    drawSpriteIsPointwiseXor (drawSprite g x0 y0 rows clip).grid x0 y0 rows clip hlen
  refine ⟨Grid.ext_cell fun col row => ?_, ?_⟩
  · by_cases h : SpriteHits clip x0 y0 rows col row
    · rw [hhit' col row h, hhit col row h, Bool.not_not]
    · rw [hmiss' col row h, hmiss col row h]
  · rw [hcollision']
    refine exists_congr fun col => exists_congr fun row => ⟨fun ⟨h, hlit⟩ => ⟨?_, hlit⟩, fun ⟨hunlit, hlit⟩ => ⟨?_, hlit⟩⟩
    · rw [hhit col row h] at hlit
      exact Bool.not_eq_true' _ ▸ hlit
    · by_contra h
      rw [hmiss col row h, hunlit] at hlit
      cases hlit

end Sys2Proof.Machine
end

section
/-! Fairness (60_exceptions.md R129): a pending press is consumed in a weakly fair run, and the machine's own rounds give each
clock turns for ever (log 6). -/

namespace Sys2Proof.Machine

/-! ### A pending press in a fair run -/

/-- The instruction clock waits in `WAIT(x, k)` with a press pending (R115). -/
def State.PressWaiting (s : State) (x : RegIx) (k : Fin stepsPerFiring) : Prop := s.clock = .wait x k ∧ s.pressPending = true

section
variable {x : RegIx} {k : Fin stepsPerFiring} {s t : State}

/-- A tick or a key event does not end the wait, and a release leaves the press pending. -/
theorem State.PressWaiting.act {m : Move} (h : s.PressWaiting x k) (hclock : m ≠ .clock) (hstop : m ≠ .stop)
    (ht : act m s = .next t) : t.PressWaiting x k := by
  cases m with
  | clock => exact absurd rfl hclock
  | stop => exact absurd rfl hstop
  | tick =>
    obtain ⟨d, b, e, rfl⟩ := eq_of_tick ht
    exact h
  | key key pressed =>
    cases ht
    cases pressed with
    | false => exact h
    | true => exact ⟨h.1, rfl⟩

/-- The clock's turn in the wait is its completion with the last key (R115). -/
theorem State.PressWaiting.complete (h : s.PressWaiting x k) (ht : clockTurn s = .next t) :
    ∃ key, s.lastKey = some key ∧ t.readV x = some (BitVec.ofNat 8 key.val) ∧ t.clock = nextPhase k := by
  obtain ⟨hc, hp⟩ := h
  have hcomplete : s.completeWait x k = .next t := by simpa only [clockTurn, hc, hp, if_true] using ht
  unfold State.completeWait at hcomplete
  split at hcomplete
  · next key hkey =>
    cases hcomplete
    exact ⟨key, hkey, s.readV_writeV_self x _, rfl⟩
  · cases hcomplete

/-- The press stays pending for as long as neither the instruction clock nor a stop has had a turn. -/
theorem Run.pressWaiting {r : Run} {n : Nat} (h : (r.state n).PressWaiting x k) (hstop : ∀ j, n ≤ j → r.move j ≠ .stop) :
    ∀ d, (∀ i, i < d → r.move (n + i) ≠ .clock) → (r.state (n + d)).PressWaiting x k
  | 0, _ => h
  | d + 1, hclock =>
    (Run.pressWaiting h hstop d fun i hi => hclock i (hi.trans (Nat.lt_succ_self d))).act
      (hclock d (Nat.lt_succ_self d)) (hstop _ (Nat.le_add_right n d)) (r.steps (n + d))

/-- Fairness gives the instruction clock a turn in the wait, since its completion stays enabled (R129). -/
theorem Run.exists_clock_of_pressWaiting {r : Run} {n : Nat} (hfair : r.weaklyFair) (h : (r.state n).PressWaiting x k)
    (hstop : ∀ j, n ≤ j → r.move j ≠ .stop) : ∃ d, r.move (n + d) = .clock := by
  by_contra hnone
  have hclock : ∀ d, r.move (n + d) ≠ .clock := not_exists.1 hnone
  have henabled : ∀ j, n ≤ j → (r.state j).enabled .clock = true := by
    intro j hj
    obtain ⟨d, rfl⟩ := Nat.exists_eq_add_of_le hj
    obtain ⟨hc, hp⟩ := Run.pressWaiting h hstop d fun i _ => hclock i
    exact (State.clockEnabled_of_wait hc).trans hp
  obtain ⟨j, hj, hmove⟩ := hfair .clock (.inl rfl) n henabled
  obtain ⟨d, rfl⟩ := Nat.exists_eq_add_of_le hj
  exact hclock d hmove

end

/-! ### The machine's own steps -/

section
variable {s t : State} {m : Move}

/-- No turn writes the turns to come. -/
theorem act_schedule (h : act m s = .next t) : t.schedule = s.schedule := by
  cases m with
  | clock =>
    obtain ⟨-, -, -, -, hschedule, -⟩ := clockTurn_sameOutside h
    exact hschedule
  | tick =>
    obtain ⟨d, b, e, rfl⟩ := eq_of_tick h
    rfl
  | key k pressed =>
    obtain ⟨keys, last, pending, rfl⟩ := eq_of_keyEvent h
    rfl
  | stop =>
    cases h
    rfl

/-- A step takes the first of the turns to come, and leaves the others scheduled. -/
theorem turns_eq_cons_of_step (h : step s = .next t) : ∃ m, s.nextMove = some m ∧ s.turns = m :: t.schedule := by
  obtain ⟨m, hnext, hact⟩ := step_eq_next h
  exact ⟨m, hnext, by rw [act_schedule hact]; exact State.turns_eq_cons hnext⟩

/-- A state that steps with nothing scheduled takes its turns from a round, which holds a turn of each clock. -/
theorem mem_turns_of_schedule_eq_nil (hm : m = .clock ∨ m = .tick) (hnil : s.schedule = []) (h : step s = .next t) :
    m ∈ s.turns := by
  by_cases hon : s.clockEnabled = true ∨ s.timerEnabled = true
  · rw [State.turns_of_nil hnil hon]
    exact s.mem_fairRound hm
  · obtain ⟨m', -, hturns⟩ := turns_eq_cons_of_step h
    simp [State.turns, hnil, hon] at hturns

end

section
variable {r : Nat → State} {m : Move}

/-- A turn that is to come is taken. -/
theorem exists_nextMove_of_mem_turns (hr : stepsForever r) : ∀ (l : List Move) (n : Nat), (r n).turns = l → m ∈ l →
    ∃ j, n ≤ j ∧ (r j).nextMove = some m
  | [], _, _, hmem => absurd hmem List.not_mem_nil
  | m' :: l, n, hl, hmem => by
    obtain ⟨m'', hnext, hturns⟩ := turns_eq_cons_of_step (hr n)
    obtain ⟨rfl, hrest⟩ := List.cons.inj (hl.symm.trans hturns)
    cases hmem with
    | head => exact ⟨n, le_rfl, hnext⟩
    | tail _ hmem =>
      have hlater : (r (n + 1)).turns = l := by
        cases hl' : (r (n + 1)).schedule with
        | nil => rw [hrest, hl'] at hmem; cases hmem
        | cons a l' => rw [State.turns_of_cons hl', hrest, hl']
      obtain ⟨j, hj, hmove⟩ := exists_nextMove_of_mem_turns hr l (n + 1) hlater hmem
      exact ⟨j, (Nat.le_succ n).trans hj, hmove⟩

/-- After the turns scheduled now there is a round, so a turn of each clock is to come. -/
theorem exists_mem_turns (hr : stepsForever r) (hm : m = .clock ∨ m = .tick) : ∀ (l : List Move) (n : Nat),
    (r n).schedule = l → ∃ j, n ≤ j ∧ m ∈ (r j).turns
  | [], n, hl => ⟨n, le_rfl, mem_turns_of_schedule_eq_nil hm hl (hr n)⟩
  | m' :: l, n, hl => by
    obtain ⟨m'', -, hturns⟩ := turns_eq_cons_of_step (hr n)
    obtain ⟨-, hrest⟩ := List.cons.inj ((State.turns_of_cons hl).symm.trans hturns)
    obtain ⟨j, hj, hmem⟩ := exists_mem_turns hr hm l (n + 1) hrest.symm
    exact ⟨j, (Nat.le_succ n).trans hj, hmem⟩

end

/-- Settles O59: the first turn of the clock in the wait completes it, and a turn of each clock is in every round. -/
theorem pendingPressIsEventuallyConsumed : Obligations.PendingPressIsEventuallyConsumed := by
  refine ⟨fun r n x k hfair hc hp hstop => ?_, fun r hr n m hm => ?_⟩
  · have hwait : (r.state n).PressWaiting x k := ⟨hc, hp⟩
    have hturn := Run.exists_clock_of_pressWaiting hfair hwait hstop
    have hfirst := Nat.find_spec hturn
    have hthen := Run.pressWaiting hwait hstop (Nat.find hturn) fun i hi => Nat.find_min hturn hi
    have hstep := r.steps (n + Nat.find hturn)
    rw [hfirst] at hstep
    obtain ⟨key, hkey, hload, hphase⟩ := hthen.complete hstep
    exact ⟨_, key, Nat.le_add_right n _, hthen.1, hkey, hload, hphase⟩
  · obtain ⟨j, hj, hmem⟩ := exists_mem_turns hr hm _ n rfl
    obtain ⟨j', hj', hmove⟩ := exists_nextMove_of_mem_turns hr _ j rfl hmem
    exact ⟨j', hj.trans hj', hmove⟩

end Sys2Proof.Machine
end
